-- ==== Sys2Proof/Word.lean ====
section
/-! DEFINITION. The words of the CSTB: bytes, 32-bit registers, binary64 samples, window offsets and
the two block shapes (00_scope.md R8, R13; 10_state.md R21, R22; 20_memory.md R60). -/

namespace Sys2Proof

/-- A byte of the window. -/
abbrev Byte := BitVec 8

/-- A 32-bit register value or command word (10_state.md R27, 30_encoding.md R90). -/
abbrev Word := BitVec 32

/-- A sample: the bit pattern of an IEEE 754 binary64 value (00_scope.md R8). -/
abbrev Sample := BitVec 64

/-- A byte offset of the 1 GiB window, 0x0000_0000 to 0x3FFF_FFFF (20_memory.md R60). -/
abbrev Offset := BitVec 30

/-- The 64 samples of a `V` register, element `e = r*8 + c` (10_state.md R21). -/
abbrev Block8 := Vector Sample 64

/-- The 256 samples of a `W` register, element `e = r*16 + c` (10_state.md R22). -/
abbrev Block16 := Vector Sample 256

end Sys2Proof
end

