-- ==== Sys2Proof/Config.lean ====
section
/-! DEFINITION. What an instance of the CSTB fixes at build time (00_scope.md R7) and the values the
spec leaves open (93_implementation_defined.md U1 to U4, U7). An `opaque` constant here has no body
of ours: no proof can learn its value, so a claim holds whatever the value is. -/

namespace Sys2Proof.Config

/-- The numerics of the binary64 operations (00_scope.md R7, R9, R10). -/
inductive Arith where
  /-- IEEE 754 operations in the order the pseudocode writes them (R9). -/
  | ref64
  /-- Each result is an unspecified function of its inputs (R10). -/
  | opaqueFn
deriving DecidableEq, Repr

/-- The build-time parameters of 00_scope.md R7, fixed per instance and read-only to software. -/
structure Params where
  /-- `MAX_W`, the largest legal image width. -/
  maxW : Nat
  /-- `MAX_H`, the largest legal image height. -/
  maxH : Nat
  /-- `ARITH`. -/
  arith : Arith
  /-- `COSJ[0..31]`, the cosine table of 41_dct.md R141. -/
  cosj : Vector Sample 32
  /-- `C0`, the zero-frequency weight. -/
  c0 : Sample
  /-- `KY0`, `KY1`, `KY2`, the forward luma weights. -/
  ky0 : Sample
  ky1 : Sample
  ky2 : Sample
  /-- `KCB0`, `KCB1`, `KCB2`, the forward Cb weights. -/
  kcb0 : Sample
  kcb1 : Sample
  kcb2 : Sample
  /-- `KCR0`, `KCR1`, `KCR2`, the forward Cr weights. -/
  kcr0 : Sample
  kcr1 : Sample
  kcr2 : Sample
  /-- `KI0` to `KI3`, the inverse weights. -/
  ki0 : Sample
  ki1 : Sample
  ki2 : Sample
  ki3 : Sample
deriving DecidableEq, Repr

/-- `MAX_PIX = MAX_W * MAX_H` (00_scope.md R7). -/
def Params.maxPix (p : Params) : Nat := p.maxW * p.maxH

/-- The legal sizes of 00_scope.md R7: multiples of 16 from 16 to 4096. -/
abbrev Params.legal (p : Params) : Prop :=
  (p.maxW % 16 = 0 ∧ 16 ≤ p.maxW ∧ p.maxW ≤ 4096) ∧
  (p.maxH % 16 = 0 ∧ 16 ≤ p.maxH ∧ p.maxH ≤ 4096)

/-- The default cosine table, `RN(cos(j*pi/16))`, the bit patterns of 41_dct.md R141. -/
def defaultCosj : Vector Sample 32 := #v[
  0x3FF0000000000000#64, 0x3FEF6297CFF75CB0#64, 0x3FED906BCF328D46#64, 0x3FEA9B66290EA1A3#64,
  0x3FE6A09E667F3BCD#64, 0x3FE1C73B39AE68C8#64, 0x3FD87DE2A6AEA963#64, 0x3FC8F8B83C69A60B#64,
  0x0000000000000000#64, 0xBFC8F8B83C69A60B#64, 0xBFD87DE2A6AEA963#64, 0xBFE1C73B39AE68C8#64,
  0xBFE6A09E667F3BCD#64, 0xBFEA9B66290EA1A3#64, 0xBFED906BCF328D46#64, 0xBFEF6297CFF75CB0#64,
  0xBFF0000000000000#64, 0xBFEF6297CFF75CB0#64, 0xBFED906BCF328D46#64, 0xBFEA9B66290EA1A3#64,
  0xBFE6A09E667F3BCD#64, 0xBFE1C73B39AE68C8#64, 0xBFD87DE2A6AEA963#64, 0xBFC8F8B83C69A60B#64,
  0x0000000000000000#64, 0x3FC8F8B83C69A60B#64, 0x3FD87DE2A6AEA963#64, 0x3FE1C73B39AE68C8#64,
  0x3FE6A09E667F3BCD#64, 0x3FEA9B66290EA1A3#64, 0x3FED906BCF328D46#64, 0x3FEF6297CFF75CB0#64]

/-- The defaults of 00_scope.md R7. The weights are `RN` of the decimal literals (DEDUCED: the bit
patterns were computed from the literals, log entry 8; safe). -/
def defaults : Params where
  maxW := 1024
  maxH := 1024
  arith := .ref64
  cosj := defaultCosj
  c0 := 0x3FE6A09E667F3BCD#64
  ky0 := 0x3FD322D0E5604189#64
  ky1 := 0x3FE2C8B439581062#64
  ky2 := 0x3FBD2F1A9FBE76C9#64
  kcb0 := 0x3FC5992428D434A0#64
  kcb1 := 0x3FD5336DEB95E5B0#64
  kcb2 := 0x3FE0000000000000#64
  kcr0 := 0x3FE0000000000000#64
  kcr1 := 0x3FDACBC8C0CE91C9#64
  kcr2 := 0x3FB4D0DCFCC5B8DC#64
  ki0 := 0x3FF66E978D4FDF3B#64
  ki1 := 0x3FD6065300581494#64
  ki2 := 0x3FE6DA33BD9CAE21#64
  ki3 := 0x3FFC5A1CAC083127#64

/-! ## Free values -/

/-- U1, 10_state.md R47: what a block-register element holds after the given power-on reset, by the
element's window offset (DESIGN CHOICE, log entry 4; safe). -/
opaque powerOnSample : (epoch : Nat) → (offset : Nat) → Sample

/-- U1, 10_state.md R47: what a byte of the planes, `PIX` and `BIT` reads as until it is written,
after the given power-on reset (DESIGN CHOICE, log entry 4; safe). -/
opaque powerOnByte : (epoch : Nat) → (offset : Nat) → Byte

/-- U3, 00_scope.md R9: the bits from which the NaN stored by one operation is made, by the draw's
number and the stored element's window offset (log entry 5; safe). -/
opaque nanPattern : (draw : Nat) → (offset : Nat) → Sample

/-- U2, 70_reset_and_hazards.md R272: a block-register element a cancelled command would have written
(log entry 6; safe). -/
opaque cancelledSample : (draw : Nat) → (offset : Nat) → Sample

/-- U2: a byte of the planes or `PIX` a cancelled command would have written (log entry 6; safe). -/
opaque cancelledByte : (draw : Nat) → (offset : Nat) → Byte

/-- U2: a bit of `BIT` a cancelled command would have written (log entry 6; safe). -/
opaque cancelledBit : (draw : Nat) → (k : Nat) → Bool

/-! U4, 00_scope.md R10: one uninterpreted function per operation and output position, of exactly the
inputs the rule names (log entry 7; safe). -/

/-- `ARITH = OPAQUE`: the CSCF sample of a plane for one pixel, a function of that pixel's R, G, B. -/
opaque cscfOpaque : (plane pixel : Nat) → (r g b : Byte) → Sample

/-- `ARITH = OPAQUE`: CSCI's `rv`, `gv`, `bv` (channel 0, 1, 2) of one pixel. -/
opaque csciOpaque : (channel pixel : Nat) → (y cb cr : Sample) → Sample

/-- `ARITH = OPAQUE`: element `e` of an FDCT. -/
opaque fdctOpaque : (e : Nat) → Block8 → Sample

/-- `ARITH = OPAQUE`: element `e` of an IDCT. -/
opaque idctOpaque : (e : Nat) → Block8 → Sample

/-- `ARITH = OPAQUE`: element `e` of a DOWN, a function of its four inputs. -/
opaque downOpaque : (e : Nat) → (p q r s : Sample) → Sample

/-- `ARITH = OPAQUE`: element `e` of a VSUB. -/
opaque vsubOpaque : (e : Nat) → (x y : Sample) → Sample

/-- `ARITH = OPAQUE`: element `e` of a WADD. -/
opaque waddOpaque : (e : Nat) → (x y : Sample) → Sample

/-! ## The window's place on the host bus -/

/-- U7: which 1 GiB slot of the host bus the platform chose (log entry 9; safe). -/
opaque baseIndex : Nat

/-- `BASE`, a multiple of 0x4000_0000 (00_scope.md R7, 20_memory.md R60). -/
def base : Nat := baseIndex * 0x40000000

/-- The window offset of a host physical address, if the address lies in the window
(20_memory.md R60, 60_exceptions.md R251). -/
def windowOffset? (phys : Nat) : Option Offset :=
  if base ≤ phys ∧ phys < base + 0x40000000 then some (BitVec.ofNat 30 (phys - base)) else none

end Sys2Proof.Config
end

