-- ==== Sys2Proof/Syntax.lean ====
section
/-! DEFINITION. The fifteen commands of spec/opcode_table.json (30_encoding.md R94), with their decoded
fields. A register field is a 3-bit number whichever file it names (R95), the plane field has 2 bits
and the block index is a natural number, 18 bits wide in a well-formed command (R96). -/

namespace Sys2Proof

/-- A CSTB command. -/
inductive Instr where
  /-- No operation (45_control.md R220). -/
  | nop
  /-- Forward colour-space conversion (40_colorspace.md R122). -/
  | cscf
  /-- Inverse colour-space conversion (40_colorspace.md R123). -/
  | csci
  /-- `FDCT Vd, Va` (41_dct.md R142). -/
  | fdct (d a : Fin 8)
  /-- `IDCT Vd, Va` (41_dct.md R143). -/
  | idct (d a : Fin 8)
  /-- `DOWN Vd, Wa` (42_resample.md R160). -/
  | down (d a : Fin 8)
  /-- `UP Wd, Va` (42_resample.md R161). -/
  | up (d a : Fin 8)
  /-- `VSUB Vd, Va, Vb` (42_resample.md R162). -/
  | vsub (d a b : Fin 8)
  /-- `WADD Wd, Wa, Wb` (42_resample.md R163). -/
  | wadd (d a b : Fin 8)
  /-- `BLD8 Vr, pl, k` (43_block_indexer.md R183). -/
  | bld8 (r : Fin 8) (pl : Fin 4) (k : Nat)
  /-- `BST8 Vr, pl, k` (43_block_indexer.md R184). -/
  | bst8 (r : Fin 8) (pl : Fin 4) (k : Nat)
  /-- `BLD16 Wr, pl, k` (43_block_indexer.md R185). -/
  | bld16 (r : Fin 8) (pl : Fin 4) (k : Nat)
  /-- `BST16 Wr, pl, k` (43_block_indexer.md R187). -/
  | bst16 (r : Fin 8) (pl : Fin 4) (k : Nat)
  /-- Embed the bit memory into the pixel memory (44_lsb.md R202). -/
  | lsbe
  /-- Extract the parities of the pixel memory (44_lsb.md R203). -/
  | lsbx
deriving DecidableEq, Repr

end Sys2Proof
end

