-- ==== Sys2Proof/WellFormed.lean ====
section
/-! DEFINITION. When a command has an encoding (30_encoding.md R96) and when the assembler spells it
(R101). The bounds of the register and plane fields are in their types. -/

namespace Sys2Proof

/-- Every field fits its bits: the block index `k` is an 18-bit number (30_encoding.md R93, R96). -/
def Instr.wellFormed (i : Instr) : Bool :=
  match i with
  | .nop => true
  | .cscf => true
  | .csci => true
  | .fdct _ _ => true
  | .idct _ _ => true
  | .down _ _ => true
  | .up _ _ => true
  | .vsub _ _ _ => true
  | .wadd _ _ _ => true
  | .bld8 _ _ k => decide (k < 2 ^ 18)
  | .bst8 _ _ k => decide (k < 2 ^ 18)
  | .bld16 _ _ k => decide (k < 2 ^ 18)
  | .bst16 _ _ k => decide (k < 2 ^ 18)
  | .lsbe => true
  | .lsbx => true

/-- What the assembler accepts: no `W` operand above `W1`, no plane other than Y, CB, CR, no `k` of
2^18 or more (30_encoding.md R101); only `.word` spells the other words. -/
def Instr.spellable (i : Instr) : Bool :=
  match i with
  | .nop => true
  | .cscf => true
  | .csci => true
  | .fdct _ _ => true
  | .idct _ _ => true
  | .down _ a => decide (a.val ≤ 1)
  | .up d _ => decide (d.val ≤ 1)
  | .vsub _ _ _ => true
  | .wadd d a b => decide (d.val ≤ 1) && decide (a.val ≤ 1) && decide (b.val ≤ 1)
  | .bld8 _ pl k => decide (pl.val ≤ 2) && decide (k < 2 ^ 18)
  | .bst8 _ pl k => decide (pl.val ≤ 2) && decide (k < 2 ^ 18)
  | .bld16 r pl k => decide (r.val ≤ 1) && decide (pl.val ≤ 2) && decide (k < 2 ^ 18)
  | .bst16 r pl k => decide (r.val ≤ 1) && decide (pl.val ≤ 2) && decide (k < 2 ^ 18)
  | .lsbe => true
  | .lsbx => true

end Sys2Proof
end

