-- ==== Sys2Proof/Decode.lean ====
section
/-! DEFINITION. Decoding of command words, total on all 2^32 words (30_encoding.md R90 to R100), and
after it the encoder, the bytes of a word, and the opcode table's match and mask columns. -/

namespace Sys2Proof

/-- `w[hi:lo]` as an unsigned number (00_scope.md R13). -/
def field (w : Word) (hi lo : Nat) : Nat := w.toNat / 2 ^ lo % 2 ^ (hi + 1 - lo)

/-- A 3-bit register field with its lowest bit at `lo` (30_encoding.md R95). -/
def regField (w : Word) (lo : Nat) : Fin 8 := ⟨field w (lo + 2) lo % 8, Nat.mod_lt _ (by decide)⟩

/-- The plane field, bits 22:21 (30_encoding.md R96). -/
def planeField (w : Word) : Fin 4 := ⟨field w 22 21 % 4, Nat.mod_lt _ (by decide)⟩

/-- The block index, bits 17:0 (30_encoding.md R96). -/
def blockField (w : Word) : Nat := field w 17 0

/-- What decoding a word gives: a command, or one of the two rejections of 30_encoding.md R100. -/
inductive Decoded where
  | instr (i : Instr)
  | illegalOpcode
  | reservedBits
deriving DecidableEq, Repr

/-- The reserved masks of 30_encoding.md R98, by format. -/
def maskN : Word := 0x03FFFFFF#32
def maskR2 : Word := 0x000FFFFF#32
def maskR3 : Word := 0x0001FFFF#32
def maskM : Word := 0x001C0000#32

/-- The opcode map of 30_encoding.md R94: for an assigned opcode, its reserved mask and the command its
fields make; nothing for the other 49 values. -/
def opRow? (op : Nat) : Option (Word × (Word → Instr)) :=
  match op with
  | 0x01 => some (maskN, fun _ => .nop)
  | 0x02 => some (maskN, fun _ => .cscf)
  | 0x03 => some (maskN, fun _ => .csci)
  | 0x08 => some (maskR2, fun w => .fdct (regField w 23) (regField w 20))
  | 0x09 => some (maskR2, fun w => .idct (regField w 23) (regField w 20))
  | 0x0C => some (maskR2, fun w => .down (regField w 23) (regField w 20))
  | 0x0D => some (maskR2, fun w => .up (regField w 23) (regField w 20))
  | 0x0E => some (maskR3, fun w => .vsub (regField w 23) (regField w 20) (regField w 17))
  | 0x0F => some (maskR3, fun w => .wadd (regField w 23) (regField w 20) (regField w 17))
  | 0x10 => some (maskM, fun w => .bld8 (regField w 23) (planeField w) (blockField w))
  | 0x11 => some (maskM, fun w => .bst8 (regField w 23) (planeField w) (blockField w))
  | 0x12 => some (maskM, fun w => .bld16 (regField w 23) (planeField w) (blockField w))
  | 0x13 => some (maskM, fun w => .bst16 (regField w 23) (planeField w) (blockField w))
  | 0x18 => some (maskN, fun _ => .lsbe)
  | 0x19 => some (maskN, fun _ => .lsbx)
  | _ => none

/-- `decode(w)` of 30_encoding.md R100: the opcode first, then the reserved bits, then the fields. -/
def decode (w : Word) : Decoded :=
  match opRow? (field w 31 26) with
  | none => .illegalOpcode
  | some (mask, make) => if w &&& mask ≠ 0#32 then .reservedBits else .instr (make w)

/-- A command word from its little-endian bytes, and the bytes after it (20_memory.md R62,
30_encoding.md R90: there is one length); fewer than four bytes make no word. -/
def decodeBytes (bs : List Byte) : Option (Decoded × List Byte) :=
  match bs with
  | b0 :: b1 :: b2 :: b3 :: rest => some (decode (b3 ++ b2 ++ b1 ++ b0), rest)
  | _ => none

/-! ## Encoding -/

/-- Format N (30_encoding.md R91). -/
def encN (op : Nat) : Word := BitVec.ofNat 32 (op * 2 ^ 26)

/-- Format R with two operands (30_encoding.md R92). -/
def encR2 (op : Nat) (d a : Fin 8) : Word :=
  BitVec.ofNat 32 (op * 2 ^ 26 + d.val * 2 ^ 23 + a.val * 2 ^ 20)

/-- Format R with three operands (30_encoding.md R92). -/
def encR3 (op : Nat) (d a b : Fin 8) : Word :=
  BitVec.ofNat 32 (op * 2 ^ 26 + d.val * 2 ^ 23 + a.val * 2 ^ 20 + b.val * 2 ^ 17)

/-- Format M (30_encoding.md R93). -/
def encM (op : Nat) (r : Fin 8) (pl : Fin 4) (k : Nat) : Word :=
  BitVec.ofNat 32 (op * 2 ^ 26 + r.val * 2 ^ 23 + pl.val * 2 ^ 21 + k % 2 ^ 18)

/-- The command word of a command (30_encoding.md R91 to R94). -/
def encode (i : Instr) : Word :=
  match i with
  | .nop => encN 0x01
  | .cscf => encN 0x02
  | .csci => encN 0x03
  | .fdct d a => encR2 0x08 d a
  | .idct d a => encR2 0x09 d a
  | .down d a => encR2 0x0C d a
  | .up d a => encR2 0x0D d a
  | .vsub d a b => encR3 0x0E d a b
  | .wadd d a b => encR3 0x0F d a b
  | .bld8 r pl k => encM 0x10 r pl k
  | .bst8 r pl k => encM 0x11 r pl k
  | .bld16 r pl k => encM 0x12 r pl k
  | .bst16 r pl k => encM 0x13 r pl k
  | .lsbe => encN 0x18
  | .lsbx => encN 0x19

/-! ## The table's own numbering -/

/-- The command the decoder reads from a row's word: `nbits` bits of `w` at the bottom of one 32-bit
command word, the bits above them zero; a longer instruction does not exist (30_encoding.md R90). -/
def decodeTableWord (nbits w : Nat) : Option Instr :=
  if nbits ≤ 32 then
    match decode (BitVec.ofNat 32 (w % 2 ^ nbits)) with
    | .instr i => some i
    | .illegalOpcode => none
    | .reservedBits => none
  else none

/-- The `mask` and `match` of the row of spec/opcode_table.json that a command belongs to. -/
def tableRow (i : Instr) : Word × Word :=
  match i with
  | .nop => (0xFFFFFFFF#32, 0x04000000#32)
  | .cscf => (0xFFFFFFFF#32, 0x08000000#32)
  | .csci => (0xFFFFFFFF#32, 0x0C000000#32)
  | .fdct _ _ => (0xFC0FFFFF#32, 0x20000000#32)
  | .idct _ _ => (0xFC0FFFFF#32, 0x24000000#32)
  | .down _ _ => (0xFC0FFFFF#32, 0x30000000#32)
  | .up _ _ => (0xFC0FFFFF#32, 0x34000000#32)
  | .vsub _ _ _ => (0xFC01FFFF#32, 0x38000000#32)
  | .wadd _ _ _ => (0xFC01FFFF#32, 0x3C000000#32)
  | .bld8 _ _ _ => (0xFC1C0000#32, 0x40000000#32)
  | .bst8 _ _ _ => (0xFC1C0000#32, 0x44000000#32)
  | .bld16 _ _ _ => (0xFC1C0000#32, 0x48000000#32)
  | .bst16 _ _ _ => (0xFC1C0000#32, 0x4C000000#32)
  | .lsbe => (0xFFFFFFFF#32, 0x60000000#32)
  | .lsbx => (0xFFFFFFFF#32, 0x64000000#32)

/-! ## The assembler's spelling (30_encoding.md R101) -/

/-- A `V` or `W` operand. -/
def asmReg (file : String) (r : Fin 8) : String := file ++ toString r.val

/-- A plane operand. -/
def asmPlane (pl : Fin 4) : String :=
  match pl with
  | 0 => "Y"
  | 1 => "CB"
  | 2 => "CR"
  | 3 => "P3"

/-- A block transfer's line. -/
def asmM (mnemonic file : String) (r : Fin 8) (pl : Fin 4) (k : Nat) : String :=
  mnemonic ++ " " ++ asmReg file r ++ ", " ++ asmPlane pl ++ ", " ++ toString k

/-- The assembler line of a command (meant for `spellable` ones). -/
def asm (i : Instr) : String :=
  match i with
  | .nop => "NOP"
  | .cscf => "CSCF"
  | .csci => "CSCI"
  | .fdct d a => "FDCT " ++ asmReg "V" d ++ ", " ++ asmReg "V" a
  | .idct d a => "IDCT " ++ asmReg "V" d ++ ", " ++ asmReg "V" a
  | .down d a => "DOWN " ++ asmReg "V" d ++ ", " ++ asmReg "W" a
  | .up d a => "UP " ++ asmReg "W" d ++ ", " ++ asmReg "V" a
  | .vsub d a b => "VSUB " ++ asmReg "V" d ++ ", " ++ asmReg "V" a ++ ", " ++ asmReg "V" b
  | .wadd d a b => "WADD " ++ asmReg "W" d ++ ", " ++ asmReg "W" a ++ ", " ++ asmReg "W" b
  | .bld8 r pl k => asmM "BLD8" "V" r pl k
  | .bst8 r pl k => asmM "BST8" "V" r pl k
  | .bld16 r pl k => asmM "BLD16" "W" r pl k
  | .bst16 r pl k => asmM "BST16" "W" r pl k
  | .lsbe => "LSBE"
  | .lsbx => "LSBX"

end Sys2Proof
end

