-- ==== Sys2Proof/Machine/State.lean ====
section
/-! DEFINITION. The state of the CSTB (10_state.md R20), the events of its host and platform, the ways a
step can stop, and the state after power-on reset (70_reset_and_hazards.md R270). -/

namespace Sys2Proof.Machine

/-- Memory: (window offset, byte) pairs of the plane, `PIX` and `BIT` apertures (20_memory.md R61).
An offset that is not listed has never been written since power-on. -/
abbrev Memory := List Host.Cell

/-- The command-error causes (60_exceptions.md R231). Codes 8 to 15 are never raised, so they have no
constructor (93_implementation_defined.md V4). -/
inductive Cause where
  | illegalOpcode
  | reservedBits
  | badRegister
  | badPlane
  | badGeometry
  | blockRange
  | refWrite
deriving DecidableEq, Repr

/-- The width of a host access in bytes (20_memory.md R63 to R67). -/
inductive Width where
  | b1
  | b2
  | b4
  | b8
deriving DecidableEq, Repr

/-- What can happen to the CSTB next. The list of these in the state is the order of 20_memory.md R73. -/
inductive Event where
  /-- The host reads `width` bytes at a window offset. -/
  | read (off : Offset) (width : Width)
  /-- The host writes the low `width` bytes of `data` at a window offset. -/
  | write (off : Offset) (width : Width) (data : BitVec 64)
  /-- The engine has its turn: the completion step of 45_control.md R222, if it is enabled. -/
  | engine
  /-- A power-on reset (70_reset_and_hazards.md R270, R271). -/
  | powerOn
deriving DecidableEq, Repr

/-- Why the machine stops. No state that a run reaches from a reset raises it. -/
inductive Fault where
  /-- `STATUS.BUSY = 1` while `PEND` holds a word that validation refuses. Raised by a meaning's
  completion (`command`) and by the engine's turn; 45_control.md R222 says validation already checked
  everything that could fail, so the spec gives such a state no step. DESIGN CHOICE (log entry 13),
  safe. -/
  | pendNotValidated
deriving DecidableEq, Repr

/-- Why a step has no meaning. -/
inductive Refusal where
  /-- An instruction that has no meaning yet. Raised by no arm of `exec`: every command has its meaning.
  Safe. -/
  | notModelled (mnemonic : String)
deriving DecidableEq, Repr

/-- The whole CSTB state (10_state.md R20), then the model's own five fields. -/
structure State where
  /-- Block registers `V0` to `V7` (R21). -/
  v : Vector Block8 8
  /-- Block registers `W0`, `W1` (R22). -/
  w : Vector Block16 2
  /-- The planes, `PIX` and `BIT` (R23 to R25), at their window offsets. -/
  mem : Memory
  /-- `CTRL.IE_DONE` (R30). -/
  ieDone : Bool
  /-- `CTRL.IE_ERR` (R30). -/
  ieErr : Bool
  /-- `CTRL.REFPROT` (R30). -/
  refprot : Bool
  /-- `STATUS.BUSY` (R31). -/
  busy : Bool
  /-- `STATUS.DONE` (R31). -/
  done : Bool
  /-- `STATUS.ERR` (R31). -/
  err : Bool
  /-- `STATUS.OVR` (R31). -/
  ovr : Bool
  /-- `STATUS.ACCERR` (R31). -/
  accerr : Bool
  /-- `CMD_LAST`, the word `CMD` reads (R32). -/
  cmdLast : Word
  /-- `IMG_W`, 16 bits (R33). -/
  imgW : BitVec 16
  /-- `IMG_H`, 16 bits (R34). -/
  imgH : BitVec 16
  /-- `ERR_CAUSE` (R38). -/
  errCause : Option Cause
  /-- `ERR_INFO` (R39). -/
  errInfo : Word
  /-- `FLAGS.NV` (R40). -/
  nv : Bool
  /-- `FLAGS.SAT` (R40). -/
  sat : Bool
  /-- `ACC_ADDR`, a window offset (R41). -/
  accAddr : Offset
  /-- `PEND`, the accepted command in flight, meaningful only while `BUSY = 1` (R44). -/
  pend : Word
  /-- The model's own: the instance's parameters (00_scope.md R7), changed by no step (log entry 8). -/
  cfg : Config.Params
  /-- The model's own: what happens next, oldest first (log entry 1). -/
  inbox : List Event
  /-- The model's own: the values the host's reads returned, newest first (log entry 3). -/
  replies : List (BitVec 64)
  /-- The model's own: how many power-on resets came after the first (log entry 4). -/
  epoch : Nat
  /-- The model's own: how many draws of free values were made (log entry 5). -/
  fresh : Nat
deriving DecidableEq, Repr

/-- The window offset of `V[i][e]` (20_memory.md R61). -/
def vOff (i e : Nat) : Nat := 0x1000 + 0x200 * i + 8 * e

/-- The window offset of `W[j][e]` (20_memory.md R61). -/
def wOff (j e : Nat) : Nat := 0x2000 + 0x800 * j + 8 * e

/-- The `V` registers after a power-on reset: unspecified (10_state.md R47, U1; log entry 4, safe). -/
def powerOnV (epoch : Nat) : Vector Block8 8 :=
  Vector.ofFn fun i => Vector.ofFn fun e => Config.powerOnSample epoch (vOff i.val e.val)

/-- The `W` registers after a power-on reset: unspecified (10_state.md R47, U1; log entry 4, safe). -/
def powerOnW (epoch : Nat) : Vector Block16 2 :=
  Vector.ofFn fun j => Vector.ofFn fun e => Config.powerOnSample epoch (wOff j.val e.val)

/-- The state right after power-on reset (70_reset_and_hazards.md R270), for the default instance of
00_scope.md R7, with nothing left to happen. -/
def State.reset : State where
  v := powerOnV 0
  w := powerOnW 0
  mem := []
  ieDone := false
  ieErr := false
  refprot := true
  busy := false
  done := false
  err := false
  ovr := false
  accerr := false
  cmdLast := 0#32
  imgW := 0#16
  imgH := 0#16
  errCause := none
  errInfo := 0#32
  nv := false
  sat := false
  accAddr := 0#30
  pend := 0#32
  cfg := Config.defaults
  inbox := []
  replies := []
  epoch := 0
  fresh := 0

end Sys2Proof.Machine
end

