-- ==== Sys2Proof/Machine/Float.lean ====
section
/-! DEFINITION. IEEE 754 binary64 addition, subtraction and multiplication, round to nearest, ties to
even (00_scope.md R8, R9; 60_exceptions.md R255). PRESUMED: the spec names the standard and marks its
contents as general knowledge (93_implementation_defined.md G2; log entry 10, unsafe if misread).

A finite value is a sign and a magnitude counted in units of 2^-1074, the smallest subnormal, so every
finite binary64 value is a whole number of units and sums are exact before rounding. -/

namespace Sys2Proof.Machine

/-- `1.0` in units of 2^-1074. -/
@[irreducible] def oneUnits : Nat := 2 ^ 1074

/-- 2^1024 in units of 2^-1074, the first magnitude that is no finite value. -/
@[irreducible] def overflowUnits : Nat := 2 ^ 2098

/-- A binary64 value. Which NaN it is does not matter to any operation (R9). -/
inductive F64 where
  | nan
  | inf (neg : Bool)
  /-- The value `mag * 2^-1074`, negated when `neg`; `mag = 0` is a signed zero. -/
  | fin (neg : Bool) (mag : Nat)
deriving DecidableEq, Repr

/-- The exponent field, bits 62:52. -/
def expField (x : Sample) : Nat := x.toNat / 2 ^ 52 % 2048

/-- The fraction field, bits 51:0. -/
def fracField (x : Sample) : Nat := x.toNat % 2 ^ 52

/-- The sign, bit 63. -/
def signField (x : Sample) : Bool := decide (2 ^ 63 ≤ x.toNat)

/-- A NaN pattern: exponent all ones, fraction not zero (93_implementation_defined.md U3). -/
def isNaN (x : Sample) : Bool := decide (expField x = 2047) && decide (fracField x ≠ 0)

/-- The value of a bit pattern. -/
def F64.ofBits (x : Sample) : F64 :=
  if expField x = 2047 then
    if fracField x = 0 then .inf (signField x) else .nan
  else if expField x = 0 then .fin (signField x) (fracField x)
  else .fin (signField x) ((2 ^ 52 + fracField x) * 2 ^ (expField x - 1))

/-- The fields of a bit pattern put together. -/
def packBits (neg : Bool) (ex frac : Nat) : Sample :=
  BitVec.ofNat 64 ((if neg then 2 ^ 63 else 0) + ex * 2 ^ 52 + frac)

/-- The NaN pattern made from free bits: their sign, and their fraction unless it is zero. Every NaN
pattern is made from itself. -/
def nanOf (free : Sample) : Sample :=
  packBits (signField free) 2047 (if fracField free = 0 then 1 else fracField free)

/-- The bit pattern of a value; a NaN takes its payload and sign from the free bits (U3). -/
def F64.toBits (free : Sample) (x : F64) : Sample :=
  match x with
  | .nan => nanOf free
  | .inf neg => packBits neg 2047 0
  | .fin neg mag =>
    if mag < 2 ^ 52 then packBits neg 0 mag
    else
      let shift := Nat.log2 mag - 52
      packBits neg (shift + 1) (mag / 2 ^ shift - 2 ^ 52)

/-- `a / 2^t` rounded to the nearest whole number, ties to even. -/
def roundDiv (a t : Nat) : Nat :=
  let q := a / 2 ^ t
  let r := a % 2 ^ t
  if 2 ^ t < 2 * r ∨ (2 ^ t = 2 * r ∧ q % 2 = 1) then q + 1 else q

/-- `a / 2^j` units rounded to 53 significant bits (or to a whole unit, for a subnormal result), to
nearest, ties to even. -/
def roundUnits (a j : Nat) : Nat :=
  let t := max (Nat.log2 a + 1 - 53) j
  roundDiv a t * 2 ^ (t - j)

/-- The rounded value of `a / 2^j` units, infinite when it is 2^1024 or more (R255: overflow gives an
infinity). -/
def F64.rounded (neg : Bool) (a j : Nat) : F64 :=
  let m := roundUnits a j
  if m < overflowUnits then .fin neg m else .inf neg

/-- The signed number of units. -/
def signedUnits (neg : Bool) (mag : Nat) : Int := if neg then -(mag : Int) else (mag : Int)

/-- The negation of a value. -/
def F64.neg (x : F64) : F64 :=
  match x with
  | .nan => .nan
  | .inf s => .inf (!s)
  | .fin s m => .fin (!s) m

/-- Addition: an exact sum of opposite values is `+0.0`, a sum of two zeros of one sign keeps it. -/
def F64.add (x y : F64) : F64 :=
  match x, y with
  | .nan, _ => .nan
  | _, .nan => .nan
  | .inf s, .inf t => if s = t then .inf s else .nan
  | .inf s, .fin _ _ => .inf s
  | .fin _ _, .inf t => .inf t
  | .fin s m, .fin t n =>
    let z := signedUnits s m + signedUnits t n
    if z = 0 then .fin (s && t) 0 else F64.rounded (decide (z < 0)) z.natAbs 0

/-- Subtraction. -/
def F64.sub (x y : F64) : F64 := x.add y.neg

/-- Multiplication. -/
def F64.mul (x y : F64) : F64 :=
  match x, y with
  | .nan, _ => .nan
  | _, .nan => .nan
  | .inf s, .inf t => .inf (xor s t)
  | .inf s, .fin t n => if n = 0 then .nan else .inf (xor s t)
  | .fin s m, .inf t => if m = 0 then .nan else .inf (xor s t)
  | .fin s m, .fin t n => F64.rounded (xor s t) (m * n) 1074

/-- A natural number as a value (exact below 2^53; 00_scope.md R9). -/
def F64.ofNat (n : Nat) : F64 := .fin false (n * oneUnits)

/-- `0.25`. -/
def F64.quarter : F64 := .fin false (oneUnits / 4)

/-- `1.0`. -/
def F64.one : F64 := F64.ofNat 1

/-- `128.0`. -/
def F64.c128 : F64 := F64.ofNat 128

/-- `+0.0`. -/
def F64.zero : F64 := .fin false 0

end Sys2Proof.Machine
end

