-- ==== Sys2Proof/Machine/Ops.lean ====
section
/-! DEFINITION. The named operations over memory and registers, the command-error entry and the return
from it (10_state.md, 20_memory.md, 60_exceptions.md R240, R242), and what a command's completion
writes (45_control.md R222). -/

namespace Sys2Proof.Machine

/-! ## Memory -/

/-- The byte listed at an offset, if one has been written. -/
def Memory.get? (m : Memory) (a : Nat) : Option Byte :=
  match m with
  | [] => none
  | (k, b) :: rest => if a = k then some b else Memory.get? rest a

/-- Write one byte, keeping the list sorted. -/
def Memory.write (m : Memory) (a : Nat) (b : Byte) : Memory :=
  match m with
  | [] => [(a, b)]
  | (k, c) :: rest =>
    if a < k then (a, b) :: (k, c) :: rest
    else if a = k then (a, b) :: rest
    else (k, c) :: Memory.write rest a b

/-- Write bytes one after another. -/
def Memory.writeCells (m : Memory) (cells : List Host.Cell) : Memory :=
  cells.foldl (fun m c => m.write c.1 c.2) m

/-- The canonical form: offsets strictly rising. An unlisted offset holds no value of its own, so no
listed entry repeats what an unlisted one reads as. -/
abbrev Memory.wf (m : Memory) : Prop := m.Pairwise fun x y => x.1 < y.1

/-! ## Little-endian values (20_memory.md R62) -/

/-- The `n` low bytes of a number, lowest first. -/
def bytesLE (n x : Nat) : List Byte :=
  match n with
  | 0 => []
  | n + 1 => BitVec.ofNat 8 x :: bytesLE n (x / 256)

/-- Bytes at consecutive offsets. -/
def cellsAt (a : Nat) (bs : List Byte) : List Host.Cell :=
  match bs with
  | [] => []
  | b :: rest => (a, b) :: cellsAt (a + 1) rest

/-- The cells of an `n`-byte value. -/
def leCells (a n x : Nat) : List Host.Cell := cellsAt a (bytesLE n x)

/-! ## Where an element lies in the window (20_memory.md R61) -/

/-- `PLANE[p][n]`. -/
def planeOff (p n : Nat) : Nat := 0x10000000 + 0x08000000 * p + 8 * n

/-- `PIX[a]`. -/
def pixOff (a : Nat) : Nat := 0x04000000 + a

/-- Byte `y` of the bit memory. -/
def bitOff (y : Nat) : Nat := 0x01000000 + y

/-! ## Reading and writing elements (00_scope.md R14) -/

/-- One byte of the planes, `PIX` or `BIT`; unwritten since power-on, it is a free value that stays
the same until it is written (10_state.md R47, U1; log entry 4, safe). -/
def State.readByte (s : State) (a : Nat) : Byte := (s.mem.get? a).getD (Config.powerOnByte s.epoch a)

/-- The `n` bytes at an offset as a number, lowest byte first. -/
def State.readLE (s : State) (a n : Nat) : Nat :=
  match n with
  | 0 => 0
  | n + 1 => (s.readByte a).toNat + 256 * s.readLE (a + 1) n

/-- `PLANE[p][n]`. -/
def State.readPlane (s : State) (p n : Nat) : Sample := BitVec.ofNat 64 (s.readLE (planeOff p n) 8)

/-- `PIX[a]`. -/
def State.readPix (s : State) (a : Nat) : Byte := s.readByte (pixOff a)

/-- `BIT[k]`, bit `k mod 8` of byte `k div 8` (10_state.md R25). -/
def State.readBit (s : State) (k : Nat) : Bool := (s.readByte (bitOff (k / 8))).getLsbD (k % 8)

/-- `V[i][e]`. -/
def State.readV (s : State) (i : Fin 8) (e : Fin 64) : Sample := (s.v[i.val])[e.val]

/-- `W[j][e]`. -/
def State.readW (s : State) (j : Fin 2) (e : Fin 256) : Sample := (s.w[j.val])[e.val]

/-- `V[i][e] <- x`. -/
def State.writeV (s : State) (i : Fin 8) (e : Fin 64) (x : Sample) : State :=
  { s with v := s.v.set i.val ((s.v[i.val]).set e.val x) }

/-- `W[j][e] <- x`. -/
def State.writeW (s : State) (j : Fin 2) (e : Fin 256) (x : Sample) : State :=
  { s with w := s.w.set j.val ((s.w[j.val]).set e.val x) }

/-- Write bytes of the planes, `PIX` or `BIT`. -/
def State.writeCells (s : State) (cells : List Host.Cell) : State :=
  { s with mem := s.mem.writeCells cells }

/-- A byte with one bit replaced. -/
def setBit (b : Byte) (j : Nat) (x : Bool) : Byte :=
  if x then b ||| BitVec.twoPow 8 j else b &&& ~~~(BitVec.twoPow 8 j)

/-- Write `BIT[k]`, keeping the other seven bits of its byte. -/
def State.writeBit (s : State) (k : Nat) (x : Bool) : State :=
  { s with mem := s.mem.write (bitOff (k / 8)) (setBit (s.readByte (bitOff (k / 8))) (k % 8) x) }

/-- Write bits one after another. -/
def State.writeBits (s : State) (bits : List (Nat × Bool)) : State :=
  bits.foldl (fun s x => s.writeBit x.1 x.2) s

/-- A block element by number; numbers past the block are never used. -/
def blockAt {n : Nat} (b : Vector Sample n) (e : Nat) : Sample := b[e]?.getD 0#64

/-! ## Command errors -/

/-- `raise CmdError(cause)`: the error entry of 60_exceptions.md R240. It writes `ERR`, `ERR_CAUSE` and
`ERR_INFO` and nothing else. -/
def cmdError (c : Cause) (w : Word) (s : State) : State :=
  { s with err := true, errCause := some c, errInfo := w }

/-- The return of 60_exceptions.md R242: writing 1 to `STATUS.ERR` (10_state.md R31). -/
def returnFromError (s : State) : State := { s with err := false, errCause := none, errInfo := 0#32 }

/-- The recording of a rejected host access (20_memory.md R68). -/
def accessError (off : Offset) (s : State) : State :=
  { s with accAddr := if s.accerr then s.accAddr else off, accerr := true }

/-- The dropping of a `CMD` write (60_exceptions.md R243). -/
def dropCommand (s : State) : State := { s with ovr := true }

/-! ## A command's effect -/

/-- What one command writes, computed from the state before it (00_scope.md R15: every source element is
read before any destination element is written). -/
structure Effect where
  /-- A `V` register replaced whole. -/
  v : Option (Fin 8 × Block8) := none
  /-- A `W` register replaced whole. -/
  w : Option (Fin 2 × Block16) := none
  /-- Bytes of the planes or of `PIX`. -/
  cells : List Host.Cell := []
  /-- Bits of `BIT`. -/
  bits : List (Nat × Bool) := []
  /-- `FLAGS.NV` is set (10_state.md R40). -/
  nv : Bool := false
  /-- `FLAGS.SAT` is set (10_state.md R40). -/
  sat : Bool := false
deriving DecidableEq, Repr

/-- Write a command's destinations; the flags are sticky (10_state.md R40). -/
def Effect.apply (f : Effect) (s : State) : State :=
  { s with
    v := match f.v with
      | some (i, b) => s.v.set i.val b
      | none => s.v
    w := match f.w with
      | some (j, b) => s.w.set j.val b
      | none => s.w
    mem := ((s.writeCells f.cells).writeBits f.bits).mem
    nv := s.nv || f.nv
    sat := s.sat || f.sat }

/-- The completion step of 45_control.md R222 with the command's effect; it also uses up one draw of
free values (log entry 5). -/
def complete (f : Effect) (s : State) : State :=
  { f.apply s with busy := false, done := true, fresh := s.fresh + 1 }

/-- The same destinations with unspecified values (70_reset_and_hazards.md R272, U2; log entry 6,
safe). -/
def Effect.cancelled (f : Effect) (draw : Nat) : Effect where
  v := f.v.map fun x =>
    (x.1, Vector.ofFn fun e => Config.cancelledSample draw (vOff x.1.val e.val))
  w := f.w.map fun x =>
    (x.1, Vector.ofFn fun e => Config.cancelledSample draw (wOff x.1.val e.val))
  cells := f.cells.map fun c => (c.1, Config.cancelledByte draw c.1)
  bits := f.bits.map fun x => (x.1, Config.cancelledBit draw x.1)

/-- The pattern an operation's result is stored as in the element at a window offset: a NaN's bits are
free (U3, log entry 5, safe). -/
def storedBits (s : State) (off : Nat) (x : F64) : Sample := x.toBits (Config.nanPattern s.fresh off)

end Sys2Proof.Machine
end

