-- ==== Sys2Proof/Machine/Operands.lean ====
section
/-! DEFINITION. The geometry and its grids, the index function of a block, every operand form of a
command word, and validation (10_state.md R35 to R37; 43_block_indexer.md R180 to R182;
60_exceptions.md R232 to R238). -/

namespace Sys2Proof.Machine

/-! ## Geometry -/

/-- `GEOM_OK` (10_state.md R35). -/
def State.geomOk (s : State) : Bool :=
  decide (1 ≤ s.imgW.toNat) && decide (s.imgW.toNat ≤ s.cfg.maxW) &&
  decide (1 ≤ s.imgH.toNat) && decide (s.imgH.toNat ≤ s.cfg.maxH)

/-- `N = IMG_W * IMG_H` (10_state.md R35). -/
def State.pixels (s : State) : Nat := s.imgW.toNat * s.imgH.toNat

/-- `COLS8` or `COLS16`, for block size 8 or 16 (43_block_indexer.md R180). -/
def State.cols (s : State) (size : Nat) : Nat := s.imgW.toNat / size

/-- `ROWS8` or `ROWS16` (43_block_indexer.md R180). -/
def State.rows (s : State) (size : Nat) : Nat := s.imgH.toNat / size

/-- `BLKCNT8` or `BLKCNT16`, 0 while the geometry is not legal (10_state.md R37). -/
def State.blockCount (s : State) (size : Nat) : Nat :=
  if s.geomOk then s.cols size * s.rows size else 0

/-- `blk_index(B, k, r, c)` (43_block_indexer.md R181, R182). -/
def State.blkIndex (s : State) (size k r c : Nat) : Nat :=
  (k / s.cols size * size + r) * s.imgW.toNat + (k % s.cols size * size + c)

/-! ## Operand forms -/

/-- The `W` register a field names; only the values 0 and 1 pass validation (30_encoding.md R95). -/
def wReg (f : Fin 8) : Fin 2 := if f = 1 then 1 else 0

/-- The fields of a command that name a `W` register (30_encoding.md R95). -/
def wFields (i : Instr) : List (Fin 8) :=
  match i with
  | .nop => []
  | .cscf => []
  | .csci => []
  | .fdct _ _ => []
  | .idct _ _ => []
  | .down _ a => [a]
  | .up d _ => [d]
  | .vsub _ _ _ => []
  | .wadd d a b => [d, a, b]
  | .bld8 _ _ _ => []
  | .bst8 _ _ _ => []
  | .bld16 r _ _ => [r]
  | .bst16 r _ _ => [r]
  | .lsbe => []
  | .lsbx => []

/-- A block transfer's block size, plane field and block index (30_encoding.md R93). -/
def blockOperand? (i : Instr) : Option (Nat × Fin 4 × Nat) :=
  match i with
  | .nop => none
  | .cscf => none
  | .csci => none
  | .fdct _ _ => none
  | .idct _ _ => none
  | .down _ _ => none
  | .up _ _ => none
  | .vsub _ _ _ => none
  | .wadd _ _ _ => none
  | .bld8 _ pl k => some (8, pl, k)
  | .bst8 _ pl k => some (8, pl, k)
  | .bld16 _ pl k => some (16, pl, k)
  | .bst16 _ pl k => some (16, pl, k)
  | .lsbe => none
  | .lsbx => none

/-- Whether a command uses the image geometry (60_exceptions.md R236). -/
def usesGeometry (i : Instr) : Bool :=
  match i with
  | .nop => false
  | .cscf => true
  | .csci => true
  | .fdct _ _ => false
  | .idct _ _ => false
  | .down _ _ => false
  | .up _ _ => false
  | .vsub _ _ _ => false
  | .wadd _ _ _ => false
  | .bld8 _ _ _ => true
  | .bst8 _ _ _ => true
  | .bld16 _ _ _ => true
  | .bst16 _ _ _ => true
  | .lsbe => true
  | .lsbx => true

/-- Whether a command stores block 0 of a grid (43_block_indexer.md R186). -/
def storesReference (i : Instr) : Bool :=
  match i with
  | .nop => false
  | .cscf => false
  | .csci => false
  | .fdct _ _ => false
  | .idct _ _ => false
  | .down _ _ => false
  | .up _ _ => false
  | .vsub _ _ _ => false
  | .wadd _ _ _ => false
  | .bld8 _ _ _ => false
  | .bst8 _ _ k => decide (k = 0)
  | .bld16 _ _ _ => false
  | .bst16 _ _ k => decide (k = 0)
  | .lsbe => false
  | .lsbx => false

/-! ## Validation -/

/-- The checks 3 to 6 of 60_exceptions.md R238, in their order: registers, plane, geometry, block
range. -/
def operandCause (i : Instr) (s : State) : Option Cause :=
  if (wFields i).any (fun f => decide (1 < f.val)) then some .badRegister
  else if (blockOperand? i).any (fun b => decide (b.2.1 = 3)) then some .badPlane
  else if usesGeometry i && !s.geomOk then some .badGeometry
  else if (blockOperand? i).any (fun b => decide (s.blockCount b.1 ≤ b.2.2)) then some .blockRange
  else none

/-- Check 7: a store of a reference block while `CTRL.REFPROT = 1` (43_block_indexer.md R186). -/
def referenceCause (i : Instr) (s : State) : Option Cause :=
  if storesReference i && s.refprot then some .refWrite else none

/-- The checks 3 to 7 of 60_exceptions.md R238 on a decoded command: the lowest cause that holds. -/
def validate (i : Instr) (s : State) : Option Cause :=
  match operandCause i s with
  | some c => some c
  | none => referenceCause i s

/-- `validate(w)` of 60_exceptions.md R238: decoding first, then the checks on the command. -/
def validateWord (w : Word) (s : State) : Option Cause :=
  match decode w with
  | .illegalOpcode => some .illegalOpcode
  | .reservedBits => some .reservedBits
  | .instr i => validate i s

end Sys2Proof.Machine
end

