-- ==== Sys2Proof/Machine/Flags.lean ====
section
/-! DEFINITION. Every flag computation: rounding and saturating to a byte with the events NV and SAT
(00_scope.md R12; 40_colorspace.md R121), the cause codes, the `IRQ` level and the words of the status
registers (10_state.md R30, R31, R38, R40, R46). -/

namespace Sys2Proof.Machine

/-- `round_half_up` of a finite value: the whole number `n` with `n - 1/2 <= x < n + 1/2`, on the exact
value (00_scope.md R12). -/
def roundHalfUp (neg : Bool) (mag : Nat) : Int :=
  (2 * signedUnits neg mag + oneUnits) / (2 * oneUnits)

/-- `sat8`: the byte, then NV, then SAT (40_colorspace.md R121). -/
def sat8 (x : F64) : Byte × Bool × Bool :=
  match x with
  | .nan => (0#8, true, false)
  | .inf false => (255#8, false, true)
  | .inf true => (0#8, false, true)
  | .fin neg mag =>
    let n := roundHalfUp neg mag
    if n < 0 then (0#8, false, true)
    else if 255 < n then (255#8, false, true)
    else (BitVec.ofNat 8 n.toNat, false, false)

/-- The code of a cause (60_exceptions.md R231). -/
def Cause.code (c : Cause) : Nat :=
  match c with
  | .illegalOpcode => 1
  | .reservedBits => 2
  | .badRegister => 3
  | .badPlane => 4
  | .badGeometry => 5
  | .blockRange => 6
  | .refWrite => 7

/-- `ERR_CAUSE` as a word: 0 means no error (10_state.md R38). -/
def causeWord (c : Option Cause) : Word :=
  match c with
  | none => 0#32
  | some c => BitVec.ofNat 32 c.code

/-- The `IRQ` level (10_state.md R46). Its delay is zero, as 93_implementation_defined.md U6 allows
(DESIGN CHOICE, log entry 11, safe for the host's view). -/
def State.irq (s : State) : Bool := (s.ieDone && s.done) || (s.ieErr && (s.err || s.ovr || s.accerr))

/-- One bit of a register word. -/
def bitAt (b : Bool) (n : Nat) : Nat := if b then 2 ^ n else 0

/-- `CTRL` as read: `SRST` and the reserved bits are 0 (10_state.md R30). -/
def State.ctrlWord (s : State) : Word :=
  BitVec.ofNat 32 (bitAt s.ieDone 0 + bitAt s.ieErr 1 + bitAt s.refprot 2)

/-- `STATUS` as read (10_state.md R31). -/
def State.statusWord (s : State) : Word :=
  BitVec.ofNat 32 (bitAt s.busy 0 + bitAt s.done 1 + bitAt s.err 2 + bitAt s.ovr 3 +
    bitAt s.accerr 4 + bitAt s.irq 5)

/-- `FLAGS` as read (10_state.md R40). -/
def State.flagsWord (s : State) : Word := BitVec.ofNat 32 (bitAt s.nv 0 + bitAt s.sat 1)

/-- `GRID8` or `GRID16`: `{ROWS, COLS}`, 0 while the geometry is not legal (10_state.md R35, R36). -/
def State.gridWord (s : State) (size : Nat) : Word :=
  if s.geomOk then BitVec.ofNat 32 (s.rows size * 2 ^ 16 + s.cols size) else 0#32

/-- `LSBCAP` (10_state.md R42). -/
def State.lsbcapWord (s : State) : Word :=
  if s.geomOk then BitVec.ofNat 32 (3 * s.pixels) else 0#32

/-- `CAPS = {MAX_H, MAX_W}` (10_state.md R29). -/
def State.capsWord (s : State) : Word :=
  BitVec.ofNat 32 (s.cfg.maxH % 2 ^ 16 * 2 ^ 16 + s.cfg.maxW % 2 ^ 16)

end Sys2Proof.Machine
end

