-- ==== Sys2Proof/Machine/Protocol.lean ====
section
/-! DEFINITION. What the engine does with a command: acceptance when it is presented (45_control.md
R221) and completion while it is in flight (R222). Every meaning is `command` applied to the effect of
its family rule, so acceptance, errors and completion are written once. -/

namespace Sys2Proof.Machine

/-- Acceptance of a presented command (45_control.md R221): dropped while `ERR = 1`; otherwise recorded
in `CMD`, `DONE` cleared, and either refused by the error entry or put in flight. -/
def accept (i : Instr) (s : State) : State :=
  if s.err then dropCommand s
  else
    let taken := { s with cmdLast := encode i, done := false }
    match validate i s with
    | some c => cmdError c (encode i) taken
    | none => { taken with pend := encode i, busy := true }

/-- What the engine does with a command: while `BUSY = 0` it is presented and accepted or not (R221);
while `BUSY = 1` it is the command in flight and its completion step happens (R222). A command in
flight whose operands validation refuses is a state no run reaches, and a fault (log entry 13, safe).
`REFPROT` is not checked again: its check was made at acceptance (10_state.md R30). -/
def command (i : Instr) (effect : Effect) (s : State) : Host.Outcome State Fault Refusal :=
  if s.busy then
    match operandCause i s with
    | some _ => .fault .pendNotValidated
    | none => .next (complete effect s)
  else .next (accept i s)

end Sys2Proof.Machine
end

