-- ==== Sys2Proof/Machine/BlockIndexer.lean ====
section
/-! DEFINITION. BLD8, BST8, BLD16 and BST16 (43_block_indexer.md): copies of bit patterns between a
block register and a block of a plane. -/

namespace Sys2Proof.Machine

/-- The plane sample number of element `e` of block `k` of the grid of a block size
(43_block_indexer.md R182). -/
def State.blockSample (s : State) (size k e : Nat) : Nat := s.blkIndex size k (e / size) (e % size)

/-- The effect of `BLD8 Vr, pl, k` (43_block_indexer.md R183). -/
def effBld8 (r : Fin 8) (pl : Fin 4) (k : Nat) (s : State) : Effect where
  v := some (r, Vector.ofFn fun e => s.readPlane pl.val (s.blockSample 8 k e.val))

/-- The effect of `BST8 Vr, pl, k` (43_block_indexer.md R184). -/
def effBst8 (r : Fin 8) (pl : Fin 4) (k : Nat) (s : State) : Effect where
  cells := (List.range 64).flatMap fun e =>
    leCells (planeOff pl.val (s.blockSample 8 k e)) 8 (blockAt s.v[r.val] e).toNat

/-- The effect of `BLD16 Wr, pl, k` (43_block_indexer.md R185). -/
def effBld16 (r : Fin 8) (pl : Fin 4) (k : Nat) (s : State) : Effect where
  w := some (wReg r, Vector.ofFn fun e => s.readPlane pl.val (s.blockSample 16 k e.val))

/-- The effect of `BST16 Wr, pl, k` (43_block_indexer.md R187). -/
def effBst16 (r : Fin 8) (pl : Fin 4) (k : Nat) (s : State) : Effect where
  cells := (List.range 256).flatMap fun e =>
    leCells (planeOff pl.val (s.blockSample 16 k e)) 8 (blockAt s.w[(wReg r).val] e).toNat

/-- BLD8 (43_block_indexer.md R183). -/
def execBld8 (r : Fin 8) (pl : Fin 4) (k : Nat) (s : State) : Host.Outcome State Fault Refusal :=
  command (.bld8 r pl k) (effBld8 r pl k s) s

/-- BST8 (43_block_indexer.md R184). -/
def execBst8 (r : Fin 8) (pl : Fin 4) (k : Nat) (s : State) : Host.Outcome State Fault Refusal :=
  command (.bst8 r pl k) (effBst8 r pl k s) s

/-- BLD16 (43_block_indexer.md R185). -/
def execBld16 (r : Fin 8) (pl : Fin 4) (k : Nat) (s : State) : Host.Outcome State Fault Refusal :=
  command (.bld16 r pl k) (effBld16 r pl k s) s

/-- BST16 (43_block_indexer.md R187). -/
def execBst16 (r : Fin 8) (pl : Fin 4) (k : Nat) (s : State) : Host.Outcome State Fault Refusal :=
  command (.bst16 r pl k) (effBst16 r pl k s) s

end Sys2Proof.Machine
end

