-- ==== Sys2Proof/Machine/ColorSpace.lean ====
section
/-! DEFINITION. CSCF and CSCI (40_colorspace.md). -/

namespace Sys2Proof.Machine

/-- A byte as a sample value, exact (40_colorspace.md R122). -/
def byteValue (b : Byte) : F64 := F64.ofNat b.toNat

/-- `Y` of a pixel: `((KY0*r) + (KY1*g)) + (KY2*b)` (40_colorspace.md R122). -/
def lumaOf (c : Config.Params) (r g b : F64) : F64 :=
  (((F64.ofBits c.ky0).mul r).add ((F64.ofBits c.ky1).mul g)).add ((F64.ofBits c.ky2).mul b)

/-- `Cb` of a pixel: `((128.0 - (KCB0*r)) - (KCB1*g)) + (KCB2*b)` (40_colorspace.md R122). -/
def cbOf (c : Config.Params) (r g b : F64) : F64 :=
  ((F64.c128.sub ((F64.ofBits c.kcb0).mul r)).sub ((F64.ofBits c.kcb1).mul g)).add
    ((F64.ofBits c.kcb2).mul b)

/-- `Cr` of a pixel: `((128.0 + (KCR0*r)) - (KCR1*g)) - (KCR2*b)` (40_colorspace.md R122). -/
def crOf (c : Config.Params) (r g b : F64) : F64 :=
  ((F64.c128.add ((F64.ofBits c.kcr0).mul r)).sub ((F64.ofBits c.kcr1).mul g)).sub
    ((F64.ofBits c.kcr2).mul b)

/-- The sample CSCF writes to `PLANE[p][n]`, under either `ARITH` (40_colorspace.md R122). -/
def cscfSample (s : State) (p n : Nat) : Sample :=
  let r := s.readPix (4 * n)
  let g := s.readPix (4 * n + 1)
  let b := s.readPix (4 * n + 2)
  match s.cfg.arith with
  | .opaqueFn => Config.cscfOpaque p n r g b
  | .ref64 =>
    let value := match p with
      | 0 => lumaOf
      | 1 => cbOf
      | _ => crOf
    storedBits s (planeOff p n) (value s.cfg (byteValue r) (byteValue g) (byteValue b))

/-- The effect of CSCF: the three samples of every pixel `n < N` (40_colorspace.md R122). -/
def effCscf (s : State) : Effect where
  cells := (List.range s.pixels).flatMap fun n =>
    (List.range 3).flatMap fun p => leCells (planeOff p n) 8 (cscfSample s p n).toNat

/-- `rv`, `gv`, `bv` (channel 0, 1, 2) of a pixel from its `y`, `cb`, `cr` (40_colorspace.md R123). -/
def inverseOf (c : Config.Params) (channel : Nat) (y cb cr : F64) : F64 :=
  match channel with
  | 0 => y.add ((F64.ofBits c.ki0).mul (cr.sub F64.c128))
  | 1 => (y.sub ((F64.ofBits c.ki1).mul (cb.sub F64.c128))).sub
      ((F64.ofBits c.ki2).mul (cr.sub F64.c128))
  | _ => y.add ((F64.ofBits c.ki3).mul (cb.sub F64.c128))

/-- The unrounded channel value of pixel `n`, under either `ARITH` (40_colorspace.md R123). -/
def csciValue (s : State) (channel n : Nat) : F64 :=
  let y := s.readPlane 0 n
  let cb := s.readPlane 1 n
  let cr := s.readPlane 2 n
  match s.cfg.arith with
  | .opaqueFn => F64.ofBits (Config.csciOpaque channel n y cb cr)
  | .ref64 => inverseOf s.cfg channel (F64.ofBits y) (F64.ofBits cb) (F64.ofBits cr)

/-- The byte and the flag events of one channel of pixel `n` (40_colorspace.md R121, R123). -/
def csciByte (s : State) (channel n : Nat) : Byte × Bool × Bool := sat8 (csciValue s channel n)

/-- Whether some channel of some pixel raises the event (40_colorspace.md R123). -/
def csciEvent (s : State) (event : Byte × Bool × Bool → Bool) : Bool :=
  (List.range s.pixels).any fun n => (List.range 3).any fun ch => event (csciByte s ch n)

/-- The effect of CSCI: the R, G and B bytes of every pixel `n < N`, and the sticky flags
(40_colorspace.md R123). -/
def effCsci (s : State) : Effect where
  cells := (List.range s.pixels).flatMap fun n =>
    (List.range 3).map fun ch => (pixOff (4 * n + ch), (csciByte s ch n).1)
  nv := csciEvent s fun x => x.2.1
  sat := csciEvent s fun x => x.2.2

/-- CSCF (40_colorspace.md R122). -/
def execCscf (s : State) : Host.Outcome State Fault Refusal := command .cscf (effCscf s) s

/-- CSCI (40_colorspace.md R123). -/
def execCsci (s : State) : Host.Outcome State Fault Refusal := command .csci (effCsci s) s

end Sys2Proof.Machine
end

