-- ==== Sys2Proof/Machine/Control.lean ====
section
/-! DEFINITION. NOP (45_control.md R220). -/

namespace Sys2Proof.Machine

/-- The effect of NOP: none. -/
def effNop (_s : State) : Effect where

/-- NOP (45_control.md R220). -/
def execNop (s : State) : Host.Outcome State Fault Refusal := command .nop (effNop s) s

end Sys2Proof.Machine
end

