-- ==== Sys2Proof/Machine/Lsb.lean ====
section
/-! DEFINITION. LSBE and LSBX (44_lsb.md). -/

namespace Sys2Proof.Machine

/-- `lsb_write(v, bit)` (44_lsb.md R200). -/
def lsbWrite (v : Byte) (bit : Bool) : Byte :=
  if bit = true ∧ v.toNat % 2 = 0 then v + 1#8
  else if bit = false ∧ v.toNat % 2 = 1 then v - 1#8
  else v

/-- `lsb_read(v)` (44_lsb.md R201). -/
def lsbRead (v : Byte) : Bool := decide (v.toNat % 2 = 1)

/-- The effect of LSBE: the colour bytes take the bits, the alpha bytes become 255 (44_lsb.md R202). -/
def effLsbe (s : State) : Effect where
  cells := (List.range s.pixels).flatMap fun n =>
    ((List.range 3).map fun ch =>
      (pixOff (4 * n + ch), lsbWrite (s.readPix (4 * n + ch)) (s.readBit (3 * n + ch)))) ++
    [(pixOff (4 * n + 3), 255#8)]

/-- The effect of LSBX: `BIT[0 .. 3N-1]` take the parities (44_lsb.md R203). -/
def effLsbx (s : State) : Effect where
  bits := (List.range s.pixels).flatMap fun n =>
    (List.range 3).map fun ch => (3 * n + ch, lsbRead (s.readPix (4 * n + ch)))

/-- LSBE (44_lsb.md R202). -/
def execLsbe (s : State) : Host.Outcome State Fault Refusal := command .lsbe (effLsbe s) s

/-- LSBX (44_lsb.md R203). -/
def execLsbx (s : State) : Host.Outcome State Fault Refusal := command .lsbx (effLsbx s) s

end Sys2Proof.Machine
end

