-- ==== Sys2Proof/Machine/Dct.lean ====
section
/-! DEFINITION. FDCT and IDCT (41_dct.md). -/

namespace Sys2Proof.Machine

/-- `COS(x, u) = COSJ[((2x+1)*u) mod 32]` (41_dct.md R141). -/
def cosOf (c : Config.Params) (x u : Nat) : F64 := F64.ofBits (blockAt c.cosj ((2 * x + 1) * u % 32))

/-- `Cp`: `C0` for frequency 0, else 1.0 (41_dct.md R142, R143). -/
def freqWeight (c : Config.Params) (p : Nat) : F64 := if p = 0 then F64.ofBits c.c0 else F64.one

/-- An element of a block as a value. -/
def elemValue {n : Nat} (b : Vector Sample n) (e : Nat) : F64 := F64.ofBits (blockAt b e)

/-- One term of the forward sum: `(f[r*8+c] * COS(r,p)) * COS(c,q)` (41_dct.md R142). -/
def fdctTerm (cfg : Config.Params) (f : Block8) (p q r c : Nat) : F64 :=
  ((elemValue f (r * 8 + c)).mul (cosOf cfg r p)).mul (cosOf cfg c q)

/-- The forward accumulation, `r` outside and `c` inside, from `+0.0` (41_dct.md R142). -/
def fdctSum (cfg : Config.Params) (f : Block8) (p q : Nat) : F64 :=
  (List.range 64).foldl (fun acc n => acc.add (fdctTerm cfg f p q (n / 8) (n % 8))) F64.zero

/-- `((0.25 * Cp) * Cq) * acc` (41_dct.md R142). -/
def fdctValue (cfg : Config.Params) (f : Block8) (p q : Nat) : F64 :=
  ((F64.quarter.mul (freqWeight cfg p)).mul (freqWeight cfg q)).mul (fdctSum cfg f p q)

/-- One term of the inverse sum: `(((Cp * Cq) * F[p*8+q]) * COS(r,p)) * COS(c,q)` (41_dct.md R143). -/
def idctTerm (cfg : Config.Params) (f : Block8) (r c p q : Nat) : F64 :=
  ((((freqWeight cfg p).mul (freqWeight cfg q)).mul (elemValue f (p * 8 + q))).mul
    (cosOf cfg r p)).mul (cosOf cfg c q)

/-- The inverse accumulation, `p` outside and `q` inside, from `+0.0` (41_dct.md R143). -/
def idctSum (cfg : Config.Params) (f : Block8) (r c : Nat) : F64 :=
  (List.range 64).foldl (fun acc n => acc.add (idctTerm cfg f r c (n / 8) (n % 8))) F64.zero

/-- `0.25 * acc` (41_dct.md R143). -/
def idctValue (cfg : Config.Params) (f : Block8) (r c : Nat) : F64 :=
  F64.quarter.mul (idctSum cfg f r c)

/-- Element `e` of the forward transform, stored at window offset `off`, under either `ARITH`. -/
def fdctSample (s : State) (f : Block8) (off e : Nat) : Sample :=
  match s.cfg.arith with
  | .opaqueFn => Config.fdctOpaque e f
  | .ref64 => storedBits s off (fdctValue s.cfg f (e / 8) (e % 8))

/-- Element `e` of the inverse transform, stored at window offset `off`, under either `ARITH`. -/
def idctSample (s : State) (f : Block8) (off e : Nat) : Sample :=
  match s.cfg.arith with
  | .opaqueFn => Config.idctOpaque e f
  | .ref64 => storedBits s off (idctValue s.cfg f (e / 8) (e % 8))

/-- The effect of `FDCT Vd, Va` (41_dct.md R142). -/
def effFdct (d a : Fin 8) (s : State) : Effect where
  v := some (d, Vector.ofFn fun e => fdctSample s s.v[a.val] (vOff d.val e.val) e.val)

/-- The effect of `IDCT Vd, Va` (41_dct.md R143). -/
def effIdct (d a : Fin 8) (s : State) : Effect where
  v := some (d, Vector.ofFn fun e => idctSample s s.v[a.val] (vOff d.val e.val) e.val)

/-- FDCT (41_dct.md R142). -/
def execFdct (d a : Fin 8) (s : State) : Host.Outcome State Fault Refusal :=
  command (.fdct d a) (effFdct d a s) s

/-- IDCT (41_dct.md R143). -/
def execIdct (d a : Fin 8) (s : State) : Host.Outcome State Fault Refusal :=
  command (.idct d a) (effIdct d a s) s

end Sys2Proof.Machine
end

