-- ==== Sys2Proof/Machine/Resample.lean ====
section
/-! DEFINITION. DOWN, UP, VSUB and WADD (42_resample.md). -/

namespace Sys2Proof.Machine

/-- The 2x2 mean, `(((p + q) + r) + t) * 0.25` (42_resample.md R160). -/
def meanOf (p q r t : F64) : F64 := (((p.add q).add r).add t).mul F64.quarter

/-- The number of the block element at row `2r + i` and column `2c + j` of the 16x16 block, for output
element `e = r*8 + c` (42_resample.md R160). -/
def quadElem (e i j : Nat) : Nat := (2 * (e / 8) + i) * 16 + (2 * (e % 8) + j)

/-- Element `e` of a DOWN, stored at window offset `off`, under either `ARITH` (42_resample.md R160). -/
def downSample (s : State) (w : Block16) (off e : Nat) : Sample :=
  match s.cfg.arith with
  | .opaqueFn => Config.downOpaque e (blockAt w (quadElem e 0 0)) (blockAt w (quadElem e 0 1))
      (blockAt w (quadElem e 1 0)) (blockAt w (quadElem e 1 1))
  | .ref64 => storedBits s off (meanOf (elemValue w (quadElem e 0 0)) (elemValue w (quadElem e 0 1))
      (elemValue w (quadElem e 1 0)) (elemValue w (quadElem e 1 1)))

/-- Element `e` of a VSUB, stored at window offset `off`, under either `ARITH` (42_resample.md R162). -/
def vsubSample (s : State) (x y : Block8) (off e : Nat) : Sample :=
  match s.cfg.arith with
  | .opaqueFn => Config.vsubOpaque e (blockAt x e) (blockAt y e)
  | .ref64 => storedBits s off ((elemValue x e).sub (elemValue y e))

/-- Element `e` of a WADD, stored at window offset `off`, under either `ARITH` (42_resample.md R163). -/
def waddSample (s : State) (x y : Block16) (off e : Nat) : Sample :=
  match s.cfg.arith with
  | .opaqueFn => Config.waddOpaque e (blockAt x e) (blockAt y e)
  | .ref64 => storedBits s off ((elemValue x e).add (elemValue y e))

/-- The element of the 8x8 block that element `e` of the 16x16 block repeats (42_resample.md R161). -/
def upElem (e : Nat) : Nat := e / 16 / 2 * 8 + e % 16 / 2

/-- The effect of `DOWN Vd, Wa` (42_resample.md R160). -/
def effDown (d a : Fin 8) (s : State) : Effect where
  v := some (d, Vector.ofFn fun e => downSample s s.w[(wReg a).val] (vOff d.val e.val) e.val)

/-- The effect of `UP Wd, Va`: bit patterns copied unchanged (42_resample.md R161). -/
def effUp (d a : Fin 8) (s : State) : Effect where
  w := some (wReg d, Vector.ofFn fun e => blockAt s.v[a.val] (upElem e.val))

/-- The effect of `VSUB Vd, Va, Vb` (42_resample.md R162). -/
def effVsub (d a b : Fin 8) (s : State) : Effect where
  v := some (d, Vector.ofFn fun e => vsubSample s s.v[a.val] s.v[b.val] (vOff d.val e.val) e.val)

/-- The effect of `WADD Wd, Wa, Wb` (42_resample.md R163). -/
def effWadd (d a b : Fin 8) (s : State) : Effect where
  w := some (wReg d, Vector.ofFn fun e =>
    waddSample s s.w[(wReg a).val] s.w[(wReg b).val] (wOff (wReg d).val e.val) e.val)

/-- DOWN (42_resample.md R160). -/
def execDown (d a : Fin 8) (s : State) : Host.Outcome State Fault Refusal :=
  command (.down d a) (effDown d a s) s

/-- UP (42_resample.md R161). -/
def execUp (d a : Fin 8) (s : State) : Host.Outcome State Fault Refusal :=
  command (.up d a) (effUp d a s) s

/-- VSUB (42_resample.md R162). -/
def execVsub (d a b : Fin 8) (s : State) : Host.Outcome State Fault Refusal :=
  command (.vsub d a b) (effVsub d a b s) s

/-- WADD (42_resample.md R163). -/
def execWadd (d a b : Fin 8) (s : State) : Host.Outcome State Fault Refusal :=
  command (.wadd d a b) (effWadd d a b s) s

end Sys2Proof.Machine
end

