-- ==== Sys2Proof/Machine/Dispatch.lean ====
section
/-! DEFINITION. One arm per command: what the engine does with it (45_control.md R221, R222). -/

namespace Sys2Proof.Machine

def exec (i : Instr) (s : State) : Host.Outcome State Fault Refusal :=
  match i with
  | .nop => Sys2Proof.Machine.execNop s
  | .cscf => Sys2Proof.Machine.execCscf s
  | .csci => Sys2Proof.Machine.execCsci s
  | .fdct d a => Sys2Proof.Machine.execFdct d a s
  | .idct d a => Sys2Proof.Machine.execIdct d a s
  | .down d a => Sys2Proof.Machine.execDown d a s
  | .up d a => Sys2Proof.Machine.execUp d a s
  | .vsub d a b => Sys2Proof.Machine.execVsub d a b s
  | .wadd d a b => Sys2Proof.Machine.execWadd d a b s
  | .bld8 r pl k => Sys2Proof.Machine.execBld8 r pl k s
  | .bst8 r pl k => Sys2Proof.Machine.execBst8 r pl k s
  | .bld16 r pl k => Sys2Proof.Machine.execBld16 r pl k s
  | .bst16 r pl k => Sys2Proof.Machine.execBst16 r pl k s
  | .lsbe => Sys2Proof.Machine.execLsbe s
  | .lsbx => Sys2Proof.Machine.execLsbx s

end Sys2Proof.Machine
end

