-- ==== Sys2Proof/Machine/Reset.lean ====
section
/-! DEFINITION. The soft reset with the cancelling of a command in flight, and the power-on reset as an
event (70_reset_and_hazards.md R270 to R272). -/

namespace Sys2Proof.Machine

/-- The destinations of a command, as the effect of its family rule names them. -/
def effectOf (i : Instr) (s : State) : Effect :=
  match i with
  | .nop => effNop s
  | .cscf => effCscf s
  | .csci => effCsci s
  | .fdct d a => effFdct d a s
  | .idct d a => effIdct d a s
  | .down d a => effDown d a s
  | .up d a => effUp d a s
  | .vsub d a b => effVsub d a b s
  | .wadd d a b => effWadd d a b s
  | .bld8 r pl k => effBld8 r pl k s
  | .bst8 r pl k => effBst8 r pl k s
  | .bld16 r pl k => effBld16 r pl k s
  | .bst16 r pl k => effBst16 r pl k s
  | .lsbe => effLsbe s
  | .lsbx => effLsbx s

/-- Cancel the command in flight: each element it would have written holds an unspecified value
(70_reset_and_hazards.md R272, U2; log entry 6, safe). A `PEND` that is no command writes nothing. -/
def cancelPending (s : State) : State :=
  match decode s.pend with
  | .instr i => { ((effectOf i s).cancelled s.fresh).apply s with fresh := s.fresh + 1 }
  | .illegalOpcode => s
  | .reservedBits => s

/-- Every control and status register at its reset value (70_reset_and_hazards.md R270), the memories,
the instance and the events kept. -/
def resetRegisters (s : State) : State :=
  { s with
    ieDone := false
    ieErr := false
    refprot := true
    busy := false
    done := false
    err := false
    ovr := false
    accerr := false
    cmdLast := 0#32
    imgW := 0#16
    imgH := 0#16
    errCause := none
    errInfo := 0#32
    nv := false
    sat := false
    accAddr := 0#30
    pend := 0#32 }

/-- The soft reset (70_reset_and_hazards.md R272). -/
def softReset (s : State) : State := resetRegisters (if s.busy then cancelPending s else s)

/-- A power-on reset (70_reset_and_hazards.md R270, R271): the registers as after a soft reset, every
memory unspecified anew, the command in flight cancelled. -/
def powerOnReset (s : State) : State :=
  { resetRegisters s with
    v := powerOnV (s.epoch + 1)
    w := powerOnW (s.epoch + 1)
    mem := []
    epoch := s.epoch + 1 }

end Sys2Proof.Machine
end

