-- ==== Sys2Proof/Machine/Window.lean ====
section
/-! DEFINITION. The host's view: the window map, the widths and alignments, rejected accesses, the
control and status registers and the presentation of command words (10_state.md R27 to R43;
20_memory.md R60 to R71; 45_control.md R221). -/

namespace Sys2Proof.Machine

/-- The number of bytes of an access. -/
def Width.bytes (w : Width) : Nat :=
  match w with
  | .b1 => 1
  | .b2 => 2
  | .b4 => 4
  | .b8 => 8

/-- What lies at a window offset (20_memory.md R61). -/
inductive Place where
  /-- The register window. -/
  | csr
  /-- An element of a `V` register. -/
  | v (i : Fin 8) (e : Fin 64)
  /-- An element of a `W` register. -/
  | w (j : Fin 2) (e : Fin 256)
  /-- A valid element of a plane. -/
  | plane
  /-- A valid byte of the bit memory. -/
  | bit
  /-- A valid byte of the pixel memory. -/
  | pix
  /-- A reserved region, or an aperture past its valid elements. -/
  | absent
deriving DecidableEq, Repr

/-- Whether an offset is a valid element of plane `p` (20_memory.md R61). -/
def inPlane (c : Config.Params) (off p : Nat) : Bool :=
  decide (planeOff p 0 ≤ off) && decide (off < planeOff p c.maxPix)

/-- Whether an offset is a valid byte of the bit memory (20_memory.md R61). -/
def inBit (c : Config.Params) (off : Nat) : Bool :=
  decide (bitOff 0 ≤ off) && decide (off < bitOff (3 * c.maxPix / 8))

/-- Whether an offset is a valid byte of the pixel memory (20_memory.md R61). -/
def inPix (c : Config.Params) (off : Nat) : Bool :=
  decide (pixOff 0 ≤ off) && decide (off < pixOff (4 * c.maxPix))

/-- The window map of 20_memory.md R61. -/
def placeOf (c : Config.Params) (off : Nat) : Place :=
  if off < 0x1000 then .csr
  else if off < 0x2000 then
    .v ⟨(off - 0x1000) / 0x200 % 8, Nat.mod_lt _ (by decide)⟩
      ⟨off % 0x200 / 8 % 64, Nat.mod_lt _ (by decide)⟩
  else if off < 0x3000 then
    .w ⟨(off - 0x2000) / 0x800 % 2, Nat.mod_lt _ (by decide)⟩
      ⟨off % 0x800 / 8 % 256, Nat.mod_lt _ (by decide)⟩
  else if inBit c off then .bit
  else if inPix c off then .pix
  else if inPlane c off 0 || inPlane c off 1 || inPlane c off 2 then .plane
  else .absent

/-- The widths a place takes: registers 4; samples 4 or 8; `PIX` and `BIT` 1, 2 or 4
(20_memory.md R63 to R67). -/
def widthAllowed (p : Place) (n : Nat) : Bool :=
  match p with
  | .csr => decide (n = 4)
  | .v _ _ => decide (n = 4) || decide (n = 8)
  | .w _ _ => decide (n = 4) || decide (n = 8)
  | .plane => decide (n = 4) || decide (n = 8)
  | .bit => decide (n = 1) || decide (n = 2) || decide (n = 4)
  | .pix => decide (n = 1) || decide (n = 2) || decide (n = 4)
  | .absent => false

/-- Whether an access is rejected for its place, width or alignment, or because it reaches a memory
while `BUSY = 1` (20_memory.md R68, R69). -/
def rejects (s : State) (off n : Nat) : Bool :=
  let p := placeOf s.cfg off
  !(widthAllowed p n) || decide (off % n ≠ 0) || (s.busy && decide (p ≠ .csr))

/-- A write is rejected also when it is to `IMG_W` or `IMG_H` while `BUSY = 1` (20_memory.md R69). -/
def rejectsWrite (s : State) (off n : Nat) : Bool :=
  rejects s off n || (s.busy && (decide (off = 0x014) || decide (off = 0x018)))

/-! ## Registers -/

/-- A register as read (10_state.md R27 to R43); no read has a side effect. -/
def State.readCsr (s : State) (off : Nat) : Word :=
  match off with
  | 0x000 => 0x44435438#32
  | 0x004 => s.capsWord
  | 0x008 => s.ctrlWord
  | 0x00C => s.statusWord
  | 0x010 => s.cmdLast
  | 0x014 => s.imgW.setWidth 32
  | 0x018 => s.imgH.setWidth 32
  | 0x01C => s.gridWord 8
  | 0x020 => s.gridWord 16
  | 0x024 => BitVec.ofNat 32 (s.blockCount 8)
  | 0x028 => BitVec.ofNat 32 (s.blockCount 16)
  | 0x02C => causeWord s.errCause
  | 0x030 => s.errInfo
  | 0x034 => s.flagsWord
  | 0x038 => s.accAddr.setWidth 32
  | 0x03C => s.lsbcapWord
  | _ => 0#32

/-- A write to `CTRL`: the soft reset when bit 31 is 1, else the three enables (10_state.md R30,
70_reset_and_hazards.md R272). -/
def writeCtrl (x : Word) (s : State) : State :=
  if x.getLsbD 31 then softReset s
  else { s with ieDone := x.getLsbD 0, ieErr := x.getLsbD 1, refprot := x.getLsbD 2 }

/-- A write to `STATUS`: each 1 clears its bit, `ERR` with its cause and word, `ACCERR` with its address.
A 1 to a bit that is 0 has no effect (10_state.md R31). -/
def writeStatus (x : Word) (s : State) : State :=
  let s := if x.getLsbD 2 && s.err then returnFromError s else s
  { s with
    done := s.done && !x.getLsbD 1
    ovr := s.ovr && !x.getLsbD 3
    accerr := s.accerr && !x.getLsbD 4
    accAddr := if x.getLsbD 4 && s.accerr then 0#30 else s.accAddr }

/-- A write to `FLAGS`: each 1 clears its bit (10_state.md R40). -/
def writeFlags (x : Word) (s : State) : State :=
  { s with nv := s.nv && !x.getLsbD 0, sat := s.sat && !x.getLsbD 1 }

/-- A command word presented to the engine (45_control.md R221): dropped while `BUSY = 1` or `ERR = 1`;
a word that does not decode is recorded and refused by the error entry; a command goes to `exec`,
which accepts it. -/
def presentWord (x : Word) (s : State) : Host.Outcome State Fault Refusal :=
  if s.busy || s.err then .next (dropCommand s)
  else
    match decode x with
    | .illegalOpcode => .next (cmdError .illegalOpcode x { s with cmdLast := x, done := false })
    | .reservedBits => .next (cmdError .reservedBits x { s with cmdLast := x, done := false })
    | .instr i => exec i s

/-- A 32-bit register write; read-only and reserved offsets ignore it (10_state.md R27, R43). -/
def writeCsr (off : Nat) (x : Word) (s : State) : Host.Outcome State Fault Refusal :=
  match off with
  | 0x008 => .next (writeCtrl x s)
  | 0x00C => .next (writeStatus x s)
  | 0x010 => presentWord x s
  | 0x014 => .next { s with imgW := x.setWidth 16 }
  | 0x018 => .next { s with imgH := x.setWidth 16 }
  | 0x034 => .next (writeFlags x s)
  | _ => .next s

/-! ## Samples of the block registers -/

/-- The part of a sample an access reads: all of it, or the half at its offset (20_memory.md R63). -/
def samplePart (x : Sample) (off n : Nat) : BitVec 64 :=
  if n = 8 then x
  else if off % 8 = 0 then (x.extractLsb' 0 32).setWidth 64
  else (x.extractLsb' 32 32).setWidth 64

/-- A sample with the part an access writes replaced (20_memory.md R63). -/
def mergeSample (old data : BitVec 64) (off n : Nat) : Sample :=
  if n = 8 then data
  else if off % 8 = 0 then old.extractLsb' 32 32 ++ data.extractLsb' 0 32
  else data.extractLsb' 0 32 ++ old.extractLsb' 0 32

/-! ## Accesses -/

/-- The value of an accepted read, zero-extended. -/
def readValue (s : State) (off n : Nat) : BitVec 64 :=
  match placeOf s.cfg off with
  | .csr => (s.readCsr off).setWidth 64
  | .v i e => samplePart (s.readV i e) off n
  | .w j e => samplePart (s.readW j e) off n
  | .plane => BitVec.ofNat 64 (s.readLE off n)
  | .bit => BitVec.ofNat 64 (s.readLE off n)
  | .pix => BitVec.ofNat 64 (s.readLE off n)
  | .absent => 0#64

/-- A host read: the value, or 0 and an access error (20_memory.md R68). -/
def hostRead (off : Offset) (n : Nat) (s : State) : State :=
  if rejects s off.toNat n then accessError off { s with replies := 0#64 :: s.replies }
  else { s with replies := readValue s off.toNat n :: s.replies }

/-- An accepted write. -/
def writeValue (off n : Nat) (data : BitVec 64) (s : State) : Host.Outcome State Fault Refusal :=
  match placeOf s.cfg off with
  | .csr => writeCsr off (data.setWidth 32) s
  | .v i e => .next (s.writeV i e (mergeSample (s.readV i e) data off n))
  | .w j e => .next (s.writeW j e (mergeSample (s.readW j e) data off n))
  | .plane => .next (s.writeCells (leCells off n data.toNat))
  | .bit => .next (s.writeCells (leCells off n data.toNat))
  | .pix => .next (s.writeCells (leCells off n data.toNat))
  | .absent => .next s

/-- A host write: its effect, or only an access error (20_memory.md R68). -/
def hostWrite (off : Offset) (n : Nat) (data : BitVec 64) (s : State) :
    Host.Outcome State Fault Refusal :=
  if rejectsWrite s off.toNat n then .next (accessError off s)
  else writeValue off.toNat n data s

/-- The engine's turn while `BUSY = 1`: the completion step of the command in flight (45_control.md
R222), by `exec`. A `PEND` that does not decode is a state no run reaches (log entry 13, safe). -/
def engineStep (s : State) : Host.Outcome State Fault Refusal :=
  match decode s.pend with
  | .instr i => exec i s
  | .illegalOpcode => .fault .pendNotValidated
  | .reservedBits => .fault .pendNotValidated

/-- One event. The completion step is disabled while `BUSY = 0` (45_control.md R222). -/
def serve (e : Event) (s : State) : Host.Outcome State Fault Refusal :=
  match e with
  | .read off w => .next (hostRead off w.bytes s)
  | .write off w data => hostWrite off w.bytes data s
  | .engine => if s.busy then engineStep s else .next s
  | .powerOn => .next (powerOnReset s)

end Sys2Proof.Machine
end

