-- ==== Sys2Proof/Machine/Step.lean ====
section
/-! DEFINITION. One step of the machine, and how the next command is placed. -/

namespace Sys2Proof.Machine

/-- One step: the oldest event of the inbox happens (20_memory.md R73). With no event left, the command
in flight completes (45_control.md R222: the completion step must fire), and an idle block stays as it
is, waiting for the host (70_reset_and_hazards.md R270). -/
def step (s : State) : Host.Outcome State Fault Refusal :=
  match s.inbox with
  | e :: rest => serve e { s with inbox := rest }
  | [] => if s.busy then engineStep s else .next s

/-- The state whose very next step presents the command word `w` to the engine: the host's 32-bit write
of it to `CMD` is the next event, and the block is neither busy nor in error, so the word is not
dropped (45_control.md R221; log entry 2). -/
def State.withFetchWord (s : State) (nbits w : Nat) : State :=
  { s with
    busy := false
    err := false
    errCause := if s.err then none else s.errCause
    errInfo := if s.err then 0#32 else s.errInfo
    inbox := .write 0x010#30 .b4 (BitVec.ofNat 64 (w % 2 ^ (min nbits 32))) :: s.inbox }

end Sys2Proof.Machine
end

