-- ==== Sys2Proof/Machine/Script.lean ====
section
/-! DEFINITION. The host-script notation of 30_encoding.md R102 as lists of events. The host's decisions
stay outside the block (45_control.md R224): a script is the list of accesses one run of it makes. -/

namespace Sys2Proof.Machine

/-- `WR8 off, v`. -/
def wr8 (off : Offset) (x : Byte) : Event := .write off .b1 (x.setWidth 64)

/-- `WR32 off, v`. -/
def wr32 (off : Offset) (x : Word) : Event := .write off .b4 (x.setWidth 64)

/-- `WR64 off, v`. -/
def wr64 (off : Offset) (x : BitVec 64) : Event := .write off .b8 x

/-- `RD8 off`. -/
def rd8 (off : Offset) : Event := .read off .b1

/-- `RD32 off`. -/
def rd32 (off : Offset) : Event := .read off .b4

/-- `RD64 off`. -/
def rd64 (off : Offset) : Event := .read off .b8

/-- `CMD <command>`. -/
def cmd (i : Instr) : Event := wr32 0x010#30 (encode i)

/-- `WAIT`: the poll that sees `BUSY = 0`, after the engine's turn. Polls that see `BUSY = 1` change
nothing (20_memory.md R71) and are left out. -/
def waitIdle : List Event := [.engine, rd32 0x00C#30]

/-- `RUN <command>`. -/
def run (i : Instr) : List Event := cmd i :: waitIdle

/-- `CLR`: clear DONE, ERR, OVR and ACCERR. -/
def clr : Event := wr32 0x00C#30 0x1E#32

/-- A host read or write of a physical address, if the platform routes it to the window
(20_memory.md R60). -/
def physRead? (phys : Nat) (w : Width) : Option Event :=
  (Config.windowOffset? phys).map fun off => .read off w

/-- A host write of a physical address. -/
def physWrite? (phys : Nat) (w : Width) (data : BitVec 64) : Option Event :=
  (Config.windowOffset? phys).map fun off => .write off w data

end Sys2Proof.Machine
end

