-- ==== Sys2Proof/Safety.lean ====
section
/-! DEFINITION. What a safe state is: the terms the claims use. -/

namespace Sys2Proof.Safety

open Sys2Proof.Machine

/-- The command in flight passed validation, apart from `REFPROT`, which is checked at acceptance only
(45_control.md R221, R222; 10_state.md R30). -/
abbrev PendValidated (s : State) : Prop :=
  ∃ i, decode s.pend = .instr i ∧ operandCause i s = none

/-- The status registers agree: an error and its cause come together (10_state.md R38, R39), `ACC_ADDR`
is clear while `ACCERR = 0` (R41), and `BUSY`, `DONE` and `ERR` stand as in 45_control.md R223. -/
abbrev StatusAgrees (s : State) : Prop :=
  (s.err = false → s.errCause = none ∧ s.errInfo = 0#32) ∧
  (s.err = true → s.errCause.isSome = true) ∧
  (s.accerr = false → s.accAddr = 0#30) ∧
  (s.busy = true → s.done = false ∧ s.err = false)

/-- The invariant of the machine: canonical memory, agreeing status, and a validated command in flight
(which also fixes that the geometry stays legal under a command that uses it, 10_state.md R44). -/
abbrev Inv (s : State) : Prop :=
  s.mem.wf ∧ StatusAgrees s ∧ (s.busy = true → PendValidated s)

/-- Whether an offset is a valid element of a plane, of `PIX` or of `BIT` (20_memory.md R61). -/
def memoryOffset (c : Config.Params) (a : Nat) : Bool :=
  inBit c a || inPix c a || inPlane c a 0 || inPlane c a 1 || inPlane c a 2

/-- Every listed byte is a valid element of a memory (43_block_indexer.md R182: every access stays in
the plane; 10_state.md R23 to R25). -/
abbrev MemoryInBounds (s : State) : Prop := ∀ c ∈ s.mem, memoryOffset s.cfg c.1 = true

end Sys2Proof.Safety
end

