-- ==== Sys2Proof/Certificates/Slice0/Obligations.lean ====
section
/-! DEFINITION. The statements for the provers, and the terms they are written in. A statement about a
free value holds for every value of it: results are compared as binary64 values (`F64`), so that which
NaN is stored does not matter (00_scope.md R9). -/

namespace Sys2Proof.Claims

open Sys2Proof.Machine

/-! ## Frames -/

/-- Every register that no command's completion writes is unchanged (the control enables, `ERR`, `OVR`,
`ACCERR`, `CMD`, the geometry, the error and access records, `PEND`), and so are the model's own
instance, inbox, replies and epoch. -/
abbrev RegistersKept (s t : State) : Prop :=
  t.ieDone = s.ieDone ∧ t.ieErr = s.ieErr ∧ t.refprot = s.refprot ∧ t.err = s.err ∧ t.ovr = s.ovr ∧
  t.accerr = s.accerr ∧ t.cmdLast = s.cmdLast ∧ t.imgW = s.imgW ∧ t.imgH = s.imgH ∧
  t.errCause = s.errCause ∧ t.errInfo = s.errInfo ∧ t.accAddr = s.accAddr ∧ t.pend = s.pend ∧
  t.cfg = s.cfg ∧ t.inbox = s.inbox ∧ t.replies = s.replies ∧ t.epoch = s.epoch

/-- `BUSY` fell, `DONE` rose (45_control.md R222) and every other register no command writes is kept. -/
abbrev Completed (s t : State) : Prop := t.busy = false ∧ t.done = true ∧ RegistersKept s t

/-- `FLAGS` is unchanged. -/
abbrev FlagsKept (s t : State) : Prop := t.nv = s.nv ∧ t.sat = s.sat

/-- Every byte of the planes, `PIX` and `BIT` is unchanged. -/
abbrev MemoryKept (s t : State) : Prop := ∀ a, t.readByte a = s.readByte a

/-- Every element of every `V` register is unchanged. -/
abbrev VKept (s t : State) : Prop := ∀ i e, t.readV i e = s.readV i e

/-- Every element of every `W` register is unchanged. -/
abbrev WKept (s t : State) : Prop := ∀ j e, t.readW j e = s.readW j e

/-- Every element of the other `V` registers is unchanged. -/
abbrev OtherVKept (d : Fin 8) (s t : State) : Prop := ∀ i, i ≠ d → ∀ e, t.readV i e = s.readV i e

/-- Every element of the other `W` register is unchanged. -/
abbrev OtherWKept (d : Fin 2) (s t : State) : Prop := ∀ j, j ≠ d → ∀ e, t.readW j e = s.readW j e

/-- The frame of a command whose destination is the register `Vd`. -/
abbrev WritesOnlyV (d : Fin 8) (s t : State) : Prop :=
  Completed s t ∧ FlagsKept s t ∧ MemoryKept s t ∧ WKept s t ∧ OtherVKept d s t

/-- The frame of a command whose destination is the register `Wd`. -/
abbrev WritesOnlyW (d : Fin 2) (s t : State) : Prop :=
  Completed s t ∧ FlagsKept s t ∧ MemoryKept s t ∧ VKept s t ∧ OtherWKept d s t

/-- The frame of a command that stores to memory only. -/
abbrev WritesOnlyMemory (s t : State) : Prop :=
  Completed s t ∧ FlagsKept s t ∧ VKept s t ∧ WKept s t

/-- `V[i][e]` as a value. -/
abbrev valueV (s : State) (i : Fin 8) (e : Fin 64) : F64 := F64.ofBits (s.readV i e)

/-- `W[j][e]` as a value. -/
abbrev valueW (s : State) (j : Fin 2) (e : Fin 256) : F64 := F64.ofBits (s.readW j e)

/-- `PLANE[p][n]` as a value. -/
abbrev valuePlane (s : State) (p n : Nat) : F64 := F64.ofBits (s.readPlane p n)

/-! ## The pseudocode of the transforms, as the spec nests its loops -/

/-- `COS(x, u)` (41_dct.md R141). -/
def cosine (c : Config.Params) (x u : Nat) : F64 :=
  F64.ofBits (c.cosj[((2 * x + 1) * u) % 32]'(Nat.mod_lt _ (by decide)))

/-- `Cp` (41_dct.md R142). -/
def weight (c : Config.Params) (p : Nat) : F64 := if p = 0 then F64.ofBits c.c0 else F64.ofNat 1

/-- Element `r*8 + c` of a `V` register as a value, for `r` and `c` below 8. -/
def cell8 (s : State) (a : Fin 8) (r c : Nat) : F64 :=
  valueV s a ⟨(r * 8 + c) % 64, Nat.mod_lt _ (by decide)⟩

/-- The result of the pseudocode of FDCT for frequencies `p`, `q` (41_dct.md R142). -/
def fdctResult (s : State) (a : Fin 8) (p q : Nat) : F64 :=
  let acc := (List.range 8).foldl (fun acc r => (List.range 8).foldl (fun acc c =>
    acc.add (((cell8 s a r c).mul (cosine s.cfg r p)).mul (cosine s.cfg c q))) acc) F64.zero
  ((F64.quarter.mul (weight s.cfg p)).mul (weight s.cfg q)).mul acc

/-- The result of the pseudocode of IDCT for row `r`, column `c` (41_dct.md R143). -/
def idctResult (s : State) (a : Fin 8) (r c : Nat) : F64 :=
  let acc := (List.range 8).foldl (fun acc p => (List.range 8).foldl (fun acc q =>
    acc.add (((((weight s.cfg p).mul (weight s.cfg q)).mul (cell8 s a p q)).mul
      (cosine s.cfg r p)).mul (cosine s.cfg c q))) acc) F64.zero
  F64.quarter.mul acc

/-- A byte of `PIX` as a value. -/
abbrev pixValue (s : State) (a : Nat) : F64 := F64.ofNat (s.readPix a).toNat

/-- A build-time weight as a value. -/
abbrev k (x : Sample) : F64 := F64.ofBits x

/-! ## Validation, on the bits of a word -/

/-- The fifteen assigned opcodes (60_exceptions.md R232). -/
def assigned : List Nat :=
  [0x01, 0x02, 0x03, 0x08, 0x09, 0x0C, 0x0D, 0x0E, 0x0F, 0x10, 0x11, 0x12, 0x13, 0x18, 0x19]

/-- The reserved mask of an assigned opcode (60_exceptions.md R233). -/
def reservedMask (op : Nat) : Word :=
  if op ∈ [0x01, 0x02, 0x03, 0x18, 0x19] then 0x03FFFFFF#32
  else if op ∈ [0x08, 0x09, 0x0C, 0x0D] then 0x000FFFFF#32
  else if op ∈ [0x0E, 0x0F] then 0x0001FFFF#32
  else 0x001C0000#32

/-- Some `W` register field of the word holds a value above 1 (60_exceptions.md R234). -/
abbrev badRegister (w : Word) : Prop :=
  (field w 31 26 = 0x0C ∧ 1 < field w 22 20) ∨
  (field w 31 26 = 0x0D ∧ 1 < field w 25 23) ∨
  (field w 31 26 = 0x0F ∧ (1 < field w 25 23 ∨ 1 < field w 22 20 ∨ 1 < field w 19 17)) ∨
  ((field w 31 26 = 0x12 ∨ field w 31 26 = 0x13) ∧ 1 < field w 25 23)

/-- The block commands' opcodes. -/
abbrev blockOp (w : Word) : Prop :=
  field w 31 26 = 0x10 ∨ field w 31 26 = 0x11 ∨ field w 31 26 = 0x12 ∨ field w 31 26 = 0x13

/-- The opcodes that use the geometry (60_exceptions.md R236). -/
abbrev geometryOp (w : Word) : Prop :=
  field w 31 26 ∈ [0x02, 0x03, 0x10, 0x11, 0x12, 0x13, 0x18, 0x19]

/-- The geometry is legal (10_state.md R35). -/
abbrev geometryLegal (s : State) : Prop :=
  1 ≤ s.imgW.toNat ∧ s.imgW.toNat ≤ s.cfg.maxW ∧ 1 ≤ s.imgH.toNat ∧ s.imgH.toNat ≤ s.cfg.maxH

/-- The block index is past its grid (60_exceptions.md R237). -/
abbrev pastGrid (w : Word) (s : State) : Prop :=
  ((field w 31 26 = 0x10 ∨ field w 31 26 = 0x11) ∧
    (s.imgW.toNat / 8) * (s.imgH.toNat / 8) ≤ field w 17 0) ∨
  ((field w 31 26 = 0x12 ∨ field w 31 26 = 0x13) ∧
    (s.imgW.toNat / 16) * (s.imgH.toNat / 16) ≤ field w 17 0)

/-- A store of block 0 while `REFPROT` is 1 (43_block_indexer.md R186). -/
abbrev guardedStore (w : Word) (s : State) : Prop :=
  (field w 31 26 = 0x11 ∨ field w 31 26 = 0x13) ∧ field w 17 0 = 0 ∧ s.refprot = true

/-- `validate(w)` as 60_exceptions.md R238 writes it, on the bits of the word: the outcome is the first
condition that holds, or none. -/
def ValidatesTo (w : Word) (s : State) (o : Option Cause) : Prop :=
  (field w 31 26 ∉ assigned → o = some .illegalOpcode) ∧
  (field w 31 26 ∈ assigned →
    (w &&& reservedMask (field w 31 26) ≠ 0#32 → o = some .reservedBits) ∧
    (w &&& reservedMask (field w 31 26) = 0#32 →
      (badRegister w → o = some .badRegister) ∧
      (¬ badRegister w →
        (blockOp w ∧ field w 22 21 = 3 → o = some .badPlane) ∧
        (¬ (blockOp w ∧ field w 22 21 = 3) →
          (geometryOp w ∧ ¬ geometryLegal s → o = some .badGeometry) ∧
          (¬ (geometryOp w ∧ ¬ geometryLegal s) →
            (pastGrid w s → o = some .blockRange) ∧
            (¬ pastGrid w s →
              (guardedStore w s → o = some .refWrite) ∧
              (¬ guardedStore w s → o = none)))))))

/-! ## Host accesses -/

/-- The window map and the widths and alignments each region takes (20_memory.md R61, R63 to R67), for
an access of `n` bytes. -/
abbrev placeAllows (c : Config.Params) (off n : Nat) : Prop :=
  off % n = 0 ∧
  ((off < 0x1000 ∧ n = 4) ∨
   (0x1000 ≤ off ∧ off < 0x3000 ∧ (n = 4 ∨ n = 8)) ∨
   (0x01000000 ≤ off ∧ off < 0x01000000 + 3 * c.maxPix / 8 ∧ (n = 1 ∨ n = 2 ∨ n = 4)) ∨
   (0x04000000 ≤ off ∧ off < 0x04000000 + 4 * c.maxPix ∧ (n = 1 ∨ n = 2 ∨ n = 4)) ∨
   (0x10000000 ≤ off ∧ off < 0x10000000 + 8 * c.maxPix ∧ (n = 4 ∨ n = 8)) ∨
   (0x18000000 ≤ off ∧ off < 0x18000000 + 8 * c.maxPix ∧ (n = 4 ∨ n = 8)) ∨
   (0x20000000 ≤ off ∧ off < 0x20000000 + 8 * c.maxPix ∧ (n = 4 ∨ n = 8)))

/-- A read is served (20_memory.md R68, R69). -/
abbrev readServed (s : State) (off n : Nat) : Prop :=
  placeAllows s.cfg off n ∧ (s.busy = true → off < 0x1000)

/-- A write is served (20_memory.md R68, R69). -/
abbrev writeServed (s : State) (off n : Nat) : Prop :=
  readServed s off n ∧ (s.busy = true → off ≠ 0x014 ∧ off ≠ 0x018)

/-- The recording of a rejected access (20_memory.md R68). -/
def recorded (off : Offset) (s : State) : State :=
  { s with accerr := true, accAddr := if s.accerr = true then s.accAddr else off }

/-- The offset of a sample the host can reach: an element of a `V` or `W` register or of a plane
(20_memory.md R61, R63). -/
abbrev sampleOffset (c : Config.Params) (off : Nat) : Prop :=
  off % 8 = 0 ∧
  ((0x1000 ≤ off ∧ off < 0x3000) ∨
   (0x10000000 ≤ off ∧ off < 0x10000000 + 8 * c.maxPix) ∨
   (0x18000000 ≤ off ∧ off < 0x18000000 + 8 * c.maxPix) ∨
   (0x20000000 ≤ off ∧ off < 0x20000000 + 8 * c.maxPix))

/-- The byte offset lies in the element of 8 bytes at `o`. -/
abbrev inSample (a o : Nat) : Prop := o ≤ a ∧ a < o + 8

/-- The sample at the window offset `off` is `x`, in whichever memory it lies (20_memory.md R61). -/
abbrev SampleIs (s : State) (off : Nat) (x : Sample) : Prop :=
  (∀ (i : Fin 8) (e : Fin 64), off = 0x1000 + 0x200 * i.val + 8 * e.val → s.readV i e = x) ∧
  (∀ (j : Fin 2) (e : Fin 256), off = 0x2000 + 0x800 * j.val + 8 * e.val → s.readW j e = x) ∧
  (∀ p < 3, ∀ n < s.cfg.maxPix, off = 0x10000000 + 0x08000000 * p + 8 * n → s.readPlane p n = x)

/-- A host write to a memory stored to the `n` bytes at `off` and did nothing else (20_memory.md R71):
every element of a block register and every byte outside them is as before, and so are every control and
status register, `PEND` and the model's own fields. -/
abbrev StoresOnly (off n : Nat) (s t : State) : Prop :=
  t = { s with v := t.v, w := t.w, mem := t.mem } ∧
  (∀ i e, vOff i.val e.val + 8 ≤ off ∨ off + n ≤ vOff i.val e.val → t.readV i e = s.readV i e) ∧
  (∀ j e, wOff j.val e.val + 8 ≤ off ∨ off + n ≤ wOff j.val e.val → t.readW j e = s.readW j e) ∧
  ∀ a, a < off ∨ off + n ≤ a → t.readByte a = s.readByte a

/-- The low bits of a reply are the listed ones, bit 0 first, and every other bit is 0. -/
abbrev BitsAre (x : BitVec 64) (bits : List Bool) : Prop := ∀ b, x.getLsbD b = bits.getD b false

/-- What a 32-bit read of the register at `off` returns, zero-extended (10_state.md R27 to R43; the cause
codes are those of 60_exceptions.md R231). The derived registers are stated of `readCsr`, whose values
`DerivedGeometryRegisters` gives. -/
def RegisterReads (s : State) (off : Nat) (x : BitVec 64) : Prop :=
  (off = 0x000 → x = 0x44435438#64) ∧
  (off = 0x004 → x.toNat = s.cfg.maxH * 2 ^ 16 + s.cfg.maxW) ∧
  (off = 0x008 → BitsAre x [s.ieDone, s.ieErr, s.refprot]) ∧
  (off = 0x00C → BitsAre x [s.busy, s.done, s.err, s.ovr, s.accerr, s.irq]) ∧
  (off = 0x010 → x = s.cmdLast.setWidth 64) ∧
  (off = 0x014 → x = s.imgW.setWidth 64) ∧
  (off = 0x018 → x = s.imgH.setWidth 64) ∧
  (off ∈ [0x01C, 0x020, 0x024, 0x028, 0x03C] → x = (s.readCsr off).setWidth 64) ∧
  (off = 0x02C →
    (s.errCause = none → x = 0#64) ∧ (s.errCause = some .illegalOpcode → x = 1#64) ∧
    (s.errCause = some .reservedBits → x = 2#64) ∧ (s.errCause = some .badRegister → x = 3#64) ∧
    (s.errCause = some .badPlane → x = 4#64) ∧ (s.errCause = some .badGeometry → x = 5#64) ∧
    (s.errCause = some .blockRange → x = 6#64) ∧ (s.errCause = some .refWrite → x = 7#64)) ∧
  (off = 0x030 → x = s.errInfo.setWidth 64) ∧
  (off = 0x034 → BitsAre x [s.nv, s.sat]) ∧
  (off = 0x038 → x = s.accAddr.setWidth 64) ∧
  (0x040 ≤ off → x = 0#64)

/-! ## Rounding, as IEEE 754 defines it (log entry 10) -/

/-- A whole number of units with at most 53 significant bits: a binary64 magnitude, with no upper bound
on its exponent. -/
abbrev Representable (x : Nat) : Prop := ∃ m e : Nat, m < 2 ^ 53 ∧ x = m * 2 ^ e

/-- How far `x` units lie from `a / 2^j` units, times `2^j`. -/
abbrev distance (a j x : Nat) : Int := |(a : Int) - (x * 2 ^ j : Nat)|

/-- The significand of `x`, with the least exponent 0 of the units, is even. -/
abbrev EvenSignificand (x : Nat) : Prop :=
  ∃ m e : Nat, m ≤ 2 ^ 53 ∧ (2 ^ 52 ≤ m ∨ e = 0) ∧ m % 2 = 0 ∧ x = m * 2 ^ e

/-- `x` is `a / 2^j` rounded to nearest, ties to even (00_scope.md R9). -/
abbrev RoundsTo (a j x : Nat) : Prop :=
  Representable x ∧ (∀ y, Representable y → distance a j x ≤ distance a j y) ∧
  ∀ y, Representable y → y ≠ x → distance a j y = distance a j x → EvenSignificand x

/-- `r` is the binary64 result for the exact value `a / 2^j` units with the sign `neg`: the rounded
magnitude, or an infinity when that is 2^1024 or more (60_exceptions.md R255). -/
abbrev RoundedResult (neg : Bool) (a j : Nat) (r : F64) : Prop :=
  ∃ x, RoundsTo a j x ∧ (x < 2 ^ 2098 → r = .fin neg x) ∧ (2 ^ 2098 ≤ x → r = .inf neg)

/-- The command is one of the two LSB commands. -/
abbrev isLsb (i : Instr) : Prop := i = .lsbe ∨ i = .lsbx

/-- The command is one of the two colour-space commands. -/
abbrev isColor (i : Instr) : Prop := i = .cscf ∨ i = .csci

end Sys2Proof.Claims

open Sys2Proof Sys2Proof.Machine Sys2Proof.Safety Sys2Proof.Claims

/-! # Encoding -/

/-- Words written out from the encodings of 30_encoding.md decode to their commands (95 T1). -/
def Obligations.TableWordsDecode : Prop :=
  decode 0x04000000#32 = .instr .nop ∧ decode 0x08000000#32 = .instr .cscf ∧
  decode 0x0C000000#32 = .instr .csci ∧ decode 0x22000000#32 = .instr (.fdct 4 0) ∧
  decode 0x26A00000#32 = .instr (.idct 5 2) ∧ decode 0x33900000#32 = .instr (.down 7 1) ∧
  decode 0x34B00000#32 = .instr (.up 1 3) ∧ decode 0x3BE80000#32 = .instr (.vsub 7 6 4) ∧
  decode 0x3C020000#32 = .instr (.wadd 0 0 1) ∧ decode 0x43C3FFFF#32 = .instr (.bld8 7 2 262143) ∧
  decode 0x46800001#32 = .instr (.bst8 5 0 1) ∧ decode 0x48200001#32 = .instr (.bld16 0 1 1) ∧
  decode 0x4C200001#32 = .instr (.bst16 0 1 1) ∧ decode 0x60000000#32 = .instr .lsbe ∧
  decode 0x64000000#32 = .instr .lsbx

/-- Decoding the word of a well-formed command gives the command back. -/
def Obligations.DecodeOfEncode : Prop := ∀ i : Instr, i.wellFormed = true → decode (encode i) = .instr i

/-- A word that decodes to a command is that command's only word. -/
def Obligations.EncodeOfDecode : Prop :=
  ∀ (w : Word) (i : Instr), decode w = .instr i → i.wellFormed = true ∧ encode i = w

/-! # Validation and acceptance -/

/-- 60_exceptions.md R232: the illegal opcodes, whatever the other bits are. -/
def Obligations.IllegalOpcodeIsUnassigned : Prop :=
  ∀ (w : Word) (s : State), validateWord w s = some .illegalOpcode ↔
    field w 31 26 ∉ [0x01, 0x02, 0x03, 0x08, 0x09, 0x0C, 0x0D, 0x0E, 0x0F, 0x10, 0x11, 0x12, 0x13,
      0x18, 0x19]

/-- 60_exceptions.md R233: an assigned opcode and a one under its reserved mask. -/
def Obligations.ReservedBitsUnderMask : Prop :=
  ∀ (w : Word) (s : State), validateWord w s = some .reservedBits ↔
    field w 31 26 ∈ assigned ∧ w &&& reservedMask (field w 31 26) ≠ 0#32

/-- 60_exceptions.md R237: with nothing of a lower cause, the block index past its grid is
`BLOCK_RANGE`, and an empty grid refuses every block index. -/
def Obligations.BlockRangeIsPastGrid : Prop :=
  (∀ (i : Instr) (s : State), validate i s = some .blockRange →
    ∃ size pl kk, blockOperand? i = some (size, pl, kk) ∧ s.blockCount size ≤ kk) ∧
  (∀ (r : Fin 8) (pl : Fin 4) (kk : Nat) (s : State), pl ≠ 3 → geometryLegal s →
    (validate (.bld8 r pl kk) s = some .blockRange ↔
      (s.imgW.toNat / 8) * (s.imgH.toNat / 8) ≤ kk) ∧
    (validate (.bst8 r pl kk) s = some .blockRange ↔
      (s.imgW.toNat / 8) * (s.imgH.toNat / 8) ≤ kk) ∧
    (r.val ≤ 1 → (validate (.bld16 r pl kk) s = some .blockRange ↔
      (s.imgW.toNat / 16) * (s.imgH.toNat / 16) ≤ kk)) ∧
    (r.val ≤ 1 → (validate (.bst16 r pl kk) s = some .blockRange ↔
      (s.imgW.toNat / 16) * (s.imgH.toNat / 16) ≤ kk)))

/-- 60_exceptions.md R238: validation reports the lowest cause that holds, for every word and state. -/
def Obligations.ValidationPriority : Prop :=
  ∀ (w : Word) (s : State), ValidatesTo w s (validateWord w s)

/-- 60_exceptions.md R243: a `CMD` write while `BUSY = 1` or `ERR = 1` sets `OVR` and nothing else, for
every word. -/
def Obligations.BusyOrErrorDropsCommand : Prop :=
  ∀ (w : Word) (s : State) (rest : List Event), s.inbox = wr32 0x010#30 w :: rest →
    (s.busy = true ∨ s.err = true) → step s = .next { s with inbox := rest, ovr := true }

/-- 60_exceptions.md R240: a word that validation refuses sets `ERR`, `ERR_CAUSE` and `ERR_INFO`; of the
rest only `CMD` and `DONE` follow its acceptance (45_control.md R221). And nothing else enters the error
state: a step that raises `ERR` is such an acceptance. -/
def Obligations.RefusedCommandEntersError : Prop :=
  (∀ (w : Word) (c : Cause) (s : State) (rest : List Event), s.inbox = wr32 0x010#30 w :: rest →
    s.busy = false → s.err = false → validateWord w s = some c →
    step s = .next { s with
      inbox := rest, cmdLast := w, done := false, err := true, errCause := some c, errInfo := w }) ∧
  (∀ s t : State, step s = .next t → s.err = false → t.err = true →
    s.busy = false ∧ ∃ (data : BitVec 64) (rest : List Event) (c : Cause),
      s.inbox = .write 0x010#30 .b4 data :: rest ∧
      validateWord (data.setWidth 32) s = some c ∧ t.errCause = some c ∧
      t.errInfo = data.setWidth 32)

/-- 45_control.md R221: a valid word is recorded, `DONE` cleared, and the word put in flight. -/
def Obligations.ValidCommandIsTaken : Prop :=
  ∀ (w : Word) (s : State) (rest : List Event), s.inbox = wr32 0x010#30 w :: rest →
    s.busy = false → s.err = false → validateWord w s = none →
    step s = .next { s with
      inbox := rest, cmdLast := w, done := false, pend := w, busy := true }

/-- A step runs the decoded command: the engine's turn runs the command in flight, and a `CMD` write
presents the command its word decodes to; the step adds only that the event is used up. That the command
in flight also runs when no event is left is the model's choice (log entry 1): 45_control.md R222 says
only that the completion step must fire eventually. -/
def Obligations.StepRunsDecodedCommand : Prop :=
  ∀ (i : Instr) (s : State) (rest : List Event),
    (s.busy = true → decode s.pend = .instr i → s.inbox = .engine :: rest →
      step s = exec i { s with inbox := rest }) ∧
    (s.busy = true → decode s.pend = .instr i → s.inbox = [] → step s = exec i s) ∧
    (∀ w : Word, s.busy = false → s.err = false → decode w = .instr i →
      s.inbox = wr32 0x010#30 w :: rest → step s = exec i { s with inbox := rest })

/-- The model's choice (log entry 13): a command in flight that validation of its operands refuses stops
the machine; no run reaches such a state (`StepKeepsInvariant`). -/
def Obligations.UnvalidatedPendStops : Prop :=
  ∀ (i : Instr) (s : State) (c : Cause), s.busy = true → operandCause i s = some c →
    exec i s = .fault .pendNotValidated

/-! # Completions -/

/-- NOP in flight completes and changes only `BUSY` and `DONE` (and the model's draw counter)
(45_control.md R220, R222). -/
def Obligations.NopCompletes : Prop :=
  ∀ s : State, s.busy = true →
    exec .nop s = .next { s with busy := false, done := true, fresh := s.fresh + 1 }

/-- CSCF in flight completes: the three planes hold the weighted sums of every pixel below `N`, under
`OPAQUE` the uninterpreted function of its bytes, and nothing else changes (40_colorspace.md R122). -/
def Obligations.CscfCompletes : Prop :=
  ∀ s : State, s.busy = true → s.cfg.legal → geometryLegal s →
    ∃ t, exec .cscf s = .next t ∧ WritesOnlyMemory s t ∧
      (s.cfg.arith = .ref64 → ∀ n < s.imgW.toNat * s.imgH.toNat,
        let r := pixValue s (4 * n)
        let g := pixValue s (4 * n + 1)
        let b := pixValue s (4 * n + 2)
        valuePlane t 0 n =
          (((k s.cfg.ky0).mul r).add ((k s.cfg.ky1).mul g)).add ((k s.cfg.ky2).mul b) ∧
        valuePlane t 1 n = (((F64.ofNat 128).sub ((k s.cfg.kcb0).mul r)).sub
          ((k s.cfg.kcb1).mul g)).add ((k s.cfg.kcb2).mul b) ∧
        valuePlane t 2 n = (((F64.ofNat 128).add ((k s.cfg.kcr0).mul r)).sub
          ((k s.cfg.kcr1).mul g)).sub ((k s.cfg.kcr2).mul b)) ∧
      (s.cfg.arith = .opaqueFn → ∀ p < 3, ∀ n < s.imgW.toNat * s.imgH.toNat,
        t.readPlane p n = Config.cscfOpaque p n (s.readPix (4 * n)) (s.readPix (4 * n + 1))
          (s.readPix (4 * n + 2))) ∧
      (∀ a, (∀ p < 3, ∀ n < s.imgW.toNat * s.imgH.toNat, ¬ inSample a (planeOff p n)) →
        t.readByte a = s.readByte a)

/-- CSCI in flight completes: the R, G and B bytes of every pixel below `N` are the saturated values, NV
and SAT are set by the events and never cleared, and nothing else changes, alpha included
(40_colorspace.md R121, R123). -/
def Obligations.CsciCompletes : Prop :=
  ∀ s : State, s.busy = true → geometryLegal s →
    ∃ (t : State) (value : Nat → Nat → F64), exec .csci s = .next t ∧
      (∀ n < s.imgW.toNat * s.imgH.toNat,
        let y := valuePlane s 0 n
        let cb := valuePlane s 1 n
        let cr := valuePlane s 2 n
        (s.cfg.arith = .ref64 →
          value n 0 = y.add ((k s.cfg.ki0).mul (cr.sub (F64.ofNat 128))) ∧
          value n 1 = (y.sub ((k s.cfg.ki1).mul (cb.sub (F64.ofNat 128)))).sub
            ((k s.cfg.ki2).mul (cr.sub (F64.ofNat 128))) ∧
          value n 2 = y.add ((k s.cfg.ki3).mul (cb.sub (F64.ofNat 128)))) ∧
        (s.cfg.arith = .opaqueFn → ∀ ch < 3, value n ch =
          F64.ofBits (Config.csciOpaque ch n (s.readPlane 0 n) (s.readPlane 1 n)
            (s.readPlane 2 n)))) ∧
      (∀ n < s.imgW.toNat * s.imgH.toNat, ∀ ch < 3,
        t.readPix (4 * n + ch) = (sat8 (value n ch)).1) ∧
      (t.nv = true ↔ s.nv = true ∨
        ∃ n < s.imgW.toNat * s.imgH.toNat, ∃ ch < 3, (sat8 (value n ch)).2.1 = true) ∧
      (t.sat = true ↔ s.sat = true ∨
        ∃ n < s.imgW.toNat * s.imgH.toNat, ∃ ch < 3, (sat8 (value n ch)).2.2 = true) ∧
      (∀ a, (∀ n < s.imgW.toNat * s.imgH.toNat, ∀ ch < 3, a ≠ pixOff (4 * n + ch)) →
        t.readByte a = s.readByte a) ∧
      Completed s t ∧ VKept s t ∧ WKept s t

/-- FDCT in flight completes, for all register choices, in place too: every element is the pseudocode's
double sum (41_dct.md R142). -/
def Obligations.FdctCompletes : Prop :=
  ∀ (d a : Fin 8) (s : State), s.busy = true →
    ∃ t, exec (.fdct d a) s = .next t ∧ WritesOnlyV d s t ∧
      (s.cfg.arith = .ref64 → ∀ p q : Fin 8,
        valueV t d ⟨p.val * 8 + q.val, by omega⟩ = fdctResult s a p.val q.val) ∧
      (s.cfg.arith = .opaqueFn → ∀ e, t.readV d e = Config.fdctOpaque e.val s.v[a.val])

/-- IDCT in flight completes, for all register choices, in place too: every element is the pseudocode's
double sum (41_dct.md R143). -/
def Obligations.IdctCompletes : Prop :=
  ∀ (d a : Fin 8) (s : State), s.busy = true →
    ∃ t, exec (.idct d a) s = .next t ∧ WritesOnlyV d s t ∧
      (s.cfg.arith = .ref64 → ∀ r c : Fin 8,
        valueV t d ⟨r.val * 8 + c.val, by omega⟩ = idctResult s a r.val c.val) ∧
      (s.cfg.arith = .opaqueFn → ∀ e, t.readV d e = Config.idctOpaque e.val s.v[a.val])

/-- DOWN in flight completes: every element is the mean of its 2x2 region, summed row by row
(42_resample.md R160). -/
def Obligations.DownCompletes : Prop :=
  ∀ (d a : Fin 8) (j : Fin 2) (s : State), s.busy = true → a.val = j.val →
    ∃ t, exec (.down d a) s = .next t ∧ WritesOnlyV d s t ∧
      ∀ r c : Fin 8,
        let e : Fin 64 := ⟨r.val * 8 + c.val, by omega⟩
        let e00 : Fin 256 := ⟨2 * r.val * 16 + 2 * c.val, by omega⟩
        let e01 : Fin 256 := ⟨2 * r.val * 16 + 2 * c.val + 1, by omega⟩
        let e10 : Fin 256 := ⟨(2 * r.val + 1) * 16 + 2 * c.val, by omega⟩
        let e11 : Fin 256 := ⟨(2 * r.val + 1) * 16 + 2 * c.val + 1, by omega⟩
        (s.cfg.arith = .ref64 → valueV t d e =
          ((((valueW s j e00).add (valueW s j e01)).add (valueW s j e10)).add
            (valueW s j e11)).mul F64.quarter) ∧
        (s.cfg.arith = .opaqueFn → t.readV d e = Config.downOpaque e.val (s.readW j e00)
          (s.readW j e01) (s.readW j e10) (s.readW j e11))

/-- UP in flight completes: every bit pattern is copied to its 2x2 region unchanged, under both `ARITH`
settings (42_resample.md R161). -/
def Obligations.UpCompletes : Prop :=
  ∀ (d a : Fin 8) (j : Fin 2) (s : State), s.busy = true → d.val = j.val →
    ∃ t, exec (.up d a) s = .next t ∧ WritesOnlyW j s t ∧
      ∀ r c : Fin 16, t.readW j ⟨r.val * 16 + c.val, by omega⟩ =
        s.readV a ⟨r.val / 2 * 8 + c.val / 2, by omega⟩

/-- VSUB in flight completes for all register choices: every element is the difference
(42_resample.md R162). -/
def Obligations.VsubCompletes : Prop :=
  ∀ (d a b : Fin 8) (s : State), s.busy = true →
    ∃ t, exec (.vsub d a b) s = .next t ∧ WritesOnlyV d s t ∧
      ∀ e, (s.cfg.arith = .ref64 → valueV t d e = (valueV s a e).sub (valueV s b e)) ∧
        (s.cfg.arith = .opaqueFn →
          t.readV d e = Config.vsubOpaque e.val (s.readV a e) (s.readV b e))

/-- WADD in flight completes for all register choices of `W0` and `W1`: every element is the sum
(42_resample.md R163). -/
def Obligations.WaddCompletes : Prop :=
  ∀ (d a b : Fin 8) (jd ja jb : Fin 2) (s : State), s.busy = true → d.val = jd.val →
    a.val = ja.val → b.val = jb.val →
    ∃ t, exec (.wadd d a b) s = .next t ∧ WritesOnlyW jd s t ∧
      ∀ e, (s.cfg.arith = .ref64 → valueW t jd e = (valueW s ja e).add (valueW s jb e)) ∧
        (s.cfg.arith = .opaqueFn →
          t.readW jd e = Config.waddOpaque e.val (s.readW ja e) (s.readW jb e))

/-- BLD8 in flight completes: the register holds the 64 samples of the block, row-major, copied exactly;
the plane is kept (43_block_indexer.md R181 to R183). -/
def Obligations.Bld8Completes : Prop :=
  ∀ (r : Fin 8) (pl : Fin 4) (kk : Nat) (s : State), s.busy = true → pl.val ≤ 2 → geometryLegal s →
    kk < (s.imgW.toNat / 8) * (s.imgH.toNat / 8) →
    ∃ t, exec (.bld8 r pl kk) s = .next t ∧ WritesOnlyV r s t ∧
      ∀ rr cc : Fin 8, t.readV r ⟨rr.val * 8 + cc.val, by omega⟩ =
        s.readPlane pl.val ((kk / (s.imgW.toNat / 8) * 8 + rr.val) * s.imgW.toNat +
          (kk % (s.imgW.toNat / 8) * 8 + cc.val))

/-- BLD16 in flight completes: as BLD8 on the 16-grid (43_block_indexer.md R185). -/
def Obligations.Bld16Completes : Prop :=
  ∀ (r : Fin 8) (j : Fin 2) (pl : Fin 4) (kk : Nat) (s : State), s.busy = true → r.val = j.val →
    pl.val ≤ 2 → geometryLegal s → kk < (s.imgW.toNat / 16) * (s.imgH.toNat / 16) →
    ∃ t, exec (.bld16 r pl kk) s = .next t ∧ WritesOnlyW j s t ∧
      ∀ rr cc : Fin 16, t.readW j ⟨rr.val * 16 + cc.val, by omega⟩ =
        s.readPlane pl.val ((kk / (s.imgW.toNat / 16) * 16 + rr.val) * s.imgW.toNat +
          (kk % (s.imgW.toNat / 16) * 16 + cc.val))

/-- BST8 in flight completes: the 64 samples of the block take the register's elements exactly, and
every byte outside those samples is kept, in every plane, `PIX` and `BIT`
(43_block_indexer.md R184). -/
def Obligations.Bst8Completes : Prop :=
  ∀ (r : Fin 8) (pl : Fin 4) (kk : Nat) (s : State), s.busy = true → pl.val ≤ 2 → geometryLegal s →
    kk < (s.imgW.toNat / 8) * (s.imgH.toNat / 8) →
    ∃ t, exec (.bst8 r pl kk) s = .next t ∧ WritesOnlyMemory s t ∧
      (∀ rr cc : Fin 8, t.readPlane pl.val ((kk / (s.imgW.toNat / 8) * 8 + rr.val) * s.imgW.toNat +
        (kk % (s.imgW.toNat / 8) * 8 + cc.val)) =
          s.readV r ⟨rr.val * 8 + cc.val, by omega⟩) ∧
      (∀ a, (∀ rr cc : Fin 8, ¬ inSample a (planeOff pl.val
          ((kk / (s.imgW.toNat / 8) * 8 + rr.val) * s.imgW.toNat +
            (kk % (s.imgW.toNat / 8) * 8 + cc.val)))) →
        t.readByte a = s.readByte a)

/-- BST16 in flight completes: as BST8 on the 16-grid, 256 samples (43_block_indexer.md R187). -/
def Obligations.Bst16Completes : Prop :=
  ∀ (r : Fin 8) (j : Fin 2) (pl : Fin 4) (kk : Nat) (s : State), s.busy = true → r.val = j.val →
    pl.val ≤ 2 → geometryLegal s → kk < (s.imgW.toNat / 16) * (s.imgH.toNat / 16) →
    ∃ t, exec (.bst16 r pl kk) s = .next t ∧ WritesOnlyMemory s t ∧
      (∀ rr cc : Fin 16, t.readPlane pl.val
        ((kk / (s.imgW.toNat / 16) * 16 + rr.val) * s.imgW.toNat +
          (kk % (s.imgW.toNat / 16) * 16 + cc.val)) =
            s.readW j ⟨rr.val * 16 + cc.val, by omega⟩) ∧
      (∀ a, (∀ rr cc : Fin 16, ¬ inSample a (planeOff pl.val
          ((kk / (s.imgW.toNat / 16) * 16 + rr.val) * s.imgW.toNat +
            (kk % (s.imgW.toNat / 16) * 16 + cc.val)))) →
        t.readByte a = s.readByte a)

/-- LSBE in flight completes: bit 0 of every colour byte of the pixels below `N` is the bit of the bit
memory, its other bits are kept, alpha is 255, and every other byte is kept (44_lsb.md R202). -/
def Obligations.LsbeCompletes : Prop :=
  ∀ s : State, s.busy = true → geometryLegal s →
    ∃ t, exec .lsbe s = .next t ∧ WritesOnlyMemory s t ∧
      (∀ n < s.imgW.toNat * s.imgH.toNat, ∀ ch < 3,
        (t.readPix (4 * n + ch)).getLsbD 0 = s.readBit (3 * n + ch) ∧
        ∀ b, 1 ≤ b → (t.readPix (4 * n + ch)).getLsbD b = (s.readPix (4 * n + ch)).getLsbD b) ∧
      (∀ n < s.imgW.toNat * s.imgH.toNat, t.readPix (4 * n + 3) = 255#8) ∧
      (∀ a, (∀ x < 4 * (s.imgW.toNat * s.imgH.toNat), a ≠ pixOff x) →
        t.readByte a = s.readByte a)

/-- LSBX in flight completes: bit `3n + c` of the bit memory is the parity of that byte, every other bit
and every byte outside the bit memory is kept (44_lsb.md R203). -/
def Obligations.LsbxCompletes : Prop :=
  ∀ s : State, s.busy = true → geometryLegal s →
    ∃ t, exec .lsbx s = .next t ∧ WritesOnlyMemory s t ∧
      (∀ n < s.imgW.toNat * s.imgH.toNat, ∀ ch < 3,
        t.readBit (3 * n + ch) = decide ((s.readPix (4 * n + ch)).toNat % 2 = 1)) ∧
      (∀ x, 3 * (s.imgW.toNat * s.imgH.toNat) ≤ x → t.readBit x = s.readBit x) ∧
      (∀ a, (∀ x < 3 * (s.imgW.toNat * s.imgH.toNat), a ≠ bitOff (x / 8)) →
        t.readByte a = s.readByte a)

/-! # Invariants and rules of the whole machine -/

/-- The state after reset meets the invariant, its instance is legal and no byte of memory is out of
bounds. That no byte is listed is how the model holds the unspecified contents (log entry 4). -/
def Obligations.ResetMeetsInvariant : Prop :=
  Inv State.reset ∧ State.reset.mem = [] ∧ MemoryInBounds State.reset ∧ State.reset.cfg.legal

/-- Every step keeps the invariant: canonical memory, agreeing status, a validated command in flight. -/
def Obligations.StepKeepsInvariant : Prop :=
  ∀ s t : State, Inv s → step s = .next t → Inv t

/-- Every step keeps every listed byte inside a memory of the instance: no command and no access leaves
its plane, `PIX` or `BIT` (43_block_indexer.md R182, 10_state.md R23 to R25). -/
def Obligations.StepStaysInBounds : Prop :=
  ∀ s t : State, s.cfg.legal → Inv s → MemoryInBounds s → step s = .next t → MemoryInBounds t

/-- From a state that meets the invariant a step always answers a next state: nothing fails during
execution (45_control.md R222, 60_exceptions.md R230). What a step is with no event left, the completion
of a busy block and no change of an idle one, is the model's choice (log entries 1 and 15). -/
def Obligations.InvariantNeverStops : Prop := ∀ s : State, Inv s → ∃ t, step s = .next t

/-- No step changes the instance's parameters (00_scope.md R7). -/
def Obligations.InstanceIsFixed : Prop := ∀ s t : State, step s = .next t → t.cfg = s.cfg

/-- Only the completion of a CSCI sets NV or SAT (10_state.md R40); it is the engine's turn or, the
model's choice (log entry 1), a step with no event left. -/
def Obligations.OnlyCsciSetsFlags : Prop :=
  ∀ s t : State, step s = .next t →
    ((t.nv = true ∧ s.nv = false) ∨ (t.sat = true ∧ s.sat = false)) →
    s.busy = true ∧ decode s.pend = .instr .csci ∧ (s.inbox = [] ∨ s.inbox.head? = some .engine)

/-- While a command stays in flight, no step changes the geometry, `PEND`, a block register or a byte of
memory (10_state.md R44, 20_memory.md R69). -/
def Obligations.BusyLocksOperands : Prop :=
  ∀ s t : State, s.busy = true → step s = .next t → t.busy = true →
    t.imgW = s.imgW ∧ t.imgH = s.imgH ∧ t.pend = s.pend ∧ t.v = s.v ∧ t.w = s.w ∧ t.mem = s.mem ∧
    t.epoch = s.epoch

/-- The LSB commands touch neither a plane nor a block register, and no command but the colour-space
ones touches both `PIX` or `BIT` and a plane: the others leave `PIX` and `BIT` alone
(44_lsb.md R205). -/
def Obligations.LsbAndDctUseSeparateMemories : Prop :=
  ∀ (i : Instr) (s t : State), s.busy = true → s.cfg.legal → exec i s = .next t →
    (isLsb i → (∀ p < 3, ∀ n < s.cfg.maxPix, t.readPlane p n = s.readPlane p n) ∧
      VKept s t ∧ WKept s t) ∧
    (¬ isLsb i → ¬ isColor i → (∀ a < 4 * s.cfg.maxPix, t.readPix a = s.readPix a) ∧
      (∀ x < 3 * s.cfg.maxPix, t.readBit x = s.readBit x))

/-! # The block indexer -/

/-- Every sample of a block in range lies in the image (43_block_indexer.md R182). -/
def Obligations.BlockSamplesInImage : Prop :=
  ∀ (s : State) (size kk r c : Nat), geometryLegal s → size = 8 ∨ size = 16 →
    kk < s.blockCount size → r < size → c < size →
    s.blkIndex size kk r c < s.imgW.toNat * s.imgH.toNat ∧
    s.imgW.toNat * s.imgH.toNat ≤ s.cfg.maxPix

/-- Two blocks of one grid never share a sample, and no block names a sample twice
(43_block_indexer.md R182). -/
def Obligations.BlocksAreDisjoint : Prop :=
  ∀ (s : State) (size k1 r1 c1 k2 r2 c2 : Nat), size = 8 ∨ size = 16 →
    k1 < s.blockCount size → k2 < s.blockCount size → r1 < size → c1 < size → r2 < size →
    c2 < size → s.blkIndex size k1 r1 c1 = s.blkIndex size k2 r2 c2 → k1 = k2 ∧ r1 = r2 ∧ c1 = c2

/-- A load then a store of the same block changes no byte of memory, on both grids
(43_block_indexer.md R188). -/
def Obligations.LoadThenStoreKeepsMemory : Prop :=
  ∀ (r : Fin 8) (pl : Fin 4) (kk : Nat) (s t u : State), s.busy = true →
    ((exec (.bld8 r pl kk) s = .next t ∧ exec (.bst8 r pl kk) { t with busy := true } = .next u) ∨
     (exec (.bld16 r pl kk) s = .next t ∧ exec (.bst16 r pl kk) { t with busy := true } = .next u)) →
    MemoryKept s u

/-- A store then a load of the same block returns the stored register exactly, on both grids
(43_block_indexer.md R188). -/
def Obligations.StoreThenLoadReturnsRegister : Prop :=
  ∀ (r r' : Fin 8) (pl : Fin 4) (kk : Nat) (s t u : State), s.busy = true →
    (exec (.bst8 r pl kk) s = .next t → exec (.bld8 r' pl kk) { t with busy := true } = .next u →
      ∀ e, u.readV r' e = s.readV r e) ∧
    (∀ j j' : Fin 2, r.val = j.val → r'.val = j'.val → exec (.bst16 r pl kk) s = .next t →
      exec (.bld16 r' pl kk) { t with busy := true } = .next u →
      ∀ e, u.readW j' e = s.readW j e)

/-- A store to another block keeps the reference block, bit for bit: BST8 with `k >= 1` keeps block 0 of
the 8-grid, BST16 with `k >= 1` keeps block 0 of both grids (43_block_indexer.md R186,
70_reset_and_hazards.md R277). -/
def Obligations.StoresKeepReferenceBlock : Prop :=
  ∀ (r : Fin 8) (pl : Fin 4) (kk : Nat) (s t : State), s.busy = true → s.cfg.legal → 1 ≤ kk →
    (exec (.bst8 r pl kk) s = .next t → ∀ p < 3, ∀ rr < 8, ∀ cc < 8,
      t.readPlane p (rr * s.imgW.toNat + cc) = s.readPlane p (rr * s.imgW.toNat + cc)) ∧
    (exec (.bst16 r pl kk) s = .next t → ∀ p < 3, ∀ rr < 16, ∀ cc < 16,
      t.readPlane p (rr * s.imgW.toNat + cc) = s.readPlane p (rr * s.imgW.toNat + cc))

/-! # The LSB embedder -/

/-- 44_lsb.md R200, R201: writing a bit replaces bit 0 of the byte and nothing else, and reading gives
bit 0. -/
def Obligations.LsbWriteReplacesBitZero : Prop :=
  ∀ (v : Byte) (bit : Bool),
    lsbWrite v bit = v.extractLsb' 1 7 ++ BitVec.ofBool bit ∧ lsbRead v = v.getLsbD 0

/-- 44_lsb.md R204: the byte laws, then the laws of the commands with the geometry unchanged: LSBE then
LSBX brings the bits back, LSBE twice is LSBE once, LSBX then LSBE changes only alpha. -/
def Obligations.LsbLaws : Prop :=
  (∀ (v : Byte) (bit : Bool), lsbRead (lsbWrite v bit) = bit ∧
    ((lsbWrite v bit).toNat : Int) - v.toNat ≤ 1 ∧ (v.toNat : Int) - (lsbWrite v bit).toNat ≤ 1 ∧
    lsbWrite (lsbWrite v bit) bit = lsbWrite v bit) ∧
  (∀ s t u : State, s.busy = true → s.cfg.legal → exec .lsbe s = .next t →
    (exec .lsbx { t with busy := true } = .next u →
      ∀ x < 3 * (s.imgW.toNat * s.imgH.toNat), u.readBit x = s.readBit x) ∧
    (exec .lsbe { t with busy := true } = .next u → MemoryKept t u)) ∧
  (∀ s t u : State, s.busy = true → s.cfg.legal → exec .lsbx s = .next t →
    exec .lsbe { t with busy := true } = .next u →
    ∀ a, (∀ n < s.imgW.toNat * s.imgH.toNat, a ≠ 4 * n + 3) → a < 4 * s.cfg.maxPix →
      u.readPix a = s.readPix a)

/-! # Arithmetic -/

/-- Division by a power of two rounds to nearest, ties to even (00_scope.md R9). -/
def Obligations.RoundDivIsNearestEven : Prop :=
  ∀ a t : Nat, 2 * (a : Int) - 2 * (roundDiv a t * 2 ^ t : Nat) ≤ 2 ^ t ∧
    2 * (roundDiv a t * 2 ^ t : Nat) - 2 * (a : Int) ≤ 2 ^ t ∧
    ((2 * (a : Int) - 2 * (roundDiv a t * 2 ^ t : Nat) = 2 ^ t ∨
      2 * (roundDiv a t * 2 ^ t : Nat) - 2 * (a : Int) = 2 ^ t) → roundDiv a t % 2 = 0)

/-- `roundUnits a j` is nearest to `a / 2^j` among all numbers with at most 53 significant bits that are
whole units, and is one of them (00_scope.md R9, `RN`). -/
def Obligations.RoundUnitsIsNearest : Prop :=
  ∀ a j : Nat, (∃ m e, m ≤ 2 ^ 53 ∧ roundUnits a j = m * 2 ^ e) ∧
    ∀ m e : Nat, m < 2 ^ 53 →
      |(a : Int) - (roundUnits a j * 2 ^ j : Nat)| ≤ |(a : Int) - (m * 2 ^ e * 2 ^ j : Nat)|

/-- 00_scope.md R12: `round_half_up(x)` is the integer `n` with `n - 1/2 <= x < n + 1/2`, on the exact
value: here in units, doubled. -/
def Obligations.RoundHalfUpBounds : Prop :=
  ∀ (neg : Bool) (mag : Nat),
    2 * roundHalfUp neg mag * oneUnits - oneUnits ≤ 2 * signedUnits neg mag ∧
    2 * signedUnits neg mag < 2 * roundHalfUp neg mag * oneUnits + oneUnits

/-- 40_colorspace.md R121: `sat8` on every kind of value. -/
def Obligations.Sat8Table : Prop :=
  sat8 .nan = (0#8, true, false) ∧ sat8 (.inf false) = (255#8, false, true) ∧
  sat8 (.inf true) = (0#8, false, true) ∧
  ∀ (neg : Bool) (mag : Nat),
    (roundHalfUp neg mag < 0 → sat8 (.fin neg mag) = (0#8, false, true)) ∧
    (255 < roundHalfUp neg mag → sat8 (.fin neg mag) = (255#8, false, true)) ∧
    (0 ≤ roundHalfUp neg mag → roundHalfUp neg mag ≤ 255 →
      ((sat8 (.fin neg mag)).1.toNat : Int) = roundHalfUp neg mag ∧
      (sat8 (.fin neg mag)).2 = (false, false))

/-- A bit pattern that is no NaN is given back by reading its value and storing it, and a NaN's stored
pattern is a NaN and can be any (00_scope.md R8, R9; 93_implementation_defined.md U3). -/
def Obligations.SamplePatternsRoundTrip : Prop :=
  (∀ x free : Sample, isNaN x = false → (F64.ofBits x).toBits free = x) ∧
  (∀ free : Sample, isNaN (F64.nan.toBits free) = true) ∧
  (∀ x : Sample, isNaN x = true → F64.ofBits x = .nan ∧ F64.nan.toBits x = x)

/-! # The host's window -/

/-- 20_memory.md R68: which accesses are rejected, by place, width, alignment and `BUSY`, and all a
rejected one does. -/
def Obligations.RejectedAccesses : Prop :=
  ∀ (s : State) (off : Offset) (w : Width) (data : BitVec 64) (rest : List Event),
    s.cfg.legal →
    (s.inbox = .read off w :: rest → ¬ readServed s off.toNat w.bytes →
      step s = .next (recorded off { s with inbox := rest, replies := 0#64 :: s.replies })) ∧
    (s.inbox = .write off w data :: rest → ¬ writeServed s off.toNat w.bytes →
      step s = .next (recorded off { s with inbox := rest }))

/-- 20_memory.md R71, 10_state.md R43: a served read changes nothing but the reply to the host; the reply
of a register is its fields, in every state (10_state.md R27 to R43, 60_exceptions.md R231). -/
def Obligations.ServedReadHasNoSideEffect : Prop :=
  ∀ (s : State) (off : Offset) (w : Width) (rest : List Event), s.cfg.legal →
    s.inbox = .read off w :: rest → readServed s off.toNat w.bytes →
    ∃ x, step s = .next { s with inbox := rest, replies := x :: s.replies } ∧
      (off.toNat < 0x1000 → RegisterReads s off.toNat x)

/-- 20_memory.md R61, R63, R71: a 64-bit read of any sample the host can reach returns the element at
its offset; a 64-bit write stores the pattern exactly as written to that element and does nothing else;
and the reads of it, whole and in halves, return what was written. -/
def Obligations.SampleWriteThenRead : Prop :=
  ∀ (s : State) (off : Offset) (x : BitVec 64), s.busy = false → s.cfg.legal →
    sampleOffset s.cfg off.toNat →
    (∃ y, serve (.read off .b8) s = .next { s with replies := y :: s.replies } ∧
      SampleIs s off.toNat y) ∧
    ∃ t u lo hi, serve (.write off .b8 x) s = .next t ∧
      StoresOnly off.toNat 8 s t ∧ SampleIs t off.toNat x ∧
      serve (.read off .b8) t = .next u ∧ u.replies = x :: s.replies ∧
      serve (.read off .b4) t = .next lo ∧
      lo.replies = (x.extractLsb' 0 32).setWidth 64 :: s.replies ∧
      serve (.read (off + 4) .b4) t = .next hi ∧
      hi.replies = (x.extractLsb' 32 32).setWidth 64 :: s.replies

/-- 20_memory.md R63, R71: a 32-bit write replaces its half of the pattern, leaves the other half, and
does nothing else. -/
def Obligations.HalfWriteKeepsOtherHalf : Prop :=
  ∀ (s : State) (off : Offset) (x : BitVec 64) (y : Word), s.busy = false → s.cfg.legal →
    sampleOffset s.cfg off.toNat →
    ∃ t lo hi lo' hi', serve (.write off .b8 x) s = .next t ∧
      serve (.write off .b4 (y.setWidth 64)) t = .next lo ∧
      StoresOnly off.toNat 4 t lo ∧ SampleIs lo off.toNat (x.extractLsb' 32 32 ++ y) ∧
      serve (.read off .b8) lo = .next lo' ∧
      lo'.replies = (x.extractLsb' 32 32 ++ y) :: s.replies ∧
      serve (.write (off + 4) .b4 (y.setWidth 64)) t = .next hi ∧
      StoresOnly (off.toNat + 4) 4 t hi ∧ SampleIs hi off.toNat (y ++ x.extractLsb' 0 32) ∧
      serve (.read off .b8) hi = .next hi' ∧
      hi'.replies = (y ++ x.extractLsb' 0 32) :: s.replies

/-- 20_memory.md R62, R65, R71: a 32-bit read of `PIX` at pixel `n` returns `{A, B, G, R}`; every
aligned access of 1, 2 or 4 bytes moves the bytes from `PIX[a]` up, lowest first, and a write does nothing
else. -/
def Obligations.PixelWordIsLittleEndian : Prop :=
  (∀ (s : State) (n : Nat) (off : Offset), s.busy = false → s.cfg.legal → n < s.cfg.maxPix →
    off.toNat = 0x04000000 + 4 * n →
    ∃ t, serve (.read off .b4) s = .next t ∧
      t.replies = (s.readPix (4 * n + 3) ++ s.readPix (4 * n + 2) ++ s.readPix (4 * n + 1) ++
        s.readPix (4 * n)).setWidth 64 :: s.replies) ∧
  (∀ (s : State) (a : Nat) (off : Offset) (w : Width) (data : BitVec 64), s.busy = false →
    s.cfg.legal → w ≠ .b8 → a % w.bytes = 0 → a < 4 * s.cfg.maxPix → off.toNat = 0x04000000 + a →
    (∃ x, serve (.read off w) s = .next { s with replies := x :: s.replies } ∧
      ∀ i < 8, x.extractLsb' (8 * i) 8 = if i < w.bytes then s.readPix (a + i) else 0#8) ∧
    ∃ t, serve (.write off w data) s = .next t ∧ StoresOnly off.toNat w.bytes s t ∧
      ∀ i < w.bytes, t.readPix (a + i) = data.extractLsb' (8 * i) 8)

/-- 20_memory.md R66, R71: a 32-bit word of the bit aperture holds `BIT[32w + t]` in bit `t`; every
aligned access of 1, 2 or 4 bytes at byte `y` moves the bits from `BIT[8y]` up, and a write does nothing
else. -/
def Obligations.BitWordLayout : Prop :=
  (∀ (s : State) (n : Nat) (off : Offset), s.busy = false → s.cfg.legal →
    32 * n < 3 * s.cfg.maxPix → off.toNat = 0x01000000 + 4 * n →
    ∃ t x, serve (.read off .b4) s = .next t ∧ t.replies = x :: s.replies ∧
      ∀ b < 32, x.getLsbD b = s.readBit (32 * n + b)) ∧
  (∀ (s : State) (y : Nat) (off : Offset) (w : Width) (data : BitVec 64), s.busy = false →
    s.cfg.legal → w ≠ .b8 → y % w.bytes = 0 → 8 * y < 3 * s.cfg.maxPix →
    off.toNat = 0x01000000 + y →
    (∃ x, serve (.read off w) s = .next { s with replies := x :: s.replies } ∧
      ∀ b < 64, x.getLsbD b = (decide (b < 8 * w.bytes) && s.readBit (8 * y + b))) ∧
    ∃ t, serve (.write off w data) s = .next t ∧ StoresOnly off.toNat w.bytes s t ∧
      ∀ b < 8 * w.bytes, t.readBit (8 * y + b) = data.getLsbD b)

/-- What a served 32-bit write to each register does besides `CMD` and the soft reset: `CTRL` takes its
three bits (10_state.md R30), `STATUS` and `FLAGS` clear the bits written as 1, `ERR` with its cause and
word and `ACCERR` with its address, a 1 to a bit that is 0 doing nothing (R31, R40; 60_exceptions.md
R242), the geometry takes 16 bits (R33, R34), and every other register ignores it (R27, R43). That a write
to `FLAGS` is served also while `BUSY = 1` is the model's reading (log entry 17). -/
def Obligations.RegisterWrites : Prop :=
  ∀ (s : State) (x : Word),
    (x.getLsbD 31 = false → serve (wr32 0x008#30 x) s = .next { s with
      ieDone := x.getLsbD 0, ieErr := x.getLsbD 1, refprot := x.getLsbD 2 }) ∧
    serve (wr32 0x00C#30 x) s = .next { s with
      done := s.done && !x.getLsbD 1
      err := s.err && !x.getLsbD 2
      errCause := if (x.getLsbD 2 && s.err) = true then none else s.errCause
      errInfo := if (x.getLsbD 2 && s.err) = true then 0#32 else s.errInfo
      ovr := s.ovr && !x.getLsbD 3
      accerr := s.accerr && !x.getLsbD 4
      accAddr := if (x.getLsbD 4 && s.accerr) = true then 0#30 else s.accAddr } ∧
    serve (wr32 0x034#30 x) s = .next { s with
      nv := s.nv && !x.getLsbD 0, sat := s.sat && !x.getLsbD 1 } ∧
    (s.busy = false →
      serve (wr32 0x014#30 x) s = .next { s with imgW := x.extractLsb' 0 16 } ∧
      serve (wr32 0x018#30 x) s = .next { s with imgH := x.extractLsb' 0 16 }) ∧
    (∀ off : Offset, off.toNat < 0x1000 → off.toNat % 4 = 0 →
      off.toNat ∉ [0x008, 0x00C, 0x010, 0x014, 0x018, 0x034] → serve (wr32 off x) s = .next s)

/-- 70_reset_and_hazards.md R272: a soft reset puts every register at its reset value, `BUSY` or not;
idle it keeps every memory; with a command in flight it changes only that command's destinations. -/
def Obligations.SoftReset : Prop :=
  ∀ (s : State) (x : Word), x.getLsbD 31 = true →
    ∃ t, serve (wr32 0x008#30 x) s = .next t ∧
      (t.ieDone = false ∧ t.ieErr = false ∧ t.refprot = true ∧ t.busy = false ∧ t.done = false ∧
        t.err = false ∧ t.ovr = false ∧ t.accerr = false ∧ t.cmdLast = 0#32 ∧ t.imgW = 0#16 ∧
        t.imgH = 0#16 ∧ t.errCause = none ∧ t.errInfo = 0#32 ∧ t.nv = false ∧ t.sat = false ∧
        t.accAddr = 0#30 ∧ t.irq = false) ∧
      (s.busy = false → t.v = s.v ∧ t.w = s.w ∧ MemoryKept s t) ∧
      (∀ i, s.busy = true → decode s.pend = .instr i →
        (∀ v e, (∀ b, (effectOf i s).v ≠ some (v, b)) → t.readV v e = s.readV v e) ∧
        (∀ w e, (∀ b, (effectOf i s).w ≠ some (w, b)) → t.readW w e = s.readW w e) ∧
        (∀ a, (∀ c ∈ (effectOf i s).cells, c.1 ≠ a) →
          (∀ y ∈ (effectOf i s).bits, bitOff (y.1 / 8) ≠ a) → t.readByte a = s.readByte a) ∧
        (∀ y, (effectOf i s).cells = [] → (∀ z ∈ (effectOf i s).bits, z.1 ≠ y) →
          t.readBit y = s.readBit y))

/-- 70_reset_and_hazards.md R270, R271: a power-on reset puts every register at its reset value, and the
command in flight, if any, never completes. The memories are unspecified; the model's choice is that each
element and each byte then holds a new free value, listed nowhere (log entry 4), and that the instance,
the events left and the replies are kept (log entry 18). -/
def Obligations.PowerOnReset : Prop :=
  ∀ s : State, ∃ t, serve .powerOn s = .next t ∧
    (t.ieDone = false ∧ t.ieErr = false ∧ t.refprot = true ∧ t.busy = false ∧ t.done = false ∧
      t.err = false ∧ t.ovr = false ∧ t.accerr = false ∧ t.cmdLast = 0#32 ∧ t.imgW = 0#16 ∧
      t.imgH = 0#16 ∧ t.errCause = none ∧ t.errInfo = 0#32 ∧ t.nv = false ∧ t.sat = false ∧
      t.accAddr = 0#30 ∧ t.irq = false ∧ t.geomOk = false) ∧
    (t.epoch = s.epoch + 1 ∧ t.v = powerOnV (s.epoch + 1) ∧ t.w = powerOnW (s.epoch + 1) ∧
      t.mem = [] ∧ (∀ a, t.readByte a = Config.powerOnByte (s.epoch + 1) a) ∧
      (∀ i e, t.readV i e = Config.powerOnSample (s.epoch + 1) (vOff i.val e.val)) ∧
      ∀ j e, t.readW j e = Config.powerOnSample (s.epoch + 1) (wOff j.val e.val)) ∧
    (t.cfg = s.cfg ∧ t.inbox = s.inbox ∧ t.replies = s.replies)

/-- 10_state.md R27: what each register reads right after reset. -/
def Obligations.ResetRegisterReads : Prop :=
  (List.range 16).map (fun n => State.reset.readCsr (4 * n)) =
    [0x44435438#32, 0x04000400#32, 0x00000004#32, 0#32, 0#32, 0#32, 0#32, 0#32, 0#32, 0#32, 0#32,
      0#32, 0#32, 0#32, 0#32, 0#32]

/-- 10_state.md R46: the `IRQ` level, `STATUS` bit 5 shows it, and it is low at reset. -/
def Obligations.IrqLevel : Prop :=
  State.reset.irq = false ∧ ∀ s : State, (s.irq = true ↔ (s.ieDone = true ∧ s.done = true) ∨
      (s.ieErr = true ∧ (s.err = true ∨ s.ovr = true ∨ s.accerr = true))) ∧
    s.statusWord.getLsbD 5 = s.irq

/-- 10_state.md R35 to R37, R42: the derived registers, as functions of the geometry. -/
def Obligations.DerivedGeometryRegisters : Prop :=
  ∀ s : State,
    (geometryLegal s → s.cfg.legal →
      (s.readCsr 0x01C).toNat = s.imgH.toNat / 8 * 2 ^ 16 + s.imgW.toNat / 8 ∧
      (s.readCsr 0x020).toNat = s.imgH.toNat / 16 * 2 ^ 16 + s.imgW.toNat / 16 ∧
      (s.readCsr 0x024).toNat = s.imgW.toNat / 8 * (s.imgH.toNat / 8) ∧
      (s.readCsr 0x028).toNat = s.imgW.toNat / 16 * (s.imgH.toNat / 16) ∧
      (s.readCsr 0x03C).toNat = 3 * (s.imgW.toNat * s.imgH.toNat)) ∧
    (¬ geometryLegal s → s.readCsr 0x01C = 0#32 ∧ s.readCsr 0x020 = 0#32 ∧
      s.readCsr 0x024 = 0#32 ∧ s.readCsr 0x028 = 0#32 ∧ s.readCsr 0x03C = 0#32)

/-! # The arithmetic of samples -/

/-- What `+`, `-` and `*` of two values are (00_scope.md R9, 60_exceptions.md R255): a finite result is
the exact one rounded to nearest, ties to even, an infinity from 2^1024 up; exact zeros, infinities and
NaNs are as IEEE 754 has them. The standard's contents are presumed (log entry 10). -/
def Obligations.ArithmeticIsIeee : Prop :=
  (∀ x : F64, F64.nan.add x = .nan ∧ x.add .nan = .nan ∧ F64.nan.sub x = .nan ∧ x.sub .nan = .nan ∧
    F64.nan.mul x = .nan ∧ x.mul .nan = .nan) ∧
  (∀ (p q : Bool) (n : Nat),
    (p = q → (F64.inf p).add (.inf q) = .inf p ∧ (F64.inf p).sub (.inf q) = .nan) ∧
    (p ≠ q → (F64.inf p).add (.inf q) = .nan ∧ (F64.inf p).sub (.inf q) = .inf p) ∧
    (F64.inf p).add (.fin q n) = .inf p ∧ (F64.fin q n).add (.inf p) = .inf p ∧
    (F64.inf p).sub (.fin q n) = .inf p ∧ (F64.fin q n).sub (.inf p) = .inf (!p) ∧
    (F64.inf p).mul (.inf q) = .inf (p != q) ∧
    (n = 0 → (F64.inf p).mul (.fin q n) = .nan ∧ (F64.fin q n).mul (.inf p) = .nan) ∧
    (n ≠ 0 → (F64.inf p).mul (.fin q n) = .inf (p != q) ∧
      (F64.fin q n).mul (.inf p) = .inf (p != q))) ∧
  (∀ (p q : Bool) (m n : Nat),
    (signedUnits p m + signedUnits q n = 0 → (F64.fin p m).add (.fin q n) = .fin (p && q) 0) ∧
    (signedUnits p m + signedUnits q n ≠ 0 →
      RoundedResult (decide (signedUnits p m + signedUnits q n < 0))
        (signedUnits p m + signedUnits q n).natAbs 0 ((F64.fin p m).add (.fin q n))) ∧
    (signedUnits p m - signedUnits q n = 0 → (F64.fin p m).sub (.fin q n) = .fin (p && !q) 0) ∧
    (signedUnits p m - signedUnits q n ≠ 0 →
      RoundedResult (decide (signedUnits p m - signedUnits q n < 0))
        (signedUnits p m - signedUnits q n).natAbs 0 ((F64.fin p m).sub (.fin q n))) ∧
    RoundedResult (p != q) (m * n) 1074 ((F64.fin p m).mul (.fin q n)))
end

