-- ==== Sys2Proof/Laws/Memory.lean ====
section
/-! SUPPORT. Laws of memory: read after write, canonical form, little-endian values, bits. -/

namespace Sys2Proof.Machine

theorem Memory.get?_write_same (m : Memory) (a : Nat) (b : Byte) : (m.write a b).get? a = some b := by
  induction m with
  | nil => simp [Memory.write, Memory.get?]
  | cons c rest ih =>
    simp only [Memory.write]
    split
    · simp [Memory.get?]
    · split
      · simp [Memory.get?]
      · simp [Memory.get?, *]

theorem Memory.get?_write_other (m : Memory) {a x : Nat} (b : Byte) (h : x ≠ a) :
    (m.write a b).get? x = m.get? x := by
  induction m with
  | nil => simp [Memory.write, Memory.get?, h]
  | cons c rest ih =>
    simp only [Memory.write]
    split
    · simp [Memory.get?, h]
    · split
      · next ha => subst ha; simp [Memory.get?, h]
      · simp [Memory.get?, ih]

theorem Memory.keys_write (m : Memory) (a : Nat) (b : Byte) {c : Host.Cell} (h : c ∈ m.write a b) :
    c = (a, b) ∨ c ∈ m := by
  induction m with
  | nil => simp_all [Memory.write]
  | cons d rest ih =>
    simp only [Memory.write] at h
    split at h
    · simpa using h
    · split at h
      · simp only [List.mem_cons] at h ⊢; tauto
      · simp only [List.mem_cons] at h ⊢
        rcases h with h | h
        · exact .inr (.inl h)
        · rcases ih h with h | h
          · exact .inl h
          · exact .inr (.inr h)

/-- A write keeps the canonical form. -/
theorem Memory.wf_write {m : Memory} (h : m.wf) (a : Nat) (b : Byte) : (m.write a b).wf := by
  induction m with
  | nil => simp [Memory.write]
  | cons d rest ih =>
    have hd := List.pairwise_cons.mp h
    simp only [Memory.write]
    split
    · next hlt =>
      refine List.pairwise_cons.mpr ⟨fun c hc => ?_, h⟩
      rcases List.mem_cons.mp hc with rfl | hc
      · exact hlt
      · exact lt_trans hlt (hd.1 c hc)
    · split
      · next ha => exact List.pairwise_cons.mpr ⟨fun c hc => ha ▸ hd.1 c hc, hd.2⟩
      · next h1 h2 =>
        refine List.pairwise_cons.mpr ⟨fun c hc => ?_, ih hd.2⟩
        rcases Memory.keys_write _ _ _ hc with rfl | hc
        · simp only [not_lt] at h1; simp only; omega
        · exact hd.1 c hc

theorem Memory.wf_writeCells {m : Memory} (h : m.wf) (cells : List Host.Cell) :
    (m.writeCells cells).wf := by
  induction cells generalizing m with
  | nil => exact h
  | cons c rest ih => exact ih (Memory.wf_write h c.1 c.2)

theorem Memory.keys_writeCells (m : Memory) (cells : List Host.Cell) {c : Host.Cell}
    (h : c ∈ m.writeCells cells) : c ∈ cells ∨ c ∈ m := by
  induction cells generalizing m with
  | nil => exact .inr h
  | cons d rest ih =>
    rcases ih (m.write d.1 d.2) h with h | h
    · exact .inl (List.mem_cons_of_mem _ h)
    · rcases Memory.keys_write _ _ _ h with rfl | h
      · exact .inl (List.mem_cons_self ..)
      · exact .inr h

/-- A byte no cell names is unchanged. -/
theorem Memory.get?_writeCells_other (m : Memory) {cells : List Host.Cell} {a : Nat}
    (h : ∀ c ∈ cells, c.1 ≠ a) : (m.writeCells cells).get? a = m.get? a := by
  induction cells generalizing m with
  | nil => rfl
  | cons d rest ih =>
    have := ih (m.write d.1 d.2) fun c hc => h c (List.mem_cons_of_mem _ hc)
    rw [← Memory.get?_write_other m d.2 (h d (List.mem_cons_self ..)).symm]
    exact this

/-- A byte that every cell naming it gives one value has that value. -/
theorem Memory.get?_writeCells_mem (m : Memory) {cells : List Host.Cell} {a : Nat} {b : Byte}
    (hmem : (a, b) ∈ cells) (hone : ∀ c ∈ cells, c.1 = a → c.2 = b) :
    (m.writeCells cells).get? a = some b := by
  induction cells generalizing m with
  | nil => simp at hmem
  | cons d rest ih =>
    show (Memory.writeCells (m.write d.1 d.2) rest).get? a = some b
    by_cases h : ∃ c ∈ rest, c.1 = a
    · obtain ⟨c, hc, rfl⟩ := h
      have hcb := hone c (List.mem_cons_of_mem _ hc) rfl
      subst hcb
      exact ih _ hc fun c' hc' => hone c' (List.mem_cons_of_mem _ hc')
    · rw [Memory.get?_writeCells_other _ fun c hc hca => h ⟨c, hc, hca⟩]
      rcases List.mem_cons.mp hmem with rfl | hmem
      · exact Memory.get?_write_same m a b
      · exact absurd ⟨_, hmem, rfl⟩ h

/-! ## Cells of little-endian values -/

theorem cellsAt_length (a : Nat) (bs : List Byte) : (cellsAt a bs).length = bs.length := by
  induction bs generalizing a with
  | nil => rfl
  | cons b rest ih => simp [cellsAt, ih]

theorem bytesLE_length (n x : Nat) : (bytesLE n x).length = n := by
  induction n generalizing x with
  | zero => rfl
  | succ n ih => simp [bytesLE, ih]

theorem mem_cellsAt {a : Nat} {bs : List Byte} {c : Host.Cell} :
    c ∈ cellsAt a bs ↔ a ≤ c.1 ∧ bs[c.1 - a]? = some c.2 := by
  induction bs generalizing a with
  | nil => simp [cellsAt]
  | cons b rest ih =>
    obtain ⟨x, y⟩ := c
    simp only [cellsAt, List.mem_cons, ih, Prod.mk.injEq]
    rcases Nat.lt_trichotomy x a with h | h | h
    · constructor
      · rintro (⟨h1, -⟩ | ⟨h1, -⟩) <;> omega
      · rintro ⟨h1, -⟩; omega
    · subst h; simp [eq_comm]
    · obtain ⟨k, rfl⟩ : ∃ k, x = a + 1 + k := ⟨x - (a + 1), by omega⟩
      have e1 : a + 1 + k - (a + 1) = k := by omega
      have e2 : a + 1 + k - a = k + 1 := by omega
      simp only [e1, e2, List.getElem?_cons_succ]
      constructor
      · rintro (⟨h1, -⟩ | ⟨-, h2⟩)
        · omega
        · exact ⟨by omega, h2⟩
      · rintro ⟨-, h2⟩; exact .inr ⟨by omega, h2⟩

/-- The cells of an `n`-byte value lie at its `n` offsets. -/
theorem mem_leCells_bounds {a n x : Nat} {c : Host.Cell} (h : c ∈ leCells a n x) :
    a ≤ c.1 ∧ c.1 < a + n := by
  have ⟨h1, h2⟩ := mem_cellsAt.mp h
  have h3 := (List.getElem?_eq_some_iff.mp h2).1
  rw [bytesLE_length] at h3
  exact ⟨h1, by omega⟩

theorem bytesLE_getElem? {n : Nat} (x i : Nat) (h : i < n) :
    (bytesLE n x)[i]? = some (BitVec.ofNat 8 (x / 256 ^ i)) := by
  induction n generalizing x i with
  | zero => omega
  | succ n ih =>
    cases i with
    | zero => simp [bytesLE]
    | succ i =>
      simp only [bytesLE, List.getElem?_cons_succ]
      rw [ih (x / 256) i (by omega), Nat.div_div_eq_div_mul, Nat.pow_succ, Nat.mul_comm]

/-- Byte `i` of a stored value. -/
theorem mem_leCells {a n x i : Nat} (h : i < n) :
    (a + i, BitVec.ofNat 8 (x / 256 ^ i)) ∈ leCells a n x :=
  mem_cellsAt.mpr ⟨by simp, by simpa using bytesLE_getElem? x i h⟩

theorem leCells_value {a n x : Nat} {c : Host.Cell} (h : c ∈ leCells a n x) :
    c.2 = BitVec.ofNat 8 (x / 256 ^ (c.1 - a)) := by
  have ⟨h1, h2⟩ := mem_leCells_bounds h
  have h3 := (mem_cellsAt.mp h).2
  rw [bytesLE_getElem? x _ (by omega)] at h3
  exact (Option.some.inj h3).symm

/-! ## Reading through the state -/

theorem State.readLE_congr {s t : State} {a n : Nat}
    (h : ∀ i < n, t.readByte (a + i) = s.readByte (a + i)) : t.readLE a n = s.readLE a n := by
  induction n generalizing a with
  | zero => rfl
  | succ n ih =>
    have h0 := h 0 (by omega)
    simp only [State.readLE]
    rw [show t.readByte a = s.readByte a by simpa using h0, ih]
    intro i hi
    have := h (i + 1) (by omega)
    rwa [show a + 1 + i = a + (i + 1) by omega]

theorem State.readLE_lt (s : State) (a n : Nat) : s.readLE a n < 256 ^ n := by
  induction n generalizing a with
  | zero => simp [State.readLE]
  | succ n ih =>
    have := ih (a + 1)
    have hb := (s.readByte a).isLt
    simp only [State.readLE, Nat.pow_succ]
    omega

/-- Bytes that hold a value's bytes read back as the value. -/
theorem State.readLE_of_bytes {t : State} {a n x : Nat}
    (h : ∀ i < n, t.readByte (a + i) = BitVec.ofNat 8 (x / 256 ^ i)) :
    t.readLE a n = x % 256 ^ n := by
  induction n generalizing a x with
  | zero => simp [State.readLE, Nat.mod_one]
  | succ n ih =>
    have h0 : t.readByte a = BitVec.ofNat 8 x := by simpa using h 0 (by omega)
    have hr : t.readLE (a + 1) n = x / 256 % 256 ^ n := by
      apply ih
      intro i hi
      have := h (i + 1) (by omega)
      rw [show a + 1 + i = a + (i + 1) by omega, this, Nat.div_div_eq_div_mul, Nat.pow_succ,
        Nat.mul_comm 256]
    simp only [State.readLE, h0, hr, BitVec.toNat_ofNat]
    rw [Nat.pow_succ 256 n, Nat.mul_comm (256 ^ n) 256, Nat.mod_mul]

theorem State.readByte_writeCells_other (s : State) {cells : List Host.Cell} {a : Nat}
    (h : ∀ c ∈ cells, c.1 ≠ a) : (s.writeCells cells).readByte a = s.readByte a := by
  simp only [State.readByte, State.writeCells, Memory.get?_writeCells_other _ h]

theorem State.readByte_writeCells_mem (s : State) {cells : List Host.Cell} {a : Nat} {b : Byte}
    (hmem : (a, b) ∈ cells) (hone : ∀ c ∈ cells, c.1 = a → c.2 = b) :
    (s.writeCells cells).readByte a = b := by
  simp only [State.readByte, State.writeCells, Memory.get?_writeCells_mem _ hmem hone,
    Option.getD_some]

/-! ## Samples -/

/-- Two samples of one plane that share a byte are one. -/
theorem planeOff_sep {p n m a : Nat} (h1 : planeOff p n ≤ a) (h2 : a < planeOff p n + 8)
  (h3 : planeOff p m ≤ a) (h4 : a < planeOff p m + 8) : n = m := by
  unfold planeOff at *; omega

/-- Bytes that hold a sample's bytes read back as the sample. -/
theorem State.readPlane_of_bytes {t : State} {p n : Nat} {x : Sample}
  (h : ∀ i < 8, t.readByte (planeOff p n + i) = BitVec.ofNat 8 (x.toNat / 256 ^ i)) : t.readPlane p n = x := by
  unfold State.readPlane
  rw [State.readLE_of_bytes h]
  apply BitVec.eq_of_toNat_eq
  have := x.isLt
  simp only [BitVec.toNat_ofNat]
  rw [show (256:Nat)^8 = 2^64 by norm_num]
  omega

/-- A byte of a value read from memory. -/
theorem State.readLE_byte {s : State} {a n i : Nat} (h : i < n) : BitVec.ofNat 8 (s.readLE a n / 256 ^ i) = s.readByte (a + i) := by
  induction n generalizing a i with
  | zero => omega
  | succ n ih =>
    cases i with
    | zero =>
      simp only [State.readLE, Nat.pow_zero, Nat.div_one, Nat.add_zero]
      apply BitVec.eq_of_toNat_eq
      have := (s.readByte a).isLt
      simp only [BitVec.toNat_ofNat]; omega
    | succ i =>
      have := (s.readByte a).isLt
      simp only [State.readLE]
      rw [Nat.pow_succ, Nat.mul_comm (256^i), ← Nat.div_div_eq_div_mul, show ((s.readByte a).toNat + 256 * s.readLE (a + 1) n) / 256 = s.readLE (a+1) n by omega, ih (by omega)]
      congr 1; omega

/-- A byte of a plane's sample. -/
theorem State.readPlane_byte {s : State} {p n i : Nat} (hi : i < 8) : BitVec.ofNat 8 ((s.readPlane p n).toNat / 256 ^ i) = s.readByte (planeOff p n + i) := by
  rw [← State.readLE_byte (n := 8) hi]
  have := s.readLE_lt (planeOff p n) 8
  unfold State.readPlane
  rw [BitVec.toNat_ofNat, Nat.mod_eq_of_lt (by omega)]

/-! ## Read after write -/

theorem State.readV_writeV_same (s : State) (i : Fin 8) (e : Fin 64) (x : Sample) :
    (s.writeV i e x).readV i e = x := by
  simp [State.readV, State.writeV]

theorem State.readV_writeV_other (s : State) {i i' : Fin 8} {e e' : Fin 64} (x : Sample)
    (h : ¬ (i' = i ∧ e' = e)) : (s.writeV i e x).readV i' e' = s.readV i' e' := by
  simp only [State.readV, State.writeV]
  by_cases hi : i' = i
  · subst hi
    have : e.val ≠ e'.val := fun hc => h ⟨rfl, Fin.ext hc.symm⟩
    simp [Vector.getElem_set_ne _ _ this]
  · have : i.val ≠ i'.val := fun hc => hi (Fin.ext hc.symm)
    simp [Vector.getElem_set_ne _ _ this]

theorem State.readW_writeW_same (s : State) (j : Fin 2) (e : Fin 256) (x : Sample) :
    (s.writeW j e x).readW j e = x := by
  simp [State.readW, State.writeW]

theorem State.readW_writeW_other (s : State) {j j' : Fin 2} {e e' : Fin 256} (x : Sample)
    (h : ¬ (j' = j ∧ e' = e)) : (s.writeW j e x).readW j' e' = s.readW j' e' := by
  simp only [State.readW, State.writeW]
  by_cases hj : j' = j
  · subst hj
    have : e.val ≠ e'.val := fun hc => h ⟨rfl, Fin.ext hc.symm⟩
    simp [Vector.getElem_set_ne _ _ this]
  · have : j.val ≠ j'.val := fun hc => hj (Fin.ext hc.symm)
    simp [Vector.getElem_set_ne _ _ this]

/-- A stored value's byte. -/
theorem State.readByte_store (s : State) {a n i : Nat} (x : Nat) (hi : i < n) :
    (s.writeCells (leCells a n x)).readByte (a + i) = BitVec.ofNat 8 (x / 256 ^ i) := by
  refine State.readByte_writeCells_mem s (mem_leCells hi) fun c hc hca => ?_
  rw [leCells_value hc, hca, Nat.add_sub_cancel_left]

/-- A store leaves every byte outside it alone. -/
theorem State.readByte_store_other (s : State) {a n b : Nat} (x : Nat) (h : b < a ∨ a + n ≤ b) :
    (s.writeCells (leCells a n x)).readByte b = s.readByte b := by
  refine State.readByte_writeCells_other s fun c hc => ?_
  have := mem_leCells_bounds hc
  omega

/-- A stored value reads back. -/
theorem State.readLE_store (s : State) (a n x : Nat) :
    (s.writeCells (leCells a n x)).readLE a n = x % 256 ^ n :=
  State.readLE_of_bytes fun _ hi => s.readByte_store x hi

/-- A value is its low bytes and its high bytes. -/
theorem State.readLE_split (s : State) (a m n : Nat) :
    s.readLE a (m + n) = s.readLE a m + 256 ^ m * s.readLE (a + m) n := by
  induction m generalizing a with
  | zero => simp [State.readLE]
  | succ m ih =>
    rw [show m + 1 + n = (m + n) + 1 by omega]
    simp only [State.readLE]
    rw [ih, show a + 1 + m = a + (m + 1) by omega]
    ring

/-- Byte `i` of a value read from memory, and 0 past its width. -/
theorem State.extractLsb'_readLE (s : State) {a n i : Nat} (hn : n ≤ 8) :
    (BitVec.ofNat 64 (s.readLE a n)).extractLsb' (8 * i) 8 =
      if i < n then s.readByte (a + i) else 0#8 := by
  have hlt := s.readLE_lt a n
  have h64 : s.readLE a n < 2 ^ 64 :=
    lt_of_lt_of_le hlt (by simpa using Nat.pow_le_pow_right (n := 256) (by decide) hn)
  apply BitVec.eq_of_toNat_eq
  simp only [BitVec.extractLsb'_toNat, BitVec.toNat_ofNat, Nat.mod_eq_of_lt h64,
    Nat.shiftRight_eq_div_pow, show 2 ^ (8 * i) = 256 ^ i by rw [Nat.pow_mul]]
  split
  · next h => rw [← State.readLE_byte (s := s) (a := a) h, BitVec.toNat_ofNat]
  · next h =>
    rw [Nat.div_eq_of_lt (lt_of_lt_of_le hlt (Nat.pow_le_pow_right (by decide) (by omega)))]
    rfl

/-! ## Bits -/

theorem setBit_getLsbD (b : Byte) (j : Nat) (x : Bool) (i : Nat) (hj : j < 8) (hi : i < 8) :
    (setBit b j x).getLsbD i = if i = j then x else b.getLsbD i := by
  by_cases h : i = j
  · subst h
    cases x <;> simp [setBit, hi]
  · cases x <;> simp [setBit, h, hi]

theorem State.readByte_writeBit_same (s : State) (k : Nat) (x : Bool) :
    (s.writeBit k x).readByte (bitOff (k / 8)) =
      setBit (s.readByte (bitOff (k / 8))) (k % 8) x := by
  simp only [State.readByte, State.writeBit, Memory.get?_write_same, Option.getD_some]

theorem State.readByte_writeBit_other (s : State) (k : Nat) (x : Bool) {a : Nat}
    (h : a ≠ bitOff (k / 8)) : (s.writeBit k x).readByte a = s.readByte a := by
  simp only [State.readByte, State.writeBit, Memory.get?_write_other _ _ h]

/-- Read after write for a bit of the bit memory. -/
theorem State.readBit_writeBit (s : State) (k i : Nat) (x : Bool) :
    (s.writeBit k x).readBit i = if i = k then x else s.readBit i := by
  unfold State.readBit
  by_cases h : i / 8 = k / 8
  · rw [h, State.readByte_writeBit_same, setBit_getLsbD _ _ _ _ (by omega) (by omega)]
    congr 1
    simp only [eq_iff_iff]
    omega
  · rw [State.readByte_writeBit_other _ _ _ (by unfold bitOff; omega)]
    rw [if_neg (by rintro rfl; exact h rfl)]

/-- Writing bits changes only the memory. -/
theorem State.writeBits_eq (s : State) (bits : List (Nat × Bool)) :
    s.writeBits bits = { s with mem := (s.writeBits bits).mem } := by
  induction bits generalizing s with
  | nil => rfl
  | cons x rest ih => exact ih (s.writeBit x.1 x.2)

theorem State.writeBits_wf {s : State} (h : s.mem.wf) (bits : List (Nat × Bool)) :
    (s.writeBits bits).mem.wf := by
  induction bits generalizing s with
  | nil => exact h
  | cons x rest ih => exact ih (s := s.writeBit x.1 x.2) (Memory.wf_write h _ _)

theorem State.keys_writeBits {s : State} {bits : List (Nat × Bool)} {c : Host.Cell}
    (h : c ∈ (s.writeBits bits).mem) : (∃ x ∈ bits, c.1 = bitOff (x.1 / 8)) ∨ c ∈ s.mem := by
  induction bits generalizing s with
  | nil => exact .inr h
  | cons y rest ih =>
    rcases ih (s := s.writeBit y.1 y.2) h with ⟨x, hx, h⟩ | h
    · exact .inl ⟨x, List.mem_cons_of_mem _ hx, h⟩
    · rcases Memory.keys_write _ _ _ h with rfl | h
      · exact .inl ⟨y, List.mem_cons_self .., rfl⟩
      · exact .inr h

theorem State.readByte_writeBits_other (s : State) {bits : List (Nat × Bool)} {a : Nat}
    (h : ∀ x ∈ bits, a ≠ bitOff (x.1 / 8)) : (s.writeBits bits).readByte a = s.readByte a := by
  induction bits generalizing s with
  | nil => rfl
  | cons x rest ih =>
    show ((s.writeBit x.1 x.2).writeBits rest).readByte a = s.readByte a
    rw [ih _ fun y hy => h y (List.mem_cons_of_mem _ hy),
      State.readByte_writeBit_other _ _ _ (h x (List.mem_cons_self ..))]

theorem State.readBit_writeBits_other (s : State) {bits : List (Nat × Bool)} {k : Nat}
    (h : ∀ x ∈ bits, x.1 ≠ k) : (s.writeBits bits).readBit k = s.readBit k := by
  induction bits generalizing s with
  | nil => rfl
  | cons x rest ih =>
    show ((s.writeBit x.1 x.2).writeBits rest).readBit k = s.readBit k
    rw [ih _ fun y hy => h y (List.mem_cons_of_mem _ hy), State.readBit_writeBit,
      if_neg (h x (List.mem_cons_self ..)).symm]

/-- A bit that every write naming it gives one value has that value. -/
theorem State.readBit_writeBits_mem (s : State) {bits : List (Nat × Bool)} {k : Nat} {x : Bool}
    (hmem : (k, x) ∈ bits) (hone : ∀ y ∈ bits, y.1 = k → y.2 = x) :
    (s.writeBits bits).readBit k = x := by
  induction bits generalizing s with
  | nil => simp at hmem
  | cons d rest ih =>
    show ((s.writeBit d.1 d.2).writeBits rest).readBit k = x
    by_cases h : ∃ y ∈ rest, y.1 = k
    · obtain ⟨y, hy, rfl⟩ := h
      have hyx := hone y (List.mem_cons_of_mem _ hy) rfl
      subst hyx
      exact ih _ hy fun z hz => hone z (List.mem_cons_of_mem _ hz)
    · rw [State.readBit_writeBits_other _ fun y hy hk => h ⟨y, hy, hk⟩, State.readBit_writeBit]
      rcases List.mem_cons.mp hmem with rfl | hmem
      · simp
      · exact absurd ⟨_, hmem, rfl⟩ h

end Sys2Proof.Machine
end

