-- ==== Sys2Proof/Laws/State.lean ====
section
/-! SUPPORT. One lemma per field per update of the state. -/

namespace Sys2Proof.Machine

/-! ## State.writeCells -/

@[simp] theorem State.writeCells_v (s : State) (cells : List Host.Cell) :
    (s.writeCells cells).v = s.v := rfl
@[simp] theorem State.writeCells_w (s : State) (cells : List Host.Cell) :
    (s.writeCells cells).w = s.w := rfl
@[simp] theorem State.writeCells_mem (s : State) (cells : List Host.Cell) :
    (s.writeCells cells).mem = s.mem.writeCells cells := rfl
@[simp] theorem State.writeCells_ieDone (s : State) (cells : List Host.Cell) :
    (s.writeCells cells).ieDone = s.ieDone := rfl
@[simp] theorem State.writeCells_ieErr (s : State) (cells : List Host.Cell) :
    (s.writeCells cells).ieErr = s.ieErr := rfl
@[simp] theorem State.writeCells_refprot (s : State) (cells : List Host.Cell) :
    (s.writeCells cells).refprot = s.refprot := rfl
@[simp] theorem State.writeCells_busy (s : State) (cells : List Host.Cell) :
    (s.writeCells cells).busy = s.busy := rfl
@[simp] theorem State.writeCells_done (s : State) (cells : List Host.Cell) :
    (s.writeCells cells).done = s.done := rfl
@[simp] theorem State.writeCells_err (s : State) (cells : List Host.Cell) :
    (s.writeCells cells).err = s.err := rfl
@[simp] theorem State.writeCells_ovr (s : State) (cells : List Host.Cell) :
    (s.writeCells cells).ovr = s.ovr := rfl
@[simp] theorem State.writeCells_accerr (s : State) (cells : List Host.Cell) :
    (s.writeCells cells).accerr = s.accerr := rfl
@[simp] theorem State.writeCells_cmdLast (s : State) (cells : List Host.Cell) :
    (s.writeCells cells).cmdLast = s.cmdLast := rfl
@[simp] theorem State.writeCells_imgW (s : State) (cells : List Host.Cell) :
    (s.writeCells cells).imgW = s.imgW := rfl
@[simp] theorem State.writeCells_imgH (s : State) (cells : List Host.Cell) :
    (s.writeCells cells).imgH = s.imgH := rfl
@[simp] theorem State.writeCells_errCause (s : State) (cells : List Host.Cell) :
    (s.writeCells cells).errCause = s.errCause := rfl
@[simp] theorem State.writeCells_errInfo (s : State) (cells : List Host.Cell) :
    (s.writeCells cells).errInfo = s.errInfo := rfl
@[simp] theorem State.writeCells_nv (s : State) (cells : List Host.Cell) :
    (s.writeCells cells).nv = s.nv := rfl
@[simp] theorem State.writeCells_sat (s : State) (cells : List Host.Cell) :
    (s.writeCells cells).sat = s.sat := rfl
@[simp] theorem State.writeCells_accAddr (s : State) (cells : List Host.Cell) :
    (s.writeCells cells).accAddr = s.accAddr := rfl
@[simp] theorem State.writeCells_pend (s : State) (cells : List Host.Cell) :
    (s.writeCells cells).pend = s.pend := rfl
@[simp] theorem State.writeCells_cfg (s : State) (cells : List Host.Cell) :
    (s.writeCells cells).cfg = s.cfg := rfl
@[simp] theorem State.writeCells_inbox (s : State) (cells : List Host.Cell) :
    (s.writeCells cells).inbox = s.inbox := rfl
@[simp] theorem State.writeCells_replies (s : State) (cells : List Host.Cell) :
    (s.writeCells cells).replies = s.replies := rfl
@[simp] theorem State.writeCells_epoch (s : State) (cells : List Host.Cell) :
    (s.writeCells cells).epoch = s.epoch := rfl
@[simp] theorem State.writeCells_fresh (s : State) (cells : List Host.Cell) :
    (s.writeCells cells).fresh = s.fresh := rfl

/-! ## State.writeBit -/

@[simp] theorem State.writeBit_v (s : State) (k : Nat) (x : Bool) :
    (s.writeBit k x).v = s.v := rfl
@[simp] theorem State.writeBit_w (s : State) (k : Nat) (x : Bool) :
    (s.writeBit k x).w = s.w := rfl
@[simp] theorem State.writeBit_ieDone (s : State) (k : Nat) (x : Bool) :
    (s.writeBit k x).ieDone = s.ieDone := rfl
@[simp] theorem State.writeBit_ieErr (s : State) (k : Nat) (x : Bool) :
    (s.writeBit k x).ieErr = s.ieErr := rfl
@[simp] theorem State.writeBit_refprot (s : State) (k : Nat) (x : Bool) :
    (s.writeBit k x).refprot = s.refprot := rfl
@[simp] theorem State.writeBit_busy (s : State) (k : Nat) (x : Bool) :
    (s.writeBit k x).busy = s.busy := rfl
@[simp] theorem State.writeBit_done (s : State) (k : Nat) (x : Bool) :
    (s.writeBit k x).done = s.done := rfl
@[simp] theorem State.writeBit_err (s : State) (k : Nat) (x : Bool) :
    (s.writeBit k x).err = s.err := rfl
@[simp] theorem State.writeBit_ovr (s : State) (k : Nat) (x : Bool) :
    (s.writeBit k x).ovr = s.ovr := rfl
@[simp] theorem State.writeBit_accerr (s : State) (k : Nat) (x : Bool) :
    (s.writeBit k x).accerr = s.accerr := rfl
@[simp] theorem State.writeBit_cmdLast (s : State) (k : Nat) (x : Bool) :
    (s.writeBit k x).cmdLast = s.cmdLast := rfl
@[simp] theorem State.writeBit_imgW (s : State) (k : Nat) (x : Bool) :
    (s.writeBit k x).imgW = s.imgW := rfl
@[simp] theorem State.writeBit_imgH (s : State) (k : Nat) (x : Bool) :
    (s.writeBit k x).imgH = s.imgH := rfl
@[simp] theorem State.writeBit_errCause (s : State) (k : Nat) (x : Bool) :
    (s.writeBit k x).errCause = s.errCause := rfl
@[simp] theorem State.writeBit_errInfo (s : State) (k : Nat) (x : Bool) :
    (s.writeBit k x).errInfo = s.errInfo := rfl
@[simp] theorem State.writeBit_nv (s : State) (k : Nat) (x : Bool) :
    (s.writeBit k x).nv = s.nv := rfl
@[simp] theorem State.writeBit_sat (s : State) (k : Nat) (x : Bool) :
    (s.writeBit k x).sat = s.sat := rfl
@[simp] theorem State.writeBit_accAddr (s : State) (k : Nat) (x : Bool) :
    (s.writeBit k x).accAddr = s.accAddr := rfl
@[simp] theorem State.writeBit_pend (s : State) (k : Nat) (x : Bool) :
    (s.writeBit k x).pend = s.pend := rfl
@[simp] theorem State.writeBit_cfg (s : State) (k : Nat) (x : Bool) :
    (s.writeBit k x).cfg = s.cfg := rfl
@[simp] theorem State.writeBit_inbox (s : State) (k : Nat) (x : Bool) :
    (s.writeBit k x).inbox = s.inbox := rfl
@[simp] theorem State.writeBit_replies (s : State) (k : Nat) (x : Bool) :
    (s.writeBit k x).replies = s.replies := rfl
@[simp] theorem State.writeBit_epoch (s : State) (k : Nat) (x : Bool) :
    (s.writeBit k x).epoch = s.epoch := rfl
@[simp] theorem State.writeBit_fresh (s : State) (k : Nat) (x : Bool) :
    (s.writeBit k x).fresh = s.fresh := rfl

/-! ## State.writeBits -/

@[simp] theorem State.writeBits_v (s : State) (bits : List (Nat × Bool)) :
    (s.writeBits bits).v = s.v := by
  rw [State.writeBits_eq]
@[simp] theorem State.writeBits_w (s : State) (bits : List (Nat × Bool)) :
    (s.writeBits bits).w = s.w := by
  rw [State.writeBits_eq]
@[simp] theorem State.writeBits_ieDone (s : State) (bits : List (Nat × Bool)) :
    (s.writeBits bits).ieDone = s.ieDone := by
  rw [State.writeBits_eq]
@[simp] theorem State.writeBits_ieErr (s : State) (bits : List (Nat × Bool)) :
    (s.writeBits bits).ieErr = s.ieErr := by
  rw [State.writeBits_eq]
@[simp] theorem State.writeBits_refprot (s : State) (bits : List (Nat × Bool)) :
    (s.writeBits bits).refprot = s.refprot := by
  rw [State.writeBits_eq]
@[simp] theorem State.writeBits_busy (s : State) (bits : List (Nat × Bool)) :
    (s.writeBits bits).busy = s.busy := by
  rw [State.writeBits_eq]
@[simp] theorem State.writeBits_done (s : State) (bits : List (Nat × Bool)) :
    (s.writeBits bits).done = s.done := by
  rw [State.writeBits_eq]
@[simp] theorem State.writeBits_err (s : State) (bits : List (Nat × Bool)) :
    (s.writeBits bits).err = s.err := by
  rw [State.writeBits_eq]
@[simp] theorem State.writeBits_ovr (s : State) (bits : List (Nat × Bool)) :
    (s.writeBits bits).ovr = s.ovr := by
  rw [State.writeBits_eq]
@[simp] theorem State.writeBits_accerr (s : State) (bits : List (Nat × Bool)) :
    (s.writeBits bits).accerr = s.accerr := by
  rw [State.writeBits_eq]
@[simp] theorem State.writeBits_cmdLast (s : State) (bits : List (Nat × Bool)) :
    (s.writeBits bits).cmdLast = s.cmdLast := by
  rw [State.writeBits_eq]
@[simp] theorem State.writeBits_imgW (s : State) (bits : List (Nat × Bool)) :
    (s.writeBits bits).imgW = s.imgW := by
  rw [State.writeBits_eq]
@[simp] theorem State.writeBits_imgH (s : State) (bits : List (Nat × Bool)) :
    (s.writeBits bits).imgH = s.imgH := by
  rw [State.writeBits_eq]
@[simp] theorem State.writeBits_errCause (s : State) (bits : List (Nat × Bool)) :
    (s.writeBits bits).errCause = s.errCause := by
  rw [State.writeBits_eq]
@[simp] theorem State.writeBits_errInfo (s : State) (bits : List (Nat × Bool)) :
    (s.writeBits bits).errInfo = s.errInfo := by
  rw [State.writeBits_eq]
@[simp] theorem State.writeBits_nv (s : State) (bits : List (Nat × Bool)) :
    (s.writeBits bits).nv = s.nv := by
  rw [State.writeBits_eq]
@[simp] theorem State.writeBits_sat (s : State) (bits : List (Nat × Bool)) :
    (s.writeBits bits).sat = s.sat := by
  rw [State.writeBits_eq]
@[simp] theorem State.writeBits_accAddr (s : State) (bits : List (Nat × Bool)) :
    (s.writeBits bits).accAddr = s.accAddr := by
  rw [State.writeBits_eq]
@[simp] theorem State.writeBits_pend (s : State) (bits : List (Nat × Bool)) :
    (s.writeBits bits).pend = s.pend := by
  rw [State.writeBits_eq]
@[simp] theorem State.writeBits_cfg (s : State) (bits : List (Nat × Bool)) :
    (s.writeBits bits).cfg = s.cfg := by
  rw [State.writeBits_eq]
@[simp] theorem State.writeBits_inbox (s : State) (bits : List (Nat × Bool)) :
    (s.writeBits bits).inbox = s.inbox := by
  rw [State.writeBits_eq]
@[simp] theorem State.writeBits_replies (s : State) (bits : List (Nat × Bool)) :
    (s.writeBits bits).replies = s.replies := by
  rw [State.writeBits_eq]
@[simp] theorem State.writeBits_epoch (s : State) (bits : List (Nat × Bool)) :
    (s.writeBits bits).epoch = s.epoch := by
  rw [State.writeBits_eq]
@[simp] theorem State.writeBits_fresh (s : State) (bits : List (Nat × Bool)) :
    (s.writeBits bits).fresh = s.fresh := by
  rw [State.writeBits_eq]

/-! ## State.writeV -/

@[simp] theorem State.writeV_v (s : State) (i : Fin 8) (e : Fin 64) (x : Sample) :
    (s.writeV i e x).v = s.v.set i.val ((s.v[i.val]).set e.val x) := rfl
@[simp] theorem State.writeV_w (s : State) (i : Fin 8) (e : Fin 64) (x : Sample) :
    (s.writeV i e x).w = s.w := rfl
@[simp] theorem State.writeV_mem (s : State) (i : Fin 8) (e : Fin 64) (x : Sample) :
    (s.writeV i e x).mem = s.mem := rfl
@[simp] theorem State.writeV_ieDone (s : State) (i : Fin 8) (e : Fin 64) (x : Sample) :
    (s.writeV i e x).ieDone = s.ieDone := rfl
@[simp] theorem State.writeV_ieErr (s : State) (i : Fin 8) (e : Fin 64) (x : Sample) :
    (s.writeV i e x).ieErr = s.ieErr := rfl
@[simp] theorem State.writeV_refprot (s : State) (i : Fin 8) (e : Fin 64) (x : Sample) :
    (s.writeV i e x).refprot = s.refprot := rfl
@[simp] theorem State.writeV_busy (s : State) (i : Fin 8) (e : Fin 64) (x : Sample) :
    (s.writeV i e x).busy = s.busy := rfl
@[simp] theorem State.writeV_done (s : State) (i : Fin 8) (e : Fin 64) (x : Sample) :
    (s.writeV i e x).done = s.done := rfl
@[simp] theorem State.writeV_err (s : State) (i : Fin 8) (e : Fin 64) (x : Sample) :
    (s.writeV i e x).err = s.err := rfl
@[simp] theorem State.writeV_ovr (s : State) (i : Fin 8) (e : Fin 64) (x : Sample) :
    (s.writeV i e x).ovr = s.ovr := rfl
@[simp] theorem State.writeV_accerr (s : State) (i : Fin 8) (e : Fin 64) (x : Sample) :
    (s.writeV i e x).accerr = s.accerr := rfl
@[simp] theorem State.writeV_cmdLast (s : State) (i : Fin 8) (e : Fin 64) (x : Sample) :
    (s.writeV i e x).cmdLast = s.cmdLast := rfl
@[simp] theorem State.writeV_imgW (s : State) (i : Fin 8) (e : Fin 64) (x : Sample) :
    (s.writeV i e x).imgW = s.imgW := rfl
@[simp] theorem State.writeV_imgH (s : State) (i : Fin 8) (e : Fin 64) (x : Sample) :
    (s.writeV i e x).imgH = s.imgH := rfl
@[simp] theorem State.writeV_errCause (s : State) (i : Fin 8) (e : Fin 64) (x : Sample) :
    (s.writeV i e x).errCause = s.errCause := rfl
@[simp] theorem State.writeV_errInfo (s : State) (i : Fin 8) (e : Fin 64) (x : Sample) :
    (s.writeV i e x).errInfo = s.errInfo := rfl
@[simp] theorem State.writeV_nv (s : State) (i : Fin 8) (e : Fin 64) (x : Sample) :
    (s.writeV i e x).nv = s.nv := rfl
@[simp] theorem State.writeV_sat (s : State) (i : Fin 8) (e : Fin 64) (x : Sample) :
    (s.writeV i e x).sat = s.sat := rfl
@[simp] theorem State.writeV_accAddr (s : State) (i : Fin 8) (e : Fin 64) (x : Sample) :
    (s.writeV i e x).accAddr = s.accAddr := rfl
@[simp] theorem State.writeV_pend (s : State) (i : Fin 8) (e : Fin 64) (x : Sample) :
    (s.writeV i e x).pend = s.pend := rfl
@[simp] theorem State.writeV_cfg (s : State) (i : Fin 8) (e : Fin 64) (x : Sample) :
    (s.writeV i e x).cfg = s.cfg := rfl
@[simp] theorem State.writeV_inbox (s : State) (i : Fin 8) (e : Fin 64) (x : Sample) :
    (s.writeV i e x).inbox = s.inbox := rfl
@[simp] theorem State.writeV_replies (s : State) (i : Fin 8) (e : Fin 64) (x : Sample) :
    (s.writeV i e x).replies = s.replies := rfl
@[simp] theorem State.writeV_epoch (s : State) (i : Fin 8) (e : Fin 64) (x : Sample) :
    (s.writeV i e x).epoch = s.epoch := rfl
@[simp] theorem State.writeV_fresh (s : State) (i : Fin 8) (e : Fin 64) (x : Sample) :
    (s.writeV i e x).fresh = s.fresh := rfl

/-! ## State.writeW -/

@[simp] theorem State.writeW_v (s : State) (j : Fin 2) (e : Fin 256) (x : Sample) :
    (s.writeW j e x).v = s.v := rfl
@[simp] theorem State.writeW_w (s : State) (j : Fin 2) (e : Fin 256) (x : Sample) :
    (s.writeW j e x).w = s.w.set j.val ((s.w[j.val]).set e.val x) := rfl
@[simp] theorem State.writeW_mem (s : State) (j : Fin 2) (e : Fin 256) (x : Sample) :
    (s.writeW j e x).mem = s.mem := rfl
@[simp] theorem State.writeW_ieDone (s : State) (j : Fin 2) (e : Fin 256) (x : Sample) :
    (s.writeW j e x).ieDone = s.ieDone := rfl
@[simp] theorem State.writeW_ieErr (s : State) (j : Fin 2) (e : Fin 256) (x : Sample) :
    (s.writeW j e x).ieErr = s.ieErr := rfl
@[simp] theorem State.writeW_refprot (s : State) (j : Fin 2) (e : Fin 256) (x : Sample) :
    (s.writeW j e x).refprot = s.refprot := rfl
@[simp] theorem State.writeW_busy (s : State) (j : Fin 2) (e : Fin 256) (x : Sample) :
    (s.writeW j e x).busy = s.busy := rfl
@[simp] theorem State.writeW_done (s : State) (j : Fin 2) (e : Fin 256) (x : Sample) :
    (s.writeW j e x).done = s.done := rfl
@[simp] theorem State.writeW_err (s : State) (j : Fin 2) (e : Fin 256) (x : Sample) :
    (s.writeW j e x).err = s.err := rfl
@[simp] theorem State.writeW_ovr (s : State) (j : Fin 2) (e : Fin 256) (x : Sample) :
    (s.writeW j e x).ovr = s.ovr := rfl
@[simp] theorem State.writeW_accerr (s : State) (j : Fin 2) (e : Fin 256) (x : Sample) :
    (s.writeW j e x).accerr = s.accerr := rfl
@[simp] theorem State.writeW_cmdLast (s : State) (j : Fin 2) (e : Fin 256) (x : Sample) :
    (s.writeW j e x).cmdLast = s.cmdLast := rfl
@[simp] theorem State.writeW_imgW (s : State) (j : Fin 2) (e : Fin 256) (x : Sample) :
    (s.writeW j e x).imgW = s.imgW := rfl
@[simp] theorem State.writeW_imgH (s : State) (j : Fin 2) (e : Fin 256) (x : Sample) :
    (s.writeW j e x).imgH = s.imgH := rfl
@[simp] theorem State.writeW_errCause (s : State) (j : Fin 2) (e : Fin 256) (x : Sample) :
    (s.writeW j e x).errCause = s.errCause := rfl
@[simp] theorem State.writeW_errInfo (s : State) (j : Fin 2) (e : Fin 256) (x : Sample) :
    (s.writeW j e x).errInfo = s.errInfo := rfl
@[simp] theorem State.writeW_nv (s : State) (j : Fin 2) (e : Fin 256) (x : Sample) :
    (s.writeW j e x).nv = s.nv := rfl
@[simp] theorem State.writeW_sat (s : State) (j : Fin 2) (e : Fin 256) (x : Sample) :
    (s.writeW j e x).sat = s.sat := rfl
@[simp] theorem State.writeW_accAddr (s : State) (j : Fin 2) (e : Fin 256) (x : Sample) :
    (s.writeW j e x).accAddr = s.accAddr := rfl
@[simp] theorem State.writeW_pend (s : State) (j : Fin 2) (e : Fin 256) (x : Sample) :
    (s.writeW j e x).pend = s.pend := rfl
@[simp] theorem State.writeW_cfg (s : State) (j : Fin 2) (e : Fin 256) (x : Sample) :
    (s.writeW j e x).cfg = s.cfg := rfl
@[simp] theorem State.writeW_inbox (s : State) (j : Fin 2) (e : Fin 256) (x : Sample) :
    (s.writeW j e x).inbox = s.inbox := rfl
@[simp] theorem State.writeW_replies (s : State) (j : Fin 2) (e : Fin 256) (x : Sample) :
    (s.writeW j e x).replies = s.replies := rfl
@[simp] theorem State.writeW_epoch (s : State) (j : Fin 2) (e : Fin 256) (x : Sample) :
    (s.writeW j e x).epoch = s.epoch := rfl
@[simp] theorem State.writeW_fresh (s : State) (j : Fin 2) (e : Fin 256) (x : Sample) :
    (s.writeW j e x).fresh = s.fresh := rfl

/-! ## cmdError -/

@[simp] theorem cmdError_v (c : Cause) (x : Word) (s : State) :
    (cmdError c x s).v = s.v := rfl
@[simp] theorem cmdError_w (c : Cause) (x : Word) (s : State) :
    (cmdError c x s).w = s.w := rfl
@[simp] theorem cmdError_mem (c : Cause) (x : Word) (s : State) :
    (cmdError c x s).mem = s.mem := rfl
@[simp] theorem cmdError_ieDone (c : Cause) (x : Word) (s : State) :
    (cmdError c x s).ieDone = s.ieDone := rfl
@[simp] theorem cmdError_ieErr (c : Cause) (x : Word) (s : State) :
    (cmdError c x s).ieErr = s.ieErr := rfl
@[simp] theorem cmdError_refprot (c : Cause) (x : Word) (s : State) :
    (cmdError c x s).refprot = s.refprot := rfl
@[simp] theorem cmdError_busy (c : Cause) (x : Word) (s : State) :
    (cmdError c x s).busy = s.busy := rfl
@[simp] theorem cmdError_done (c : Cause) (x : Word) (s : State) :
    (cmdError c x s).done = s.done := rfl
@[simp] theorem cmdError_err (c : Cause) (x : Word) (s : State) :
    (cmdError c x s).err = true := rfl
@[simp] theorem cmdError_ovr (c : Cause) (x : Word) (s : State) :
    (cmdError c x s).ovr = s.ovr := rfl
@[simp] theorem cmdError_accerr (c : Cause) (x : Word) (s : State) :
    (cmdError c x s).accerr = s.accerr := rfl
@[simp] theorem cmdError_cmdLast (c : Cause) (x : Word) (s : State) :
    (cmdError c x s).cmdLast = s.cmdLast := rfl
@[simp] theorem cmdError_imgW (c : Cause) (x : Word) (s : State) :
    (cmdError c x s).imgW = s.imgW := rfl
@[simp] theorem cmdError_imgH (c : Cause) (x : Word) (s : State) :
    (cmdError c x s).imgH = s.imgH := rfl
@[simp] theorem cmdError_errCause (c : Cause) (x : Word) (s : State) :
    (cmdError c x s).errCause = some c := rfl
@[simp] theorem cmdError_errInfo (c : Cause) (x : Word) (s : State) :
    (cmdError c x s).errInfo = x := rfl
@[simp] theorem cmdError_nv (c : Cause) (x : Word) (s : State) :
    (cmdError c x s).nv = s.nv := rfl
@[simp] theorem cmdError_sat (c : Cause) (x : Word) (s : State) :
    (cmdError c x s).sat = s.sat := rfl
@[simp] theorem cmdError_accAddr (c : Cause) (x : Word) (s : State) :
    (cmdError c x s).accAddr = s.accAddr := rfl
@[simp] theorem cmdError_pend (c : Cause) (x : Word) (s : State) :
    (cmdError c x s).pend = s.pend := rfl
@[simp] theorem cmdError_cfg (c : Cause) (x : Word) (s : State) :
    (cmdError c x s).cfg = s.cfg := rfl
@[simp] theorem cmdError_inbox (c : Cause) (x : Word) (s : State) :
    (cmdError c x s).inbox = s.inbox := rfl
@[simp] theorem cmdError_replies (c : Cause) (x : Word) (s : State) :
    (cmdError c x s).replies = s.replies := rfl
@[simp] theorem cmdError_epoch (c : Cause) (x : Word) (s : State) :
    (cmdError c x s).epoch = s.epoch := rfl
@[simp] theorem cmdError_fresh (c : Cause) (x : Word) (s : State) :
    (cmdError c x s).fresh = s.fresh := rfl

/-! ## returnFromError -/

@[simp] theorem returnFromError_v (s : State) :
    (returnFromError s).v = s.v := rfl
@[simp] theorem returnFromError_w (s : State) :
    (returnFromError s).w = s.w := rfl
@[simp] theorem returnFromError_mem (s : State) :
    (returnFromError s).mem = s.mem := rfl
@[simp] theorem returnFromError_ieDone (s : State) :
    (returnFromError s).ieDone = s.ieDone := rfl
@[simp] theorem returnFromError_ieErr (s : State) :
    (returnFromError s).ieErr = s.ieErr := rfl
@[simp] theorem returnFromError_refprot (s : State) :
    (returnFromError s).refprot = s.refprot := rfl
@[simp] theorem returnFromError_busy (s : State) :
    (returnFromError s).busy = s.busy := rfl
@[simp] theorem returnFromError_done (s : State) :
    (returnFromError s).done = s.done := rfl
@[simp] theorem returnFromError_err (s : State) :
    (returnFromError s).err = false := rfl
@[simp] theorem returnFromError_ovr (s : State) :
    (returnFromError s).ovr = s.ovr := rfl
@[simp] theorem returnFromError_accerr (s : State) :
    (returnFromError s).accerr = s.accerr := rfl
@[simp] theorem returnFromError_cmdLast (s : State) :
    (returnFromError s).cmdLast = s.cmdLast := rfl
@[simp] theorem returnFromError_imgW (s : State) :
    (returnFromError s).imgW = s.imgW := rfl
@[simp] theorem returnFromError_imgH (s : State) :
    (returnFromError s).imgH = s.imgH := rfl
@[simp] theorem returnFromError_errCause (s : State) :
    (returnFromError s).errCause = none := rfl
@[simp] theorem returnFromError_errInfo (s : State) :
    (returnFromError s).errInfo = 0#32 := rfl
@[simp] theorem returnFromError_nv (s : State) :
    (returnFromError s).nv = s.nv := rfl
@[simp] theorem returnFromError_sat (s : State) :
    (returnFromError s).sat = s.sat := rfl
@[simp] theorem returnFromError_accAddr (s : State) :
    (returnFromError s).accAddr = s.accAddr := rfl
@[simp] theorem returnFromError_pend (s : State) :
    (returnFromError s).pend = s.pend := rfl
@[simp] theorem returnFromError_cfg (s : State) :
    (returnFromError s).cfg = s.cfg := rfl
@[simp] theorem returnFromError_inbox (s : State) :
    (returnFromError s).inbox = s.inbox := rfl
@[simp] theorem returnFromError_replies (s : State) :
    (returnFromError s).replies = s.replies := rfl
@[simp] theorem returnFromError_epoch (s : State) :
    (returnFromError s).epoch = s.epoch := rfl
@[simp] theorem returnFromError_fresh (s : State) :
    (returnFromError s).fresh = s.fresh := rfl

/-! ## accessError -/

@[simp] theorem accessError_v (off : Offset) (s : State) :
    (accessError off s).v = s.v := rfl
@[simp] theorem accessError_w (off : Offset) (s : State) :
    (accessError off s).w = s.w := rfl
@[simp] theorem accessError_mem (off : Offset) (s : State) :
    (accessError off s).mem = s.mem := rfl
@[simp] theorem accessError_ieDone (off : Offset) (s : State) :
    (accessError off s).ieDone = s.ieDone := rfl
@[simp] theorem accessError_ieErr (off : Offset) (s : State) :
    (accessError off s).ieErr = s.ieErr := rfl
@[simp] theorem accessError_refprot (off : Offset) (s : State) :
    (accessError off s).refprot = s.refprot := rfl
@[simp] theorem accessError_busy (off : Offset) (s : State) :
    (accessError off s).busy = s.busy := rfl
@[simp] theorem accessError_done (off : Offset) (s : State) :
    (accessError off s).done = s.done := rfl
@[simp] theorem accessError_err (off : Offset) (s : State) :
    (accessError off s).err = s.err := rfl
@[simp] theorem accessError_ovr (off : Offset) (s : State) :
    (accessError off s).ovr = s.ovr := rfl
@[simp] theorem accessError_accerr (off : Offset) (s : State) :
    (accessError off s).accerr = true := rfl
@[simp] theorem accessError_cmdLast (off : Offset) (s : State) :
    (accessError off s).cmdLast = s.cmdLast := rfl
@[simp] theorem accessError_imgW (off : Offset) (s : State) :
    (accessError off s).imgW = s.imgW := rfl
@[simp] theorem accessError_imgH (off : Offset) (s : State) :
    (accessError off s).imgH = s.imgH := rfl
@[simp] theorem accessError_errCause (off : Offset) (s : State) :
    (accessError off s).errCause = s.errCause := rfl
@[simp] theorem accessError_errInfo (off : Offset) (s : State) :
    (accessError off s).errInfo = s.errInfo := rfl
@[simp] theorem accessError_nv (off : Offset) (s : State) :
    (accessError off s).nv = s.nv := rfl
@[simp] theorem accessError_sat (off : Offset) (s : State) :
    (accessError off s).sat = s.sat := rfl
@[simp] theorem accessError_accAddr (off : Offset) (s : State) :
    (accessError off s).accAddr = if s.accerr then s.accAddr else off := rfl
@[simp] theorem accessError_pend (off : Offset) (s : State) :
    (accessError off s).pend = s.pend := rfl
@[simp] theorem accessError_cfg (off : Offset) (s : State) :
    (accessError off s).cfg = s.cfg := rfl
@[simp] theorem accessError_inbox (off : Offset) (s : State) :
    (accessError off s).inbox = s.inbox := rfl
@[simp] theorem accessError_replies (off : Offset) (s : State) :
    (accessError off s).replies = s.replies := rfl
@[simp] theorem accessError_epoch (off : Offset) (s : State) :
    (accessError off s).epoch = s.epoch := rfl
@[simp] theorem accessError_fresh (off : Offset) (s : State) :
    (accessError off s).fresh = s.fresh := rfl

/-! ## dropCommand -/

@[simp] theorem dropCommand_v (s : State) :
    (dropCommand s).v = s.v := rfl
@[simp] theorem dropCommand_w (s : State) :
    (dropCommand s).w = s.w := rfl
@[simp] theorem dropCommand_mem (s : State) :
    (dropCommand s).mem = s.mem := rfl
@[simp] theorem dropCommand_ieDone (s : State) :
    (dropCommand s).ieDone = s.ieDone := rfl
@[simp] theorem dropCommand_ieErr (s : State) :
    (dropCommand s).ieErr = s.ieErr := rfl
@[simp] theorem dropCommand_refprot (s : State) :
    (dropCommand s).refprot = s.refprot := rfl
@[simp] theorem dropCommand_busy (s : State) :
    (dropCommand s).busy = s.busy := rfl
@[simp] theorem dropCommand_done (s : State) :
    (dropCommand s).done = s.done := rfl
@[simp] theorem dropCommand_err (s : State) :
    (dropCommand s).err = s.err := rfl
@[simp] theorem dropCommand_ovr (s : State) :
    (dropCommand s).ovr = true := rfl
@[simp] theorem dropCommand_accerr (s : State) :
    (dropCommand s).accerr = s.accerr := rfl
@[simp] theorem dropCommand_cmdLast (s : State) :
    (dropCommand s).cmdLast = s.cmdLast := rfl
@[simp] theorem dropCommand_imgW (s : State) :
    (dropCommand s).imgW = s.imgW := rfl
@[simp] theorem dropCommand_imgH (s : State) :
    (dropCommand s).imgH = s.imgH := rfl
@[simp] theorem dropCommand_errCause (s : State) :
    (dropCommand s).errCause = s.errCause := rfl
@[simp] theorem dropCommand_errInfo (s : State) :
    (dropCommand s).errInfo = s.errInfo := rfl
@[simp] theorem dropCommand_nv (s : State) :
    (dropCommand s).nv = s.nv := rfl
@[simp] theorem dropCommand_sat (s : State) :
    (dropCommand s).sat = s.sat := rfl
@[simp] theorem dropCommand_accAddr (s : State) :
    (dropCommand s).accAddr = s.accAddr := rfl
@[simp] theorem dropCommand_pend (s : State) :
    (dropCommand s).pend = s.pend := rfl
@[simp] theorem dropCommand_cfg (s : State) :
    (dropCommand s).cfg = s.cfg := rfl
@[simp] theorem dropCommand_inbox (s : State) :
    (dropCommand s).inbox = s.inbox := rfl
@[simp] theorem dropCommand_replies (s : State) :
    (dropCommand s).replies = s.replies := rfl
@[simp] theorem dropCommand_epoch (s : State) :
    (dropCommand s).epoch = s.epoch := rfl
@[simp] theorem dropCommand_fresh (s : State) :
    (dropCommand s).fresh = s.fresh := rfl

/-! ## Effect.apply -/

@[simp] theorem Effect.apply_mem (f : Effect) (s : State) :
    (f.apply s).mem = ((s.writeCells f.cells).writeBits f.bits).mem := rfl
@[simp] theorem Effect.apply_ieDone (f : Effect) (s : State) :
    (f.apply s).ieDone = s.ieDone := rfl
@[simp] theorem Effect.apply_ieErr (f : Effect) (s : State) :
    (f.apply s).ieErr = s.ieErr := rfl
@[simp] theorem Effect.apply_refprot (f : Effect) (s : State) :
    (f.apply s).refprot = s.refprot := rfl
@[simp] theorem Effect.apply_busy (f : Effect) (s : State) :
    (f.apply s).busy = s.busy := rfl
@[simp] theorem Effect.apply_done (f : Effect) (s : State) :
    (f.apply s).done = s.done := rfl
@[simp] theorem Effect.apply_err (f : Effect) (s : State) :
    (f.apply s).err = s.err := rfl
@[simp] theorem Effect.apply_ovr (f : Effect) (s : State) :
    (f.apply s).ovr = s.ovr := rfl
@[simp] theorem Effect.apply_accerr (f : Effect) (s : State) :
    (f.apply s).accerr = s.accerr := rfl
@[simp] theorem Effect.apply_cmdLast (f : Effect) (s : State) :
    (f.apply s).cmdLast = s.cmdLast := rfl
@[simp] theorem Effect.apply_imgW (f : Effect) (s : State) :
    (f.apply s).imgW = s.imgW := rfl
@[simp] theorem Effect.apply_imgH (f : Effect) (s : State) :
    (f.apply s).imgH = s.imgH := rfl
@[simp] theorem Effect.apply_errCause (f : Effect) (s : State) :
    (f.apply s).errCause = s.errCause := rfl
@[simp] theorem Effect.apply_errInfo (f : Effect) (s : State) :
    (f.apply s).errInfo = s.errInfo := rfl
@[simp] theorem Effect.apply_nv (f : Effect) (s : State) :
    (f.apply s).nv = (s.nv || f.nv) := rfl
@[simp] theorem Effect.apply_sat (f : Effect) (s : State) :
    (f.apply s).sat = (s.sat || f.sat) := rfl
@[simp] theorem Effect.apply_accAddr (f : Effect) (s : State) :
    (f.apply s).accAddr = s.accAddr := rfl
@[simp] theorem Effect.apply_pend (f : Effect) (s : State) :
    (f.apply s).pend = s.pend := rfl
@[simp] theorem Effect.apply_cfg (f : Effect) (s : State) :
    (f.apply s).cfg = s.cfg := rfl
@[simp] theorem Effect.apply_inbox (f : Effect) (s : State) :
    (f.apply s).inbox = s.inbox := rfl
@[simp] theorem Effect.apply_replies (f : Effect) (s : State) :
    (f.apply s).replies = s.replies := rfl
@[simp] theorem Effect.apply_epoch (f : Effect) (s : State) :
    (f.apply s).epoch = s.epoch := rfl
@[simp] theorem Effect.apply_fresh (f : Effect) (s : State) :
    (f.apply s).fresh = s.fresh := rfl

/-! ## complete -/

@[simp] theorem complete_v (f : Effect) (s : State) :
    (complete f s).v = (f.apply s).v := rfl
@[simp] theorem complete_w (f : Effect) (s : State) :
    (complete f s).w = (f.apply s).w := rfl
@[simp] theorem complete_mem (f : Effect) (s : State) :
    (complete f s).mem = ((s.writeCells f.cells).writeBits f.bits).mem := rfl
@[simp] theorem complete_ieDone (f : Effect) (s : State) :
    (complete f s).ieDone = s.ieDone := rfl
@[simp] theorem complete_ieErr (f : Effect) (s : State) :
    (complete f s).ieErr = s.ieErr := rfl
@[simp] theorem complete_refprot (f : Effect) (s : State) :
    (complete f s).refprot = s.refprot := rfl
@[simp] theorem complete_busy (f : Effect) (s : State) :
    (complete f s).busy = false := rfl
@[simp] theorem complete_done (f : Effect) (s : State) :
    (complete f s).done = true := rfl
@[simp] theorem complete_err (f : Effect) (s : State) :
    (complete f s).err = s.err := rfl
@[simp] theorem complete_ovr (f : Effect) (s : State) :
    (complete f s).ovr = s.ovr := rfl
@[simp] theorem complete_accerr (f : Effect) (s : State) :
    (complete f s).accerr = s.accerr := rfl
@[simp] theorem complete_cmdLast (f : Effect) (s : State) :
    (complete f s).cmdLast = s.cmdLast := rfl
@[simp] theorem complete_imgW (f : Effect) (s : State) :
    (complete f s).imgW = s.imgW := rfl
@[simp] theorem complete_imgH (f : Effect) (s : State) :
    (complete f s).imgH = s.imgH := rfl
@[simp] theorem complete_errCause (f : Effect) (s : State) :
    (complete f s).errCause = s.errCause := rfl
@[simp] theorem complete_errInfo (f : Effect) (s : State) :
    (complete f s).errInfo = s.errInfo := rfl
@[simp] theorem complete_nv (f : Effect) (s : State) :
    (complete f s).nv = (s.nv || f.nv) := rfl
@[simp] theorem complete_sat (f : Effect) (s : State) :
    (complete f s).sat = (s.sat || f.sat) := rfl
@[simp] theorem complete_accAddr (f : Effect) (s : State) :
    (complete f s).accAddr = s.accAddr := rfl
@[simp] theorem complete_pend (f : Effect) (s : State) :
    (complete f s).pend = s.pend := rfl
@[simp] theorem complete_cfg (f : Effect) (s : State) :
    (complete f s).cfg = s.cfg := rfl
@[simp] theorem complete_inbox (f : Effect) (s : State) :
    (complete f s).inbox = s.inbox := rfl
@[simp] theorem complete_replies (f : Effect) (s : State) :
    (complete f s).replies = s.replies := rfl
@[simp] theorem complete_epoch (f : Effect) (s : State) :
    (complete f s).epoch = s.epoch := rfl
@[simp] theorem complete_fresh (f : Effect) (s : State) :
    (complete f s).fresh = s.fresh + 1 := rfl

/-! ## resetRegisters -/

@[simp] theorem resetRegisters_v (s : State) :
    (resetRegisters s).v = s.v := rfl
@[simp] theorem resetRegisters_w (s : State) :
    (resetRegisters s).w = s.w := rfl
@[simp] theorem resetRegisters_mem (s : State) :
    (resetRegisters s).mem = s.mem := rfl
@[simp] theorem resetRegisters_ieDone (s : State) :
    (resetRegisters s).ieDone = false := rfl
@[simp] theorem resetRegisters_ieErr (s : State) :
    (resetRegisters s).ieErr = false := rfl
@[simp] theorem resetRegisters_refprot (s : State) :
    (resetRegisters s).refprot = true := rfl
@[simp] theorem resetRegisters_busy (s : State) :
    (resetRegisters s).busy = false := rfl
@[simp] theorem resetRegisters_done (s : State) :
    (resetRegisters s).done = false := rfl
@[simp] theorem resetRegisters_err (s : State) :
    (resetRegisters s).err = false := rfl
@[simp] theorem resetRegisters_ovr (s : State) :
    (resetRegisters s).ovr = false := rfl
@[simp] theorem resetRegisters_accerr (s : State) :
    (resetRegisters s).accerr = false := rfl
@[simp] theorem resetRegisters_cmdLast (s : State) :
    (resetRegisters s).cmdLast = 0#32 := rfl
@[simp] theorem resetRegisters_imgW (s : State) :
    (resetRegisters s).imgW = 0#16 := rfl
@[simp] theorem resetRegisters_imgH (s : State) :
    (resetRegisters s).imgH = 0#16 := rfl
@[simp] theorem resetRegisters_errCause (s : State) :
    (resetRegisters s).errCause = none := rfl
@[simp] theorem resetRegisters_errInfo (s : State) :
    (resetRegisters s).errInfo = 0#32 := rfl
@[simp] theorem resetRegisters_nv (s : State) :
    (resetRegisters s).nv = false := rfl
@[simp] theorem resetRegisters_sat (s : State) :
    (resetRegisters s).sat = false := rfl
@[simp] theorem resetRegisters_accAddr (s : State) :
    (resetRegisters s).accAddr = 0#30 := rfl
@[simp] theorem resetRegisters_pend (s : State) :
    (resetRegisters s).pend = 0#32 := rfl
@[simp] theorem resetRegisters_cfg (s : State) :
    (resetRegisters s).cfg = s.cfg := rfl
@[simp] theorem resetRegisters_inbox (s : State) :
    (resetRegisters s).inbox = s.inbox := rfl
@[simp] theorem resetRegisters_replies (s : State) :
    (resetRegisters s).replies = s.replies := rfl
@[simp] theorem resetRegisters_epoch (s : State) :
    (resetRegisters s).epoch = s.epoch := rfl
@[simp] theorem resetRegisters_fresh (s : State) :
    (resetRegisters s).fresh = s.fresh := rfl

end Sys2Proof.Machine
end

