-- ==== Sys2Proof/Laws/Command.lean ====
section
/-! SUPPORT. What a command can do, said once: every meaning is `command` of its effect; acceptance has
three outcomes; a completion changes its destinations, `BUSY`, `DONE` and the draw counter. -/

namespace Sys2Proof.Machine

/-- Every arm of `exec` is `command` applied to the effect of its family rule. -/
theorem exec_eq_command (i : Instr) (s : State) : exec i s = command i (effectOf i s) s := by
  cases i <;> rfl

/-- A validated command in flight completes (45_control.md R222). -/
theorem command_inFlight {i : Instr} {f : Effect} {s : State} (hb : s.busy = true)
    (hok : operandCause i s = none) : command i f s = .next (complete f s) := by
  simp [command, hb, hok]

/-- A presented command is accepted, refused or dropped (45_control.md R221). -/
theorem command_presented {i : Instr} {f : Effect} {s : State} (hb : s.busy = false) :
    command i f s = .next (accept i s) := by
  simp [command, hb]

theorem exec_inFlight {i : Instr} {s : State} (hb : s.busy = true)
    (hok : operandCause i s = none) : exec i s = .next (complete (effectOf i s) s) := by
  rw [exec_eq_command, command_inFlight hb hok]

theorem exec_presented {i : Instr} {s : State} (hb : s.busy = false) :
    exec i s = .next (accept i s) := by
  rw [exec_eq_command, command_presented hb]

/-- Everything `exec` can answer with a next state. -/
theorem exec_cases {i : Instr} {s t : State} (h : exec i s = .next t) :
    (s.busy = true ∧ operandCause i s = none ∧ t = complete (effectOf i s) s) ∨
    (s.busy = false ∧ t = accept i s) := by
  cases hb : s.busy with
  | true =>
    cases ho : operandCause i s with
    | none => exact .inl ⟨rfl, rfl, by rw [exec_inFlight hb ho] at h; exact (Host.Outcome.next.inj h).symm⟩
    | some c => simp [exec_eq_command, command, hb, ho] at h
  | false => exact .inr ⟨rfl, by rw [exec_presented hb] at h; exact (Host.Outcome.next.inj h).symm⟩

/-- Everything acceptance can do (45_control.md R221). -/
theorem accept_cases (i : Instr) (s : State) :
    (s.err = true ∧ accept i s = dropCommand s) ∨
    (s.err = false ∧ ∃ c, validate i s = some c ∧
      accept i s = cmdError c (encode i) { s with cmdLast := encode i, done := false }) ∨
    (s.err = false ∧ validate i s = none ∧
      accept i s = { s with cmdLast := encode i, done := false, pend := encode i, busy := true }) := by
  unfold accept
  cases he : s.err with
  | true => simp
  | false =>
    cases hv : validate i s with
    | some c => simp
    | none => simp

theorem validate_eq_none {i : Instr} {s : State} :
    validate i s = none ↔ operandCause i s = none ∧ referenceCause i s = none := by
  unfold validate
  cases operandCause i s <;> simp

/-- The checks 3 to 6 pass exactly when the registers, the plane, the geometry and the block index are
good. -/
theorem operandCause_eq_none {i : Instr} {s : State} :
    operandCause i s = none ↔
      (∀ f ∈ wFields i, f.val ≤ 1) ∧
      (∀ b, blockOperand? i = some b → b.2.1 ≠ 3) ∧
      (usesGeometry i = true → s.geomOk = true) ∧
      (∀ b, blockOperand? i = some b → b.2.2 < s.blockCount b.1) := by
  unfold operandCause
  split
  · next h =>
    obtain ⟨f, hf, h⟩ := List.any_eq_true.mp h
    have h := of_decide_eq_true h
    refine iff_of_false (by simp) fun hh => ?_
    have := hh.1 f hf
    omega
  · next h1 =>
    have hw : ∀ f ∈ wFields i, f.val ≤ 1 := fun f hf => by
      by_contra hc
      exact h1 (List.any_eq_true.mpr ⟨f, hf, by simpa using hc⟩)
    cases hb : blockOperand? i with
    | none =>
      cases hu : usesGeometry i <;> cases hg : s.geomOk <;> simp_all
    | some b =>
      by_cases h3 : b.2.1 = 3
      · simp [h3]
      · cases hu : usesGeometry i <;> cases hg : s.geomOk <;> simp_all

/-- The operand checks depend on the instance and the geometry alone. -/
theorem operandCause_congr {i : Instr} {s t : State} (hc : t.cfg = s.cfg) (hw : t.imgW = s.imgW)
    (hh : t.imgH = s.imgH) : operandCause i t = operandCause i s := by
  have hg : t.geomOk = s.geomOk := by simp only [State.geomOk, hc, hw, hh]
  have hk : ∀ n, t.blockCount n = s.blockCount n := fun n => by
    simp only [State.blockCount, State.cols, State.rows, hg, hw, hh]
  simp only [operandCause, hg, hk]

/-! ## Destinations -/

@[simp] theorem Effect.apply_v_none {f : Effect} (s : State) (h : f.v = none) :
    (f.apply s).v = s.v := by simp [Effect.apply, h]

@[simp] theorem Effect.apply_w_none {f : Effect} (s : State) (h : f.w = none) :
    (f.apply s).w = s.w := by simp [Effect.apply, h]

theorem Effect.apply_v_some {f : Effect} (s : State) {i : Fin 8} {b : Block8} (h : f.v = some (i, b)) :
    (f.apply s).v = s.v.set i.val b := by simp [Effect.apply, h]

theorem Effect.apply_w_some {f : Effect} (s : State) {j : Fin 2} {b : Block16} (h : f.w = some (j, b)) :
    (f.apply s).w = s.w.set j.val b := by simp [Effect.apply, h]

/-- Memory is read through `mem` and `epoch` only. -/
theorem State.readByte_congr {s t : State} (hm : t.mem = s.mem) (he : t.epoch = s.epoch) (a : Nat) :
    t.readByte a = s.readByte a := by simp only [State.readByte, hm, he]

/-- A byte of memory after a completion is what the written cells and bits leave there. -/
theorem complete_readByte (f : Effect) (s : State) (a : Nat) :
    (complete f s).readByte a = ((s.writeCells f.cells).writeBits f.bits).readByte a :=
  State.readByte_congr (t := complete f s) (s := (s.writeCells f.cells).writeBits f.bits) rfl
    (by simp) a

/-- A command that names no byte and no bit leaves every byte of memory unchanged. -/
theorem complete_readByte_of_no_store {f : Effect} (s : State) (hc : f.cells = []) (hb : f.bits = [])
    (a : Nat) : (complete f s).readByte a = s.readByte a := by
  rw [complete_readByte, hc, hb]; rfl

/-- A completion keeps the canonical form of memory. -/
theorem complete_wf (f : Effect) {s : State} (h : s.mem.wf) : (complete f s).mem.wf := by
  rw [complete_mem]
  exact State.writeBits_wf (s := s.writeCells f.cells) (Memory.wf_writeCells h _) _

/-! ## Reading after a completion -/

theorem complete_readV_none {f : Effect} (s : State) (h : f.v = none) (i : Fin 8) (e : Fin 64) :
    (complete f s).readV i e = s.readV i e := by
  show (f.apply s).v[i.val][e.val] = _
  simp only [Effect.apply_v_none s h, State.readV]

theorem complete_readV {f : Effect} (s : State) {i : Fin 8} {b : Block8} (h : f.v = some (i, b))
    (e : Fin 64) : (complete f s).readV i e = b[e.val] := by
  show (f.apply s).v[i.val][e.val] = _
  simp only [Effect.apply_v_some s h, Vector.getElem_set_self]

theorem complete_readV_other {f : Effect} (s : State) {i j : Fin 8} {b : Block8}
    (h : f.v = some (i, b)) (hj : j ≠ i) (e : Fin 64) : (complete f s).readV j e = s.readV j e := by
  show (f.apply s).v[j.val][e.val] = _
  have hne : i.val ≠ j.val := fun hh => hj (Fin.ext hh.symm)
  simp only [Effect.apply_v_some s h, State.readV, Vector.getElem_set_ne _ _ hne]

theorem complete_readW_none {f : Effect} (s : State) (h : f.w = none) (i : Fin 2) (e : Fin 256) :
    (complete f s).readW i e = s.readW i e := by
  show (f.apply s).w[i.val][e.val] = _
  simp only [Effect.apply_w_none s h, State.readW]

theorem complete_readW {f : Effect} (s : State) {i : Fin 2} {b : Block16} (h : f.w = some (i, b))
    (e : Fin 256) : (complete f s).readW i e = b[e.val] := by
  show (f.apply s).w[i.val][e.val] = _
  simp only [Effect.apply_w_some s h, Vector.getElem_set_self]

theorem complete_readW_other {f : Effect} (s : State) {i j : Fin 2} {b : Block16}
    (h : f.w = some (i, b)) (hj : j ≠ i) (e : Fin 256) : (complete f s).readW j e = s.readW j e := by
  show (f.apply s).w[j.val][e.val] = _
  have hne : i.val ≠ j.val := fun hh => hj (Fin.ext hh.symm)
  simp only [Effect.apply_w_some s h, State.readW, Vector.getElem_set_ne _ _ hne]

/-- A command that stores a family of samples of one plane, no two at one place, leaves them there. -/
theorem complete_readPlane_stored {f : Effect} {s : State} {p : Nat} {idx : List Nat} {g : Nat → Nat} {val : Nat → Sample}
  (hc : f.cells = idx.flatMap fun e => leCells (planeOff p (g e)) 8 (val e).toNat) (hb : f.bits = [])
  (hinj : ∀ e ∈ idx, ∀ e' ∈ idx, g e = g e' → e = e') {e : Nat} (he : e ∈ idx) :
  (complete f s).readPlane p (g e) = val e := by
  apply State.readPlane_of_bytes
  intro i hi
  rw [complete_readByte, hb]
  show (s.writeCells f.cells).readByte _ = _
  apply State.readByte_writeCells_mem
  · rw [hc]
    exact List.mem_flatMap.mpr ⟨e, he, mem_leCells hi⟩
  · intro c hcm hca
    rw [hc] at hcm
    obtain ⟨e', he', hcm⟩ := List.mem_flatMap.mp hcm
    have hbd := mem_leCells_bounds hcm
    have : g e' = g e := planeOff_sep (p := p) (a := c.1) (by omega) (by omega) (by omega) (by omega)
    have := hinj _ he' _ he this
    subst this
    rw [leCells_value hcm, hca]
    congr 3
    omega

/-- A command that stores a family of samples of one plane keeps every other byte. -/
theorem complete_readByte_not_stored {f : Effect} {s : State} {p : Nat} {idx : List Nat} {g : Nat → Nat} {val : Nat → Sample}
  (hc : f.cells = idx.flatMap fun e => leCells (planeOff p (g e)) 8 (val e).toNat) (hb : f.bits = [])
  {a : Nat} (h : ∀ e ∈ idx, ¬ (planeOff p (g e) ≤ a ∧ a < planeOff p (g e) + 8)) :
  (complete f s).readByte a = s.readByte a := by
  rw [complete_readByte, hb]
  show (s.writeCells f.cells).readByte _ = _
  apply State.readByte_writeCells_other
  intro c hcm hca
  rw [hc] at hcm
  obtain ⟨e', he', hcm⟩ := List.mem_flatMap.mp hcm
  have hbd := mem_leCells_bounds hcm
  subst hca
  exact h e' he' hbd

end Sys2Proof.Machine
end

