-- ==== Sys2Proof/Laws/Decode.lean ====
section
/-! SUPPORT. Laws of decoding and encoding: reserved masks as numbers, and the encoders' fields. -/

namespace Sys2Proof

/-- A mask of `n` ones at bit `lo` selects a field. -/
theorem and_fieldMask (x lo n : Nat) :
    x &&& ((2 ^ n - 1) * 2 ^ lo) = x / 2 ^ lo % 2 ^ n * 2 ^ lo := by
  apply Nat.eq_of_testBit_eq
  intro i
  rw [← Nat.shiftLeft_eq, ← Nat.shiftLeft_eq, Nat.testBit_and, Nat.testBit_shiftLeft,
    Nat.testBit_shiftLeft, Nat.testBit_two_pow_sub_one, Nat.testBit_mod_two_pow,
    Nat.testBit_div_two_pow]
  by_cases h : lo ≤ i
  · have : i - lo + lo = i := by omega
    simp [h, this, Bool.and_comm]
  · simp [h]

/-- The reserved bits of format N (30_encoding.md R98) are all zero when the number below bit 26 is. -/
theorem and_maskN (w : Word) : w &&& maskN = 0#32 ↔ w.toNat % 2 ^ 26 = 0 := by
  have := and_fieldMask w.toNat 0 26
  simp only [Nat.pow_zero, Nat.mul_one, Nat.div_one] at this
  rw [← BitVec.toNat_inj, BitVec.toNat_and, show maskN.toNat = 2 ^ 26 - 1 from rfl, this]
  rfl

theorem and_maskR2 (w : Word) : w &&& maskR2 = 0#32 ↔ w.toNat % 2 ^ 20 = 0 := by
  have := and_fieldMask w.toNat 0 20
  simp only [Nat.pow_zero, Nat.mul_one, Nat.div_one] at this
  rw [← BitVec.toNat_inj, BitVec.toNat_and, show maskR2.toNat = 2 ^ 20 - 1 from rfl, this]
  rfl

theorem and_maskR3 (w : Word) : w &&& maskR3 = 0#32 ↔ w.toNat % 2 ^ 17 = 0 := by
  have := and_fieldMask w.toNat 0 17
  simp only [Nat.pow_zero, Nat.mul_one, Nat.div_one] at this
  rw [← BitVec.toNat_inj, BitVec.toNat_and, show maskR3.toNat = 2 ^ 17 - 1 from rfl, this]
  rfl

theorem and_maskM (w : Word) : w &&& maskM = 0#32 ↔ w.toNat / 2 ^ 18 % 8 = 0 := by
  have := and_fieldMask w.toNat 18 3
  rw [← BitVec.toNat_inj, BitVec.toNat_and, show maskM.toNat = (2 ^ 3 - 1) * 2 ^ 18 from rfl, this]
  show w.toNat / 2 ^ 18 % 2 ^ 3 * 2 ^ 18 = 0 ↔ _
  omega

/-! ## The encoders as numbers -/

theorem encN_toNat {op : Nat} (h : op < 64) : (encN op).toNat = op * 2 ^ 26 := by
  simp only [encN, BitVec.toNat_ofNat]; omega

theorem encR2_toNat {op : Nat} (h : op < 64) (d a : Fin 8) :
    (encR2 op d a).toNat = op * 2 ^ 26 + d.val * 2 ^ 23 + a.val * 2 ^ 20 := by
  simp only [encR2, BitVec.toNat_ofNat]; omega

theorem encR3_toNat {op : Nat} (h : op < 64) (d a b : Fin 8) :
    (encR3 op d a b).toNat = op * 2 ^ 26 + d.val * 2 ^ 23 + a.val * 2 ^ 20 + b.val * 2 ^ 17 := by
  simp only [encR3, BitVec.toNat_ofNat]; omega

theorem encM_toNat {op : Nat} (h : op < 64) (r : Fin 8) (pl : Fin 4) {k : Nat} (hk : k < 2 ^ 18) :
    (encM op r pl k).toNat = op * 2 ^ 26 + r.val * 2 ^ 23 + pl.val * 2 ^ 21 + k := by
  simp only [encM, BitVec.toNat_ofNat]; omega

end Sys2Proof
end

