-- ==== Sys2Proof/Laws/Float.lean ====
section
/-! SUPPORT. Laws of the binary64 arithmetic: results are representable, and a representable value is
read back from its bit pattern. -/

namespace Sys2Proof.Machine

/-- A value some bit pattern has: at most 53 significant bits, below 2^1024. -/
def F64.Canonical (x : F64) : Prop :=
  match x with
  | .nan => True
  | .inf _ => True
  | .fin _ m => m < overflowUnits ∧ 2 ^ (Nat.log2 m - 52) ∣ m

theorem packBits_fields {neg : Bool} {ex frac : Nat} (he : ex < 2048) (hf : frac < 2 ^ 52) :
    expField (packBits neg ex frac) = ex ∧ fracField (packBits neg ex frac) = frac ∧
      signField (packBits neg ex frac) = neg := by
  cases neg <;> simp only [expField, fracField, signField, packBits, BitVec.toNat_ofNat] <;>
    refine ⟨?_, ?_, ?_⟩ <;> simp <;> omega

/-- A bit pattern is the packing of its fields. -/
theorem packBits_of_fields (x : Sample) : packBits (signField x) (expField x) (fracField x) = x := by
  apply BitVec.eq_of_toNat_eq
  have := x.isLt
  simp only [expField, fracField, signField, packBits, BitVec.toNat_ofNat, decide_eq_true_eq]
  split <;> omega

theorem expField_lt (x : Sample) : expField x < 2048 := Nat.mod_lt _ (by decide)

theorem fracField_lt (x : Sample) : fracField x < 2 ^ 52 := Nat.mod_lt _ (by decide)

/-- Whatever the free bits, a stored NaN is a NaN pattern (93_implementation_defined.md U3). -/
theorem isNaN_nanOf (free : Sample) : isNaN (nanOf free) = true := by
  have hf := fracField_lt free
  obtain ⟨h1, h2, -⟩ := packBits_fields (neg := signField free) (ex := 2047)
    (frac := if fracField free = 0 then 1 else fracField free) (by decide) (by split <;> omega)
  simp only [isNaN, nanOf, h1, h2]
  split <;> simp_all

/-- Every NaN pattern can be the one stored. -/
theorem nanOf_of_isNaN {x : Sample} (h : isNaN x = true) : nanOf x = x := by
  simp only [isNaN, Bool.and_eq_true, decide_eq_true_eq] at h
  rw [nanOf, if_neg h.2]
  conv_rhs => rw [← packBits_of_fields x, h.1]

theorem log2_bounds {m : Nat} (h : m ≠ 0) : 2 ^ Nat.log2 m ≤ m ∧ m < 2 ^ (Nat.log2 m + 1) :=
  ⟨Nat.log2_self_le h, Nat.lt_log2_self⟩

theorem log2_lt_of_lt_overflow {m : Nat} (hm : m ≠ 0) (h : m < overflowUnits) :
    Nat.log2 m < 2098 := by
  unfold overflowUnits at h
  exact (Nat.log2_lt (k := 2098) hm).mpr h

theorem overflowUnits_pos : 0 < overflowUnits := by
  unfold overflowUnits
  exact Nat.two_pow_pos 2098

/-- A representable value is read back from its bit pattern. -/
theorem F64.ofBits_toBits_fin (free : Sample) {neg : Bool} {m : Nat}
    (h : F64.Canonical (.fin neg m)) : F64.ofBits ((F64.fin neg m).toBits free) = .fin neg m := by
  obtain ⟨hlt, hdvd⟩ := h
  simp only [F64.toBits]
  split
  · next hs =>
    obtain ⟨h1, h2, h3⟩ := packBits_fields (neg := neg) (ex := 0) (by decide) hs
    simp [F64.ofBits, h1, h2, h3]
  · next hs =>
    have hm : m ≠ 0 := by omega
    obtain ⟨hlo, hhi⟩ := log2_bounds hm
    have h52 : 52 ≤ Nat.log2 m := (Nat.le_log2 hm).mpr (by omega)
    have hl : Nat.log2 m < 2098 := log2_lt_of_lt_overflow hm hlt
    obtain ⟨k, hk⟩ : ∃ k, Nat.log2 m = 52 + k := ⟨Nat.log2 m - 52, by omega⟩
    rw [hk] at hlo hhi hdvd hl
    rw [hk, Nat.add_sub_cancel_left] at *
    obtain ⟨q, rfl⟩ := hdvd
    have hpos : 0 < 2 ^ k := Nat.two_pow_pos k
    rw [Nat.mul_div_cancel_left _ hpos]
    have hq1 : 2 ^ 52 ≤ q := by
      rw [Nat.pow_add, Nat.mul_comm] at hlo
      exact Nat.le_of_mul_le_mul_left hlo hpos
    have hq2 : q < 2 ^ 53 := by
      rw [show 52 + k + 1 = k + 53 by omega, Nat.pow_add] at hhi
      exact Nat.lt_of_mul_lt_mul_left hhi
    obtain ⟨h1, h2, h3⟩ := packBits_fields (neg := neg) (ex := k + 1) (frac := q - 2 ^ 52)
      (by omega) (by omega)
    simp only [F64.ofBits, h1, h2, h3]
    rw [if_neg (by omega), if_neg (by omega), Nat.add_sub_cancel,
      show 2 ^ 52 + (q - 2 ^ 52) = q by omega, Nat.mul_comm]

/-- Rounding gives at most 53 significant bits. -/
theorem roundUnits_canonical (a j : Nat) : 2 ^ (Nat.log2 (roundUnits a j) - 52) ∣ roundUnits a j := by
  simp only [roundUnits]
  generalize ht : max (Nat.log2 a + 1 - 53) j = t
  have hq : roundDiv a t ≤ 2 ^ 53 := by
    have hlt : a < 2 ^ (53 + t) :=
      lt_of_lt_of_le Nat.lt_log2_self (Nat.pow_le_pow_right (by decide) (by omega))
    have : a / 2 ^ t < 2 ^ 53 := by
      rw [Nat.div_lt_iff_lt_mul (Nat.two_pow_pos t), ← Nat.pow_add]
      exact hlt
    simp only [roundDiv]
    split <;> omega
  generalize roundDiv a t = q at hq
  generalize t - j = e
  rcases Nat.eq_or_lt_of_le hq with rfl | hq
  · rw [← Nat.pow_add, Nat.log2_two_pow]
    exact Nat.pow_dvd_pow 2 (by omega)
  · by_cases hz : q * 2 ^ e = 0
    · rw [hz]; exact dvd_zero _
    · refine dvd_trans (Nat.pow_dvd_pow 2 ?_) (Dvd.intro_left q rfl)
      have : Nat.log2 (q * 2 ^ e) < 53 + e := by
        rw [Nat.log2_lt hz, Nat.pow_add]
        exact Nat.mul_lt_mul_of_pos_right hq (Nat.two_pow_pos e)
      omega

theorem F64.canonical_rounded (neg : Bool) (a j : Nat) : (F64.rounded neg a j).Canonical := by
  simp only [F64.rounded]
  split
  · next h => exact ⟨h, roundUnits_canonical a j⟩
  · exact True.intro

theorem F64.canonical_zero (neg : Bool) : (F64.fin neg 0).Canonical := ⟨overflowUnits_pos, dvd_zero _⟩

theorem F64.canonical_nan : F64.nan.Canonical := True.intro

theorem F64.canonical_inf (neg : Bool) : (F64.inf neg).Canonical := True.intro

/-- Every sum is representable. -/
theorem F64.canonical_add (x y : F64) : (x.add y).Canonical := by
  cases x with
  | nan => cases y <;> exact F64.canonical_nan
  | inf s =>
    cases y with
    | nan => exact F64.canonical_nan
    | inf t => cases s <;> cases t <;> exact True.intro
    | fin t n => exact F64.canonical_inf s
  | fin s m =>
    cases y with
    | nan => exact F64.canonical_nan
    | inf t => exact F64.canonical_inf t
    | fin t n =>
      simp only [F64.add]
      split
      · exact F64.canonical_zero _
      · exact F64.canonical_rounded ..

/-- Every difference is representable. -/
theorem F64.canonical_sub (x y : F64) : (x.sub y).Canonical := F64.canonical_add x y.neg

/-- Every product is representable. -/
theorem F64.canonical_mul (x y : F64) : (x.mul y).Canonical := by
  cases x with
  | nan => cases y <;> exact F64.canonical_nan
  | inf s =>
    cases y with
    | nan => exact F64.canonical_nan
    | inf t => exact F64.canonical_inf _
    | fin t n =>
      simp only [F64.mul]
      split
      · exact F64.canonical_nan
      · exact F64.canonical_inf _
  | fin s m =>
    cases y with
    | nan => exact F64.canonical_nan
    | inf t =>
      simp only [F64.mul]
      split
      · exact F64.canonical_nan
      · exact F64.canonical_inf _
    | fin t n => exact F64.canonical_rounded ..

/-- A representable value is read back from the pattern it is stored as, whatever the free bits of a
NaN are (00_scope.md R9). -/
theorem F64.ofBits_toBits (free : Sample) {x : F64} (h : x.Canonical) :
    F64.ofBits (x.toBits free) = x := by
  cases x with
  | nan =>
    have := isNaN_nanOf free
    simp only [isNaN, Bool.and_eq_true, decide_eq_true_eq] at this
    simp [F64.toBits, F64.ofBits, this]
  | inf s =>
    obtain ⟨h1, h2, h3⟩ := packBits_fields (neg := s) (ex := 2047) (frac := 0) (by decide)
      (by decide)
    simp [F64.toBits, F64.ofBits, h1, h2, h3]
  | fin s m => exact F64.ofBits_toBits_fin free h

end Sys2Proof.Machine
end

