-- ==== Sys2Proof/Laws/PerInstr.lean ====
section
/-! SUPPORT. Statements per instruction. `RowFields`: the word of a well-formed command carries its
row's opcode, and the fields the opcode map reads from it make the command again (30_encoding.md R91
to R96). -/

namespace Sys2Proof.Laws.RowFields

/-- The opcode map of 30_encoding.md R94, applied to the command's own word, makes the command. -/
def Statement (i : Instr) : Prop :=
  i.wellFormed = true → (opRow? (field (encode i) 31 26)).map (fun row => row.2 (encode i)) = some i

theorem nop : Statement .nop := fun _ => rfl

theorem cscf : Statement .cscf := fun _ => rfl

theorem csci : Statement .csci := fun _ => rfl

/-- The fields of a two-operand format R word (30_encoding.md R92). -/
theorem encR2_fields {op : Nat} (h : op < 64) (d a : Fin 8) :
    field (encR2 op d a) 31 26 = op ∧ regField (encR2 op d a) 23 = d ∧
      regField (encR2 op d a) 20 = a := by
  have e := encR2_toNat h d a
  refine ⟨?_, ?_, ?_⟩
  · simp only [field, e]; omega
  · ext; simp only [regField, field, e]; omega
  · ext; simp only [regField, field, e]; omega

/-- The fields of a three-operand format R word (30_encoding.md R92). -/
theorem encR3_fields {op : Nat} (h : op < 64) (d a b : Fin 8) :
    field (encR3 op d a b) 31 26 = op ∧ regField (encR3 op d a b) 23 = d ∧
      regField (encR3 op d a b) 20 = a ∧ regField (encR3 op d a b) 17 = b := by
  have e := encR3_toNat h d a b
  refine ⟨?_, ?_, ?_, ?_⟩
  · simp only [field, e]; omega
  · ext; simp only [regField, field, e]; omega
  · ext; simp only [regField, field, e]; omega
  · ext; simp only [regField, field, e]; omega

theorem fdct (d a : Fin 8) : Statement (.fdct d a) := by
  intro _
  obtain ⟨ho, hd, ha⟩ := encR2_fields (op := 0x08) (by decide) d a
  simp [encode, ho, opRow?, hd, ha]

theorem idct (d a : Fin 8) : Statement (.idct d a) := by
  intro _
  obtain ⟨ho, hd, ha⟩ := encR2_fields (op := 0x09) (by decide) d a
  simp [encode, ho, opRow?, hd, ha]

theorem down (d a : Fin 8) : Statement (.down d a) := by
  intro _
  obtain ⟨ho, hd, ha⟩ := encR2_fields (op := 0x0C) (by decide) d a
  simp [encode, ho, opRow?, hd, ha]

theorem up (d a : Fin 8) : Statement (.up d a) := by
  intro _
  obtain ⟨ho, hd, ha⟩ := encR2_fields (op := 0x0D) (by decide) d a
  simp [encode, ho, opRow?, hd, ha]

theorem vsub (d a b : Fin 8) : Statement (.vsub d a b) := by
  intro _
  obtain ⟨ho, hd, ha, hb⟩ := encR3_fields (op := 0x0E) (by decide) d a b
  simp [encode, ho, opRow?, hd, ha, hb]

theorem wadd (d a b : Fin 8) : Statement (.wadd d a b) := by
  intro _
  obtain ⟨ho, hd, ha, hb⟩ := encR3_fields (op := 0x0F) (by decide) d a b
  simp [encode, ho, opRow?, hd, ha, hb]

/-- The fields of a format M word (30_encoding.md R93). -/
theorem encM_fields {op : Nat} (h : op < 64) (r : Fin 8) (pl : Fin 4) {k : Nat} (hk : k < 2 ^ 18) :
    field (encM op r pl k) 31 26 = op ∧ regField (encM op r pl k) 23 = r ∧
      planeField (encM op r pl k) = pl ∧ blockField (encM op r pl k) = k := by
  have e := encM_toNat h r pl hk
  refine ⟨?_, ?_, ?_, ?_⟩
  · simp only [field, e]; omega
  · ext; simp only [regField, field, e]; omega
  · ext; simp only [planeField, field, e]; omega
  · simp only [blockField, field, e]; omega

theorem bld8 (r : Fin 8) (pl : Fin 4) (k : Nat) : Statement (.bld8 r pl k) := by
  intro hk
  obtain ⟨ho, hr, hp, hb⟩ := encM_fields (op := 0x10) (by decide) r pl (of_decide_eq_true hk)
  simp [encode, ho, opRow?, hr, hp, hb]

theorem bst8 (r : Fin 8) (pl : Fin 4) (k : Nat) : Statement (.bst8 r pl k) := by
  intro hk
  obtain ⟨ho, hr, hp, hb⟩ := encM_fields (op := 0x11) (by decide) r pl (of_decide_eq_true hk)
  simp [encode, ho, opRow?, hr, hp, hb]

theorem bld16 (r : Fin 8) (pl : Fin 4) (k : Nat) : Statement (.bld16 r pl k) := by
  intro hk
  obtain ⟨ho, hr, hp, hb⟩ := encM_fields (op := 0x12) (by decide) r pl (of_decide_eq_true hk)
  simp [encode, ho, opRow?, hr, hp, hb]

theorem bst16 (r : Fin 8) (pl : Fin 4) (k : Nat) : Statement (.bst16 r pl k) := by
  intro hk
  obtain ⟨ho, hr, hp, hb⟩ := encM_fields (op := 0x13) (by decide) r pl (of_decide_eq_true hk)
  simp [encode, ho, opRow?, hr, hp, hb]

theorem lsbe : Statement .lsbe := fun _ => rfl

theorem lsbx : Statement .lsbx := fun _ => rfl

end Sys2Proof.Laws.RowFields
end

