-- ==== Sys2Proof/Laws/Step.lean ====
section
/-! SUPPORT. Laws of the host's window and of the step: where an offset lies, when an access is rejected,
what each kind of event can do. -/

namespace Sys2Proof.Machine

open Sys2Proof.Safety

/-! ## The window map -/

theorem placeOf_csr (c : Config.Params) {off : Nat} (h : off < 0x1000) : placeOf c off = .csr := by
  simp [placeOf, h]

theorem placeOf_ne_csr (c : Config.Params) {off : Nat} (h : 0x1000 ≤ off) : placeOf c off ≠ .csr := by
  unfold placeOf
  split
  · omega
  · split
    · simp
    · split
      · simp
      · split
        · simp
        · split
          · simp
          · split <;> simp

/-- The largest legal `MAX_PIX` and its divisor (00_scope.md R7, 20_memory.md R61). -/
theorem maxPix_legal {c : Config.Params} (h : c.legal) : c.maxPix ≤ 2 ^ 24 ∧ c.maxPix % 256 = 0 := by
  obtain ⟨⟨h1, -, h2⟩, ⟨h3, -, h4⟩⟩ := h
  obtain ⟨a, ha⟩ := Nat.dvd_of_mod_eq_zero h1
  obtain ⟨b, hb⟩ := Nat.dvd_of_mod_eq_zero h3
  unfold Config.Params.maxPix
  constructor
  · calc c.maxW * c.maxH ≤ 4096 * 4096 := Nat.mul_le_mul h2 h4
      _ = 2 ^ 24 := by norm_num
  · rw [ha, hb, show 16 * a * (16 * b) = 256 * (a * b) by ring, Nat.mul_mod_right]

/-- The image lies inside the instance (10_state.md R35). -/
theorem pixels_le_maxPix {s : State} (h : s.geomOk = true) : s.pixels ≤ s.cfg.maxPix := by
  simp only [State.geomOk, Bool.and_eq_true, decide_eq_true_eq] at h
  exact Nat.mul_le_mul h.1.1.2 h.2

/-- A valid byte of the pixel memory (20_memory.md R61). -/
theorem placeOf_pix {c : Config.Params} (hl : c.legal) {a : Nat} (h : a < 4 * c.maxPix) :
    placeOf c (pixOff a) = .pix := by
  have hM := maxPix_legal hl
  have hb : ¬ inBit c (pixOff a) = true := by
    simp only [inBit, Bool.and_eq_true, decide_eq_true_eq]; unfold pixOff bitOff; omega
  have hp : inPix c (pixOff a) = true := by
    simp only [inPix, Bool.and_eq_true, decide_eq_true_eq]; unfold pixOff; omega
  unfold pixOff at *
  rw [placeOf, if_neg (by omega), if_neg (by omega), if_neg (by omega), if_neg hb, if_pos hp]

/-- A valid byte of the bit memory (20_memory.md R61). -/
theorem placeOf_bit {c : Config.Params} {y : Nat} (h : 8 * y < 3 * c.maxPix)
    (hl : c.legal) : placeOf c (bitOff y) = .bit := by
  have hM := maxPix_legal hl
  have hb : inBit c (bitOff y) = true := by
    simp only [inBit, Bool.and_eq_true, decide_eq_true_eq]; unfold bitOff; omega
  unfold bitOff at *
  rw [placeOf, if_neg (by omega), if_neg (by omega), if_neg (by omega), if_pos hb]

/-! ## Served accesses -/

/-- A read that is not rejected replies its value and does nothing else. -/
theorem serve_read {s : State} {off : Offset} {w : Width} (h : rejects s off.toNat w.bytes = false) :
    serve (.read off w) s = .next { s with replies := readValue s off.toNat w.bytes :: s.replies } := by
  simp only [serve, hostRead, h, Bool.false_eq_true, if_false]

/-- A write that is not rejected reaches its place. -/
theorem serve_write {s : State} {off : Offset} {w : Width} {data : BitVec 64}
    (h : rejectsWrite s off.toNat w.bytes = false) :
    serve (.write off w data) s = writeValue off.toNat w.bytes data s := by
  simp only [serve, hostWrite, h, Bool.false_eq_true, if_false]

/-! ## Register accesses -/

/-- A register read of 32 bits is never rejected (20_memory.md R67, R69). -/
theorem rejects_csr (s : State) {off : Nat} (h : off < 0x1000) (h4 : off % 4 = 0) :
    rejects s off 4 = false := by
  simp [rejects, placeOf_csr s.cfg h, widthAllowed, h4]

/-- A 32-bit register write reaches the register, but for the geometry while `BUSY = 1`. -/
theorem hostWrite_csr (s : State) (off : Offset) (x : Word) (h : off.toNat < 0x1000)
    (h4 : off.toNat % 4 = 0) (hg : s.busy = true → off.toNat ≠ 0x014 ∧ off.toNat ≠ 0x018) :
    hostWrite off 4 (x.setWidth 64) s = writeCsr off.toNat x s := by
  have hr : rejectsWrite s off.toNat 4 = false := by
    rw [rejectsWrite, rejects_csr s h h4]
    cases hb : s.busy with
    | false => rfl
    | true => simp [hg hb]
  have hx : (x.setWidth 64).setWidth 32 = x := by
    apply BitVec.eq_of_toNat_eq
    simp only [BitVec.toNat_setWidth]
    have := x.isLt
    omega
  rw [hostWrite, hr, if_neg (by decide), writeValue, placeOf_csr s.cfg h, hx]

/-- A `CMD` write presents its word (45_control.md R221), busy or not. -/
theorem serve_cmd (s : State) (x : Word) :
    serve (.write 0x010#30 .b4 (x.setWidth 64)) s = presentWord x s := by
  show hostWrite 0x010#30 4 (x.setWidth 64) s = _
  rw [hostWrite_csr s 0x010#30 x (by decide) (by decide) (fun _ => by decide)]
  rfl

/-! ## What the parts of a step can do -/

/-- A host read changes only the reply and the access record. -/
theorem hostRead_eq (off : Offset) (n : Nat) (s : State) : hostRead off n s =
    { s with
      replies := (hostRead off n s).replies
      accerr := (hostRead off n s).accerr
      accAddr := (hostRead off n s).accAddr } := by
  unfold hostRead
  split <;> rfl

/-- Presenting a word: dropped, refused, or put in flight (45_control.md R221). -/
theorem presentWord_cases (x : Word) (s : State) :
    ((s.busy || s.err) = true ∧ presentWord x s = .next (dropCommand s)) ∨
    (s.busy = false ∧ s.err = false ∧ decode x = .illegalOpcode ∧ presentWord x s =
      .next (cmdError .illegalOpcode x { s with cmdLast := x, done := false })) ∨
    (s.busy = false ∧ s.err = false ∧ decode x = .reservedBits ∧ presentWord x s =
      .next (cmdError .reservedBits x { s with cmdLast := x, done := false })) ∨
    (s.busy = false ∧ s.err = false ∧ ∃ i, decode x = .instr i ∧
      presentWord x s = .next (accept i s)) := by
  unfold presentWord
  cases hb : s.busy with
  | true => simp
  | false =>
    cases he : s.err with
    | true => simp
    | false =>
      cases hd : decode x with
      | illegalOpcode => simp
      | reservedBits => simp
      | instr i =>
        refine .inr (.inr (.inr ⟨rfl, rfl, i, rfl, ?_⟩))
        simp [exec_presented hb]

/-- The engine's turn with a validated command in flight completes it (45_control.md R222). -/
theorem engineStep_validated {s : State} (hb : s.busy = true) {i : Instr}
    (hd : decode s.pend = .instr i) (ho : operandCause i s = none) :
    engineStep s = .next (complete (effectOf i s) s) := by
  rw [engineStep, hd]
  exact exec_inFlight hb ho

/-- Everything the engine's turn can answer with a next state while busy. -/
theorem engineStep_cases {s t : State} (hb : s.busy = true) (h : engineStep s = .next t) :
    ∃ i, decode s.pend = .instr i ∧ operandCause i s = none ∧ t = complete (effectOf i s) s := by
  unfold engineStep at h
  cases hd : decode s.pend with
  | illegalOpcode => simp [hd] at h
  | reservedBits => simp [hd] at h
  | instr i =>
    simp only [hd] at h
    rcases exec_cases h with ⟨-, ho, rfl⟩ | ⟨hf, -⟩
    · exact ⟨i, rfl, ho, rfl⟩
    · simp [hb] at hf

/-! ## Everything a step can do -/

/-- Everything a register write can answer with a next state (10_state.md R27 to R43). -/
theorem writeCsr_cases {off : Nat} {x : Word} {s t : State} (h : writeCsr off x s = .next t) :
    (off = 0x008 ∧ t = writeCtrl x s) ∨ (off = 0x00C ∧ t = writeStatus x s) ∨
    (off = 0x010 ∧ presentWord x s = .next t) ∨
    (off = 0x014 ∧ t = { s with imgW := x.setWidth 16 }) ∨
    (off = 0x018 ∧ t = { s with imgH := x.setWidth 16 }) ∨
    (off = 0x034 ∧ t = writeFlags x s) ∨ t = s := by
  unfold writeCsr at h
  split at h <;> simp_all

/-- A plane, the bit memory or the pixel memory. -/
theorem placeOf_memory {c : Config.Params} {off : Nat}
    (h : placeOf c off = .plane ∨ placeOf c off = .bit ∨ placeOf c off = .pix) :
    0x3000 ≤ off ∧ memoryOffset c off = true := by
  unfold placeOf at h
  unfold memoryOffset
  split at h
  · simp at h
  · split at h
    · simp at h
    · split at h
      · simp at h
      · refine ⟨by omega, ?_⟩
        split at h
        · simp [*]
        · split at h
          · simp [*]
          · split at h
            · simp_all
            · simp at h

/-- Everything an accepted host write can answer with a next state. -/
theorem hostWrite_cases {off : Offset} {n : Nat} {data : BitVec 64} {s t : State}
    (h : hostWrite off n data s = .next t) :
    t = accessError off s ∨
    (off.toNat < 0x1000 ∧ (s.busy = true → off.toNat ≠ 0x014 ∧ off.toNat ≠ 0x018) ∧
      writeCsr off.toNat (data.setWidth 32) s = .next t) ∨
    (s.busy = false ∧ ((∃ i e x, t = s.writeV i e x) ∨ (∃ j e x, t = s.writeW j e x) ∨
      (memoryOffset s.cfg off.toNat = true ∧ widthAllowed (placeOf s.cfg off.toNat) n = true ∧
        off.toNat % n = 0 ∧ t = s.writeCells (leCells off.toNat n data.toNat)))) := by
  unfold hostWrite at h
  split at h
  · exact .inl (by simpa using h.symm)
  · next hr =>
    have hrej : rejects s off.toNat n = false ∧
        (s.busy = true → off.toNat ≠ 0x014 ∧ off.toNat ≠ 0x018) := by
      simp only [rejectsWrite, Bool.or_eq_true, Bool.and_eq_true, decide_eq_true_eq, not_or,
        not_and, Bool.not_eq_true] at hr
      exact hr
    obtain ⟨hrej, hg⟩ := hrej
    simp only [rejects, Bool.or_eq_false_iff, Bool.not_eq_false', decide_eq_false_iff_not,
      Bool.and_eq_false_iff, not_not] at hrej
    obtain ⟨⟨hw, ha⟩, hb⟩ := hrej
    unfold writeValue at h
    by_cases hlt : off.toNat < 0x1000
    · rw [placeOf_csr s.cfg hlt] at h
      exact .inr (.inl ⟨hlt, hg, h⟩)
    · have hne := placeOf_ne_csr s.cfg (off := off.toNat) (by omega)
      have hb : s.busy = false := by
        rcases hb with hb | hb
        · exact hb
        · exact absurd hb hne
      refine .inr (.inr ⟨hb, ?_⟩)
      cases hp : placeOf s.cfg off.toNat with
      | csr => exact absurd hp hne
      | v i e => rw [hp] at h; exact .inl ⟨i, e, _, by simpa using h.symm⟩
      | w j e => rw [hp] at h; exact .inr (.inl ⟨j, e, _, by simpa using h.symm⟩)
      | absent => rw [hp] at hw; simp [widthAllowed] at hw
      | plane =>
        rw [hp] at h
        exact .inr (.inr ⟨(placeOf_memory (by simp [hp])).2, hp ▸ hw, ha, by simpa using h.symm⟩)
      | bit =>
        rw [hp] at h
        exact .inr (.inr ⟨(placeOf_memory (by simp [hp])).2, hp ▸ hw, ha, by simpa using h.symm⟩)
      | pix =>
        rw [hp] at h
        exact .inr (.inr ⟨(placeOf_memory (by simp [hp])).2, hp ▸ hw, ha, by simpa using h.symm⟩)

/-- Everything an event can do when it answers a next state. -/
theorem serve_cases {e : Event} {s t : State} (h : serve e s = .next t) :
    (∃ off n, t = hostRead off n s) ∨
    (∃ off, t = accessError off s) ∨
    (∃ (off : Offset) (x : Word), off.toNat < 0x1000 ∧
      (s.busy = true → off.toNat ≠ 0x014 ∧ off.toNat ≠ 0x018) ∧ writeCsr off.toNat x s = .next t) ∨
    (s.busy = false ∧ ((∃ i e x, t = s.writeV i e x) ∨ (∃ j e x, t = s.writeW j e x) ∨
      (∃ off n x, memoryOffset s.cfg off = true ∧ widthAllowed (placeOf s.cfg off) n = true ∧
        off % n = 0 ∧ t = s.writeCells (leCells off n x)))) ∨
    (e = .engine ∧ s.busy = true ∧ engineStep s = .next t) ∨
    (e = .engine ∧ s.busy = false ∧ t = s) ∨ t = powerOnReset s := by
  cases e with
  | read off w => exact .inl ⟨off, w.bytes, by simpa [serve] using h.symm⟩
  | write off w data =>
    rcases hostWrite_cases h with rfl | ⟨h1, h2, h3⟩ | ⟨hb, h | h | ⟨h1, h2, h3, h4⟩⟩
    · exact .inr (.inl ⟨off, rfl⟩)
    · exact .inr (.inr (.inl ⟨off, _, h1, h2, h3⟩))
    · exact .inr (.inr (.inr (.inl ⟨hb, .inl h⟩)))
    · exact .inr (.inr (.inr (.inl ⟨hb, .inr (.inl h)⟩)))
    · exact .inr (.inr (.inr (.inl ⟨hb, .inr (.inr ⟨_, _, _, h1, h2, h3, h4⟩)⟩)))
  | engine =>
    cases hb : s.busy with
    | true =>
      simp only [serve, hb, if_true] at h
      exact .inr (.inr (.inr (.inr (.inl ⟨rfl, rfl, h⟩))))
    | false =>
      simp only [serve, hb] at h
      exact .inr (.inr (.inr (.inr (.inr (.inl ⟨rfl, rfl, by simpa using h.symm⟩)))))
  | powerOn => exact .inr (.inr (.inr (.inr (.inr (.inr (by simpa [serve] using h.symm))))))

/-- A step is the service of the oldest event; with none left it is the engine's turn. -/
theorem step_cases {s t : State} (h : step s = .next t) :
    ∃ e rest, (s.inbox = e :: rest ∨ s.inbox = [] ∧ e = .engine ∧ rest = []) ∧
      serve e { s with inbox := rest } = .next t := by
  unfold step at h
  cases hi : s.inbox with
  | cons e rest => rw [hi] at h; exact ⟨e, rest, .inl rfl, h⟩
  | nil =>
    rw [hi] at h
    refine ⟨.engine, [], .inr ⟨rfl, rfl, rfl⟩, ?_⟩
    have : ({ s with inbox := [] } : State) = s := by cases s; simp_all
    rw [this]
    exact h

/-- Cancelling changes only the destinations of commands and the draw counter. -/
theorem cancelPending_eq (s : State) : cancelPending s =
    { s with
      v := (cancelPending s).v
      w := (cancelPending s).w
      mem := (cancelPending s).mem
      nv := (cancelPending s).nv
      sat := (cancelPending s).sat
      fresh := (cancelPending s).fresh } := by
  unfold cancelPending
  split
  · rfl
  · rfl
  · rfl

/-- A write to `STATUS`, bit by bit (10_state.md R31). -/
theorem writeStatus_eq (x : Word) (s : State) : writeStatus x s =
    { s with
      done := s.done && !x.getLsbD 1
      err := s.err && !x.getLsbD 2
      errCause := if (x.getLsbD 2 && s.err) = true then none else s.errCause
      errInfo := if (x.getLsbD 2 && s.err) = true then 0#32 else s.errInfo
      ovr := s.ovr && !x.getLsbD 3
      accerr := s.accerr && !x.getLsbD 4
      accAddr := if (x.getLsbD 4 && s.accerr) = true then 0#30 else s.accAddr } := by
  unfold writeStatus returnFromError
  cases x.getLsbD 2 <;> cases he : s.err <;> simp [he]

end Sys2Proof.Machine
end

