-- ==== Sys2Proof/Tests/Slice0.lean ====
section
/-! SUPPORT. Tests of one step each, with expected results from spec/95_test_vectors.md or computed by
hand from the rules; and for every statement with hypotheses a witness that meets them. -/

namespace Sys2Proof.Tests

set_option Elab.async false

open Sys2Proof.Machine Sys2Proof.Safety Sys2Proof.Claims

/-! ## Helpers -/

/-- Reset with block registers of zeros, so that tests read no free value. -/
def plain : State := { State.reset with
  v := Vector.replicate 8 (Vector.replicate 64 0#64)
  w := Vector.replicate 2 (Vector.replicate 256 0#64) }

/-- `plain` with an image. -/
def image (width height : Nat) : State := { plain with
  imgW := BitVec.ofNat 16 width
  imgH := BitVec.ofNat 16 height }

/-- A command in flight. -/
def inFlight (i : Instr) (s : State) : State := { s with busy := true, pend := encode i }

/-- The outcome is a next state with the property. -/
def after (o : Host.Outcome State Fault Refusal) (p : State → Bool) : Bool :=
  match o with
  | .next t => p t
  | .fault _ => false
  | .refused _ => false

/-- A command in flight completes with the property. -/
def runs (i : Instr) (s : State) (p : State → Bool) : Bool := after (exec i (inFlight i s)) p

/-- One image of one pixel. -/
def onePixel (r g b a : Byte) : State :=
  (image 1 1).writeCells [(pixOff 0, r), (pixOff 1, g), (pixOff 2, b), (pixOff 3, a)]

/-- One image of one pixel with samples in its planes. -/
def oneSample (y cb cr : Sample) : State :=
  (onePixel 1 2 3 4).writeCells
    (leCells (planeOff 0 0) 8 y.toNat ++ leCells (planeOff 1 0) 8 cb.toNat ++
      leCells (planeOff 2 0) 8 cr.toNat)

/-! ## WellFormed -/

theorem test_wellFormed_largest_k : (Instr.bld8 7 2 262143).wellFormed = true := by decide
theorem test_illFormed_bld8_k : (Instr.bld8 0 0 262144).wellFormed = false := by decide
theorem test_illFormed_bst8_k : (Instr.bst8 0 0 262144).wellFormed = false := by decide
theorem test_illFormed_bld16_k : (Instr.bld16 0 0 262144).wellFormed = false := by decide
theorem test_illFormed_bst16_k : (Instr.bst16 0 0 262144).wellFormed = false := by decide

/-- 30_encoding.md R101: what the assembler refuses to spell. -/
theorem test_notSpellable : (Instr.down 0 2).spellable = false ∧ (Instr.up 2 0).spellable = false ∧
    (Instr.wadd 2 0 0).spellable = false ∧ (Instr.wadd 0 2 0).spellable = false ∧
    (Instr.wadd 0 0 2).spellable = false ∧ (Instr.bld8 0 3 0).spellable = false ∧
    (Instr.bst8 0 0 262144).spellable = false ∧ (Instr.bld16 2 0 0).spellable = false ∧
    (Instr.bst16 0 3 0).spellable = false := by decide
theorem test_spelling : asm (.bld8 7 2 262143) = "BLD8 V7, CR, 262143" ∧
    asm (.up 1 3) = "UP W1, V3" := by decide +kernel

/-! ## Decode: every constructor by a word of 95_test_vectors.md T1, fields written in binary -/

theorem test_decode_nop : decode 0b000001_00000000000000000000000000#32 = .instr .nop := by decide
theorem test_decode_cscf : decode 0b000010_00000000000000000000000000#32 = .instr .cscf := by decide
theorem test_decode_csci : decode 0b000011_00000000000000000000000000#32 = .instr .csci := by decide
theorem test_decode_fdct : decode 0b001000_010_001_00000000000000000000#32 = .instr (.fdct 2 1) := by
  decide
theorem test_decode_idct : decode 0b001001_101_010_00000000000000000000#32 = .instr (.idct 5 2) := by
  decide
theorem test_decode_down : decode 0b001100_111_001_00000000000000000000#32 = .instr (.down 7 1) := by
  decide
theorem test_decode_up : decode 0b001101_001_011_00000000000000000000#32 = .instr (.up 1 3) := by
  decide
theorem test_decode_vsub : decode 0b001110_111_110_100_00000000000000000#32 = .instr (.vsub 7 6 4) := by
  decide
theorem test_decode_wadd : decode 0b001111_000_000_001_00000000000000000#32 = .instr (.wadd 0 0 1) := by
  decide
theorem test_decode_bld8 : decode 0b010000_111_10_000_111111111111111111#32 =
    .instr (.bld8 7 2 262143) := by decide
theorem test_decode_bst8 : decode 0b010001_101_00_000_000000000000000001#32 =
    .instr (.bst8 5 0 1) := by decide
theorem test_decode_bld16 : decode 0b010010_000_01_000_000000000000000001#32 =
    .instr (.bld16 0 1 1) := by decide
theorem test_decode_bst16 : decode 0b010011_000_01_000_000000000000000001#32 =
    .instr (.bst16 0 1 1) := by decide
theorem test_decode_lsbe : decode 0b011000_00000000000000000000000000#32 = .instr .lsbe := by decide
theorem test_decode_lsbx : decode 0b011001_00000000000000000000000000#32 = .instr .lsbx := by decide

/-- T2: the opcode is looked at before the reserved bits. -/
theorem test_decode_rejections : decode 0xFFFFFFFF#32 = .illegalOpcode ∧
    decode 0x10000000#32 = .illegalOpcode ∧ decode 0x06000000#32 = .reservedBits ∧
    decode 0x20020000#32 = .reservedBits ∧ decode 0x38010000#32 = .reservedBits ∧
    decode 0x40640000#32 = .reservedBits ∧ decode 0x60000100#32 = .reservedBits := by decide

theorem test_decodeTableWord : decodeTableWord 32 0x43C3FFFF = some (.bld8 7 2 262143) ∧
    decodeTableWord 32 0xFFFFFFFF = none ∧ decodeTableWord 64 0x04000000 = none := by decide

/-- The bytes of a word, lowest first (20_memory.md R62). -/
theorem test_decodeBytes : decodeBytes [0x01#8, 0x00#8, 0x80#8, 0x46#8, 0xFF#8] =
    some (.instr (.bst8 5 0 1), [0xFF#8]) ∧ decodeBytes [1#8, 2#8, 3#8] = none := by decide

/-- The words of the opcode table's rows carry its match under its mask. -/
theorem test_tableRow : encode (.bst16 1 2 5) &&& (tableRow (.bst16 1 2 5)).1 =
    (tableRow (.bst16 1 2 5)).2 ∧ encode (.wadd 1 1 1) &&& (tableRow (.wadd 1 1 1)).1 =
    (tableRow (.wadd 1 1 1)).2 := by decide

/-! ## Validation (T2) -/

theorem test_validate_causes :
    validateWord 0x3C040000#32 (image 16 16) = some .badRegister ∧
    validateWord 0x4C600000#32 (image 16 16) = some .badPlane ∧
    validateWord 0x40000004#32 (image 16 16) = some .blockRange ∧
    validateWord 0x40000003#32 (image 16 16) = none ∧
    validateWord 0x44000000#32 (image 16 16) = some .refWrite ∧
    validateWord 0x44000001#32 (image 16 16) = none ∧
    validateWord 0x4D7C0000#32 (image 16 16) = some .reservedBits ∧
    validateWord 0x68000000#32 (image 16 16) = some .illegalOpcode ∧
    validateWord 0x40600000#32 plain = some .badPlane ∧
    validateWord 0x44000000#32 plain = some .badGeometry ∧
    validateWord 0x48000000#32 (image 8 8) = some .blockRange := by decide +kernel

/-- T2: with `REFPROT = 0` the reference blocks may be stored. -/
theorem test_validate_refprot :
    validateWord 0x4C000000#32 { image 16 16 with refprot := false } = none := by decide +kernel

/-! ## One step of each command -/

/-- 45_control.md R222. -/
theorem test_nop : runs .nop plain (fun t => !t.busy && t.done && decide (t.mem = [])) = true := by
  decide +kernel

/-- T3, the red pixel: 76.24499999999999, 84.97232, 255.5. -/
theorem test_cscf : runs .cscf (onePixel 255 0 0 9) (fun t =>
    decide (t.readPlane 0 0 = 0x40530FAE147AE147#64) && decide (t.readPlane 1 0 = 0x40553E3A7DAA4FCA#64) &&
    decide (t.readPlane 2 0 = 0x406FF00000000000#64) && decide (t.readPix 3 = 9#8)) = true := by
  decide +kernel

/-- T6: the bytes 128, 84, 255 with SAT of (128.0, 255.0, 128.0), and a NaN `Y`. -/
theorem test_csci_values :
    [0, 1, 2].map (fun ch => sat8 (inverseOf Config.defaults ch (F64.ofNat 128) (F64.ofNat 255)
      (F64.ofNat 128))) = [(128#8, false, false), (84#8, false, false), (255#8, false, true)] ∧
    sat8 (inverseOf Config.defaults 1 .nan F64.c128 F64.c128) = (0#8, true, false) := by
  decide +kernel

/-- CSCI writes the colour bytes of (0.0, 128.0, 128.0) and keeps alpha (T6). -/
theorem test_csci : runs .csci (oneSample 0#64 0x4060000000000000#64 0x4060000000000000#64)
    (fun t => decide (t.readPix 0 = 0#8) && decide (t.readPix 3 = 4#8)) = true := by
  decide +kernel

/-- T12: an impulse gives `F[0] = 0.12500000000000003` and `F[1] = 0.17337998066526844`; in place. -/
theorem test_fdct (s : State) (hs : s = inFlight .nop (plain.writeV 6 0 0x3FF0000000000000#64)) :
    ∃ t, exec (.fdct 6 6) s = .next t ∧ t.readV 6 0 = 0x3FC0000000000001#64 ∧
      t.readV 6 1 = 0x3FC63150B15E8536#64 ∧ t.readV 5 0 = s.readV 5 0 := by
  subst hs
  refine ⟨_, exec_inFlight rfl rfl, ?_, ?_, complete_readV_other _ rfl (by decide) _⟩ <;>
    · rw [complete_readV _ rfl, Vector.getElem_ofFn]
      decide +kernel

/-- T12: `F[0] = 8.0` gives 1.0000000000000002 everywhere. -/
theorem test_idct (s : State) (hs : s = inFlight .nop (plain.writeV 1 0 0x4020000000000000#64)) :
    ∃ t, exec (.idct 2 1) s = .next t ∧ t.readV 2 0 = 0x3FF0000000000001#64 ∧
      t.readV 2 63 = 0x3FF0000000000001#64 := by
  subst hs
  refine ⟨_, exec_inFlight rfl rfl, ?_, ?_⟩ <;>
    · rw [complete_readV _ rfl, Vector.getElem_ofFn]
      decide +kernel

/-- Output 63 is the mean of elements 238, 239, 254 and 255 (42_resample.md R160): 1.0 and three zeros
give 0.25. -/
theorem test_down (s : State) (hs : s = inFlight .nop (plain.writeW 1 254 0x3FF0000000000000#64)) :
    ∃ t, exec (.down 3 1) s = .next t ∧ t.readV 3 63 = 0x3FD0000000000000#64 ∧
      t.readV 3 62 = 0#64 := by
  subst hs
  refine ⟨_, exec_inFlight rfl rfl, ?_, ?_⟩ <;>
    · rw [complete_readV _ rfl, Vector.getElem_ofFn]
      decide +kernel

/-- T42: a signalling NaN pattern is copied unchanged; outputs 238 and 255 come from element 63. -/
theorem test_up (s : State) (hs : s = inFlight .nop (plain.writeV 0 63 0x7FF0000000000001#64)) :
    ∃ t, exec (.up 1 0) s = .next t ∧ t.readW 1 255 = 0x7FF0000000000001#64 ∧
      t.readW 1 238 = 0x7FF0000000000001#64 ∧ t.readW 1 237 = 0#64 := by
  subst hs
  refine ⟨_, exec_inFlight rfl rfl, ?_, ?_, ?_⟩ <;>
    · rw [complete_readW (i := 1) _ rfl, Vector.getElem_ofFn]
      decide +kernel

/-- 42_resample.md R162: 1.0 - 1.5 is -0.5, and 0.0 - 0.0 is +0.0. -/
theorem test_vsub (s : State) (hs : s = inFlight .nop
      ((plain.writeV 1 7 0x3FF0000000000000#64).writeV 2 7 0x3FF8000000000000#64)) :
    ∃ t, exec (.vsub 0 1 2) s = .next t ∧ t.readV 0 7 = 0xBFE0000000000000#64 ∧
      t.readV 0 8 = 0#64 := by
  subst hs
  refine ⟨_, exec_inFlight rfl rfl, ?_, ?_⟩ <;>
    · rw [complete_readV _ rfl, Vector.getElem_ofFn]
      decide +kernel

/-- 42_resample.md R163: 0.1 + 0.2 rounds to 0.30000000000000004. -/
theorem test_wadd (s : State) (hs : s = inFlight .nop
      ((plain.writeW 0 200 0x3FB999999999999A#64).writeW 1 200 0x3FC999999999999A#64)) :
    ∃ t, exec (.wadd 0 0 1) s = .next t ∧ t.readW 0 200 = 0x3FD3333333333334#64 := by
  subst hs
  refine ⟨_, exec_inFlight rfl rfl, ?_⟩
  rw [complete_readW (i := 0) _ rfl, Vector.getElem_ofFn]
  decide +kernel

/-- T26: in a 20 by 17 image, element 63 of 8-block 3 is sample 15*20 + 15 = 315. -/
theorem test_bld8 (s : State) (hs : s = inFlight .nop
      ((image 20 17).writeCells (leCells (planeOff 2 315) 8 0xFFF0000000000001))) :
    ∃ t, exec (.bld8 4 2 3) s = .next t ∧ t.readV 4 63 = 0xFFF0000000000001#64 := by
  subst hs
  refine ⟨_, exec_inFlight rfl (by decide +kernel), ?_⟩
  rw [complete_readV _ rfl, Vector.getElem_ofFn]
  decide +kernel

/-- The last 8 bytes BST8 stores for that block are sample 315; 64 samples are stored. -/
theorem test_bst8 : (effBst8 4 2 3 ((image 20 17).writeV 4 63 0xFFF0000000000001#64)).cells.drop 504 =
    leCells (planeOff 2 315) 8 0xFFF0000000000001 := by
  decide +kernel

/-- T26: in a 32 by 16 image, element 16 of 16-block 1 is sample 1*32 + 16 = 48. -/
theorem test_bld16 (s : State) (hs : s = inFlight .nop
      ((image 32 16).writeCells (leCells (planeOff 0 48) 8 0x4059000000000000))) :
    ∃ t, exec (.bld16 1 0 1) s = .next t ∧ t.readW 1 16 = 0x4059000000000000#64 := by
  subst hs
  refine ⟨_, exec_inFlight rfl (by decide +kernel), ?_⟩
  rw [complete_readW (i := 1) _ rfl, Vector.getElem_ofFn]
  decide +kernel

/-- The bytes BST16 stores for that element, the 17th of the block. -/
theorem test_bst16 : ((effBst16 1 0 1 ((image 32 16).writeW 1 16 0x4059000000000000#64)).cells.drop
    128).take 8 = leCells (planeOff 0 48) 8 0x4059000000000000 := by
  decide +kernel

/-- 44_lsb.md R200, R202: bits 1, 0, 1 into 0, 255, 128; alpha becomes 255. -/
theorem test_lsbe : runs .lsbe ((onePixel 0 255 128 7).writeCells [(bitOff 0, 0b00110101#8)])
    (fun t => decide (t.readPix 0 = 1#8) && decide (t.readPix 1 = 254#8) &&
      decide (t.readPix 2 = 129#8) && decide (t.readPix 3 = 255#8)) = true := by
  decide +kernel

/-- 44_lsb.md R203: parities 1, 0, 1; the byte's other bits are kept. -/
theorem test_lsbx : runs .lsbx ((onePixel 1 254 129 7).writeCells [(bitOff 0, 0b11000010#8)])
    (fun t => decide (t.readByte (bitOff 0) = 0b11000101#8) && decide (t.readPix 3 = 7#8)) = true := by
  decide +kernel

/-! ## Rounding (T5) and the special values of the operations -/

theorem test_sat8 : (sat8 (F64.ofBits 0x3FE0000000000000#64)).1 = 1#8 ∧
    (sat8 (F64.ofBits 0x3FDFFFFFFFFFFFFF#64)).1 = 0#8 ∧
    sat8 (F64.ofBits 0xBFE0000000000000#64) = (0#8, false, false) ∧
    sat8 (F64.ofBits 0xBFE0000000000001#64) = (0#8, false, true) ∧
    (sat8 (F64.ofBits 0x4004000000000000#64)).1 = 3#8 ∧
    sat8 (F64.ofBits 0x406FF00000000000#64) = (255#8, false, true) ∧
    sat8 (F64.ofBits 0x406FEFFFFFFFFFFF#64) = (255#8, false, false) := by
  decide +kernel

/-- 60_exceptions.md R255 and 41_dct.md: infinities, zeros and overflow. -/
theorem test_specials : (F64.inf false).add (.inf true) = .nan ∧
    (F64.inf true).mul (.fin true 0) = .nan ∧ (F64.fin true 0).add (.fin true 0) = .fin true 0 ∧
    (F64.fin true 0).add (.fin false 0) = .fin false 0 ∧
    ((F64.ofBits 0x7FEFFFFFFFFFFFFF#64).add (F64.ofBits 0x7FEFFFFFFFFFFFFF#64)) = .inf false := by
  decide +kernel

/-! ## The window and the registers -/

/-- A command word written to `CMD` is what `withFetchWord` makes the next step present. -/
theorem test_withFetchWord : after (step (State.reset.withFetchWord 32 0x20800000)) (fun t =>
    t.busy && decide (t.pend = 0x20800000#32) && decide (t.cmdLast = 0x20800000#32)) = true := by
  decide +kernel

/-- 60_exceptions.md R240: at reset geometry CSCF is refused with cause 5. -/
theorem test_refused_command : after (serve (cmd .cscf) State.reset) (fun t =>
    t.err && decide (t.readCsr 0x02C = 5#32) && decide (t.readCsr 0x030 = 0x08000000#32) &&
    decide (t.statusWord = 4#32)) = true := by
  decide +kernel

/-- T44: a soft reset reads as reset. -/
theorem test_softReset : after (serve (wr32 0x008#30 0x80000003#32) (inFlight .lsbe (image 16 16)))
    (fun t => decide (t.readCsr 0x008 = 4#32) && decide (t.readCsr 0x014 = 0#32) &&
      decide (t.statusWord = 0#32)) = true := by
  decide +kernel

/-- T43: reserved bits of `CTRL` are dropped. -/
theorem test_ctrl_reserved : after (serve (wr32 0x008#30 0x7FFFFFF8#32) State.reset)
    (fun t => decide (t.readCsr 0x008 = 0#32)) = true := by
  decide +kernel

/-- 20_memory.md R68: a misaligned read answers 0 and records only the first address. -/
theorem test_access_error : after (serve (.read 0x1004#30 .b8) plain)
    (fun t => t.accerr && decide (t.readCsr 0x038 = 0x1004#32) &&
      decide (t.replies = [0#64])) = true ∧
    (accessError 0x2#30 { plain with accerr := true, accAddr := 0x1004#30 }).accAddr = 0x1004#30 := by
  decide +kernel

/-- T25: 20 by 17 has an 8-grid of 2 by 2 and a 16-grid of 1 by 1. -/
theorem test_grids : (image 20 17).readCsr 0x01C = 0x00020002#32 ∧
    (image 20 17).readCsr 0x020 = 0x00010001#32 ∧ (image 20 17).readCsr 0x03C = 1020#32 := by
  decide +kernel

/-- The engine's turn with a `PEND` that does not decode: the model's fault (log entry 13). -/
theorem test_engine_undecodable :
    step { plain with busy := true, pend := 0#32 } = .fault .pendNotValidated := by
  rfl

/-! ## Witnesses: for every statement with hypotheses, terms that meet all of them together -/

theorem witness_DecodeOfEncode : (Instr.bst16 7 3 262143).wellFormed = true := by decide

theorem witness_EncodeOfDecode : decode 0x43C3FFFF#32 = .instr (.bld8 7 2 262143) := by decide

/-- The 16 by 16 image has 4 blocks of 8 and one of 16: the last good index and the first bad one. -/
theorem witness_BlockRangeIsPastGrid :
    (0 : Fin 4) ≠ 3 ∧ geometryLegal (image 16 16) ∧ (1 : Fin 8).val ≤ 1 ∧
    validate (.bld8 1 0 4) (image 16 16) = some .blockRange ∧
    validate (.bld8 1 0 3) (image 16 16) = none ∧
    validate (.bld16 1 0 1) (image 16 16) = some .blockRange ∧
    validate (.bld16 1 0 0) (image 16 16) = none := by
  decide +kernel

/-- Every clause of validation is reached: one word for each (T2). -/
theorem witness_ValidationPriority :
    field 0x68000000#32 31 26 ∉ assigned ∧
    (field 0x4D7C0000#32 31 26 ∈ assigned ∧
      0x4D7C0000#32 &&& reservedMask (field 0x4D7C0000#32 31 26) ≠ 0#32) ∧
    (0x4D600000#32 &&& reservedMask (field 0x4D600000#32 31 26) = 0#32 ∧ badRegister 0x4D600000#32) ∧
    (¬ badRegister 0x4C600000#32 ∧ blockOp 0x4C600000#32 ∧ field 0x4C600000#32 22 21 = 3) ∧
    (geometryOp 0x44000000#32 ∧ ¬ geometryLegal plain) ∧
    (geometryLegal (image 16 16) ∧ pastGrid 0x44000004#32 (image 16 16)) ∧
    (¬ pastGrid 0x44000000#32 (image 16 16) ∧ guardedStore 0x44000000#32 (image 16 16)) ∧
    ¬ guardedStore 0x44000001#32 (image 16 16) := by
  refine ⟨?_, ?_, ?_, ?_, ?_, ?_, ?_, ?_⟩ <;> decide +kernel

theorem witness_BusyOrErrorDropsCommand :
    ({ plain with inbox := [cmd .nop], busy := true } : State).inbox = wr32 0x010#30 0x04000000#32 :: [] ∧
    ({ plain with inbox := [cmd .nop], busy := true } : State).busy = true ∧
    ({ plain with inbox := [cmd .nop], err := true, errCause := some .badPlane } : State).err = true :=
  ⟨rfl, rfl, rfl⟩

theorem witness_RefusedCommandEntersError :
    ({ image 16 16 with inbox := [wr32 0x010#30 0x44000000#32] } : State).busy = false ∧
    ({ image 16 16 with inbox := [wr32 0x010#30 0x44000000#32] } : State).err = false ∧
    validateWord 0x44000000#32 { image 16 16 with inbox := [wr32 0x010#30 0x44000000#32] } =
      some .refWrite ∧
    after (step { image 16 16 with inbox := [wr32 0x010#30 0x44000000#32] }) (fun t => t.err) = true := by
  decide +kernel

theorem witness_ValidCommandIsTaken :
    ({ image 16 16 with inbox := [wr32 0x010#30 0x44000001#32] } : State).busy = false ∧
    ({ image 16 16 with inbox := [wr32 0x010#30 0x44000001#32] } : State).err = false ∧
    validateWord 0x44000001#32 { image 16 16 with inbox := [wr32 0x010#30 0x44000001#32] } = none := by
  decide +kernel

/-- The three clauses: an engine's turn, no event left, and a presented word. -/
theorem witness_StepRunsDecodedCommand :
    ((inFlight .nop plain).busy = true ∧ decode (inFlight .nop plain).pend = .instr .nop ∧
      ({ inFlight .nop plain with inbox := [.engine] } : State).inbox = .engine :: []) ∧
    (inFlight .nop plain).inbox = [] ∧
    (plain.busy = false ∧ plain.err = false ∧ decode 0x20800000#32 = .instr (.fdct 1 0) ∧
      ({ plain with inbox := [wr32 0x010#30 0x20800000#32] } : State).inbox =
        wr32 0x010#30 0x20800000#32 :: []) :=
  ⟨⟨rfl, by decide, rfl⟩, rfl, rfl, rfl, by decide, rfl⟩

theorem witness_UnvalidatedPendStops : (inFlight .cscf plain).busy = true ∧
    operandCause .cscf (inFlight .cscf plain) = some .badGeometry := by
  decide +kernel

theorem witness_NopCompletes : (inFlight .nop plain).busy = true := rfl

/-- The hypotheses of `CscfCompletes`, `CsciCompletes`, `LsbeCompletes` and `LsbxCompletes`, in both
`ARITH` settings, at the smallest and at the largest image of the default instance. -/
theorem witness_image_commands :
    (inFlight .cscf (image 1 1)).busy = true ∧ (inFlight .cscf (image 1 1)).cfg.legal ∧
    geometryLegal (inFlight .cscf (image 1 1)) ∧ geometryLegal (inFlight .lsbx (image 1024 1024)) ∧
    (inFlight .cscf (image 1 1)).cfg.arith = .ref64 ∧
    ({ image 1 1 with cfg := { Config.defaults with arith := .opaqueFn } } : State).cfg.arith =
      .opaqueFn := by
  decide +kernel

/-- The hypotheses of `FdctCompletes`, `IdctCompletes`, `DownCompletes`, `UpCompletes`,
`VsubCompletes` and `WaddCompletes`. -/
theorem witness_register_commands : (inFlight (.fdct 7 7) plain).busy = true ∧
    (1 : Fin 8).val = (1 : Fin 2).val ∧ (0 : Fin 8).val = (0 : Fin 2).val ∧
    (inFlight (.fdct 7 7) plain).cfg.arith = .ref64 := ⟨rfl, rfl, rfl, rfl⟩

/-- The hypotheses of the four block commands' completions, at the last block of each grid. -/
theorem witness_block_commands : (inFlight (.bst8 7 2 3) (image 20 17)).busy = true ∧
    (2 : Fin 4).val ≤ 2 ∧ geometryLegal (inFlight (.bst8 7 2 3) (image 20 17)) ∧
    3 < (inFlight (.bst8 7 2 3) (image 20 17)).imgW.toNat / 8 *
      ((inFlight (.bst8 7 2 3) (image 20 17)).imgH.toNat / 8) ∧
    (1 : Fin 8).val = (1 : Fin 2).val ∧
    0 < (inFlight (.bst8 7 2 3) (image 20 17)).imgW.toNat / 16 *
      ((inFlight (.bst8 7 2 3) (image 20 17)).imgH.toNat / 16) := by
  decide +kernel

/-- A byte that BST8 does not store to, and one that it does. -/
theorem witness_Bst8_frame : ¬ inSample (planeOff 2 0 + 8) (planeOff 2 0) ∧
    inSample (planeOff 2 0 + 7) (planeOff 2 0) := by
  decide

theorem witness_inFlight_inv : Inv (inFlight (.bld8 0 0 3) (image 16 16)) := by
  refine ⟨List.Pairwise.nil, ⟨?_, ?_, ?_, ?_⟩, fun _ => ⟨.bld8 0 0 3, by decide, by decide +kernel⟩⟩ <;>
    decide

/-- `StepKeepsInvariant`, `StepStaysInBounds`, `InvariantNeverStops` and `InstanceIsFixed`: a state with
a command in flight, in bounds, whose step answers a next state. -/
theorem witness_StepKeepsInvariant : Inv (inFlight .nop plain) ∧ MemoryInBounds (inFlight .nop plain) ∧
    (inFlight .nop plain).cfg.legal ∧
    step (inFlight .nop plain) = .next (complete (effNop (inFlight .nop plain)) (inFlight .nop plain)) := by
  refine ⟨⟨List.Pairwise.nil, ⟨?_, ?_, ?_, ?_⟩, fun _ => ⟨.nop, by decide, by decide +kernel⟩⟩,
    fun c hc => absurd hc List.not_mem_nil, by decide, rfl⟩ <;> decide

/-- A CSCI that sets NV: a NaN sample under way with the engine's turn next. -/
theorem witness_OnlyCsciSetsFlags :
    after (step (inFlight .csci (oneSample 0x7FF8000000000000#64 0#64 0#64))) (fun t => t.nv) = true ∧
    (inFlight .csci (oneSample 0x7FF8000000000000#64 0#64 0#64)).nv = false := by
  decide +kernel

/-- A step under a command in flight that stays in flight: a status read. -/
theorem witness_BusyLocksOperands :
    (inFlight .nop plain).busy = true ∧
    after (step { inFlight .nop plain with inbox := [rd32 0x00C#30] }) (fun t => t.busy) = true := by
  decide +kernel

/-- An LSB command, and a command that is neither LSB nor colour space, both completing. -/
theorem witness_LsbAndDctUseSeparateMemories : isLsb .lsbe ∧ ¬ isLsb (.bst8 0 0 1) ∧
    ¬ isColor (.bst8 0 0 1) ∧
    exec .lsbe (inFlight .lsbe (image 16 16)) = .next (complete (effLsbe (inFlight .lsbe (image 16 16)))
      (inFlight .lsbe (image 16 16))) ∧
    exec (.bst8 0 0 1) (inFlight (.bst8 0 0 1) (image 16 16)) =
      .next (complete (effBst8 0 0 1 (inFlight (.bst8 0 0 1) (image 16 16)))
        (inFlight (.bst8 0 0 1) (image 16 16))) :=
  ⟨by decide, by decide, by decide, exec_inFlight rfl (by decide +kernel),
    exec_inFlight rfl (by decide +kernel)⟩

/-- The last sample of the last block of each grid of a 20 by 17 image. -/
theorem witness_BlockSamplesInImage : geometryLegal (image 20 17) ∧ 3 < (image 20 17).blockCount 8 ∧
    0 < (image 20 17).blockCount 16 ∧ (image 20 17).blkIndex 8 3 7 7 = 315 ∧
    (image 20 17).blkIndex 16 0 15 15 = 315 := by
  decide +kernel

theorem witness_BlocksAreDisjoint : 3 < (image 20 17).blockCount 8 ∧
    (image 20 17).blkIndex 8 3 7 7 = (image 20 17).blkIndex 8 3 7 7 ∧
    (image 20 17).blkIndex 8 2 0 0 = 160 ∧ (image 20 17).blkIndex 8 3 0 0 = 168 := by
  decide +kernel

/-- Both grids: the load completes, and so does the store that follows it. -/
theorem witness_LoadThenStoreKeepsMemory :
    ∃ t u, exec (.bld8 1 0 1) (inFlight (.bld8 1 0 1) (image 16 16)) = .next t ∧
      exec (.bst8 1 0 1) { t with busy := true } = .next u :=
  ⟨_, _, exec_inFlight rfl (by decide +kernel), exec_inFlight rfl (by decide +kernel)⟩
theorem witness_LoadThenStoreKeepsMemory_16 :
    ∃ t u, exec (.bld16 1 0 1) (inFlight (.bld16 1 0 1) (image 32 16)) = .next t ∧
      exec (.bst16 1 0 1) { t with busy := true } = .next u :=
  ⟨_, _, exec_inFlight rfl (by decide +kernel), exec_inFlight rfl (by decide +kernel)⟩

/-- Both grids, for the store first; also `StoresKeepReferenceBlock`, with `k = 1`. -/
theorem witness_StoreThenLoadReturnsRegister :
    (inFlight (.bst8 1 0 1) (image 16 16)).cfg.legal ∧
    ∃ t u, exec (.bst8 1 0 1) (inFlight (.bst8 1 0 1) (image 16 16)) = .next t ∧
      exec (.bld8 2 0 1) { t with busy := true } = .next u :=
  ⟨by decide, _, _, exec_inFlight rfl (by decide +kernel), exec_inFlight rfl (by decide +kernel)⟩
theorem witness_StoreThenLoadReturnsRegister_16 :
    (1 : Fin 8).val = (1 : Fin 2).val ∧ (0 : Fin 8).val = (0 : Fin 2).val ∧
    ∃ t u, exec (.bst16 1 0 1) (inFlight (.bst16 1 0 1) (image 32 16)) = .next t ∧
      exec (.bld16 0 0 1) { t with busy := true } = .next u :=
  ⟨rfl, rfl, _, _, exec_inFlight rfl (by decide +kernel), exec_inFlight rfl (by decide +kernel)⟩

/-- The three sequences of `LsbLaws` run; a colour byte and an alpha byte. -/
theorem witness_LsbLaws : ∃ t u u' t' w,
    exec .lsbe (inFlight .lsbe (image 1 1)) = .next t ∧
      exec .lsbx { t with busy := true } = .next u ∧ exec .lsbe { t with busy := true } = .next u' ∧
      exec .lsbx (inFlight .lsbx (image 1 1)) = .next t' ∧
      exec .lsbe { t' with busy := true } = .next w :=
  ⟨_, _, _, _, _, exec_inFlight rfl (by decide +kernel), exec_inFlight rfl (by decide +kernel),
    exec_inFlight rfl (by decide +kernel), exec_inFlight rfl (by decide +kernel),
    exec_inFlight rfl (by decide +kernel)⟩

/-- The tie 3/2, rounded to the even 2; and a number of 53 bits. -/
theorem witness_RoundDivIsNearestEven : 2 * (roundDiv 3 1 * 2 ^ 1 : Nat) - 2 * (3 : Int) = 2 ^ 1 ∧
    roundDiv 3 1 = 2 ∧ (2 ^ 53 - 1 : Nat) < 2 ^ 53 := by decide

/-- Each clause of `Sat8Table` at its boundary: 255.5, the largest value below 255.5, -0.5 and the value
below it. -/
theorem witness_Sat8Table : 255 < roundHalfUp false (511 * (oneUnits / 2)) ∧
    roundHalfUp false (511 * (oneUnits / 2) - 1) = 255 ∧ roundHalfUp true (oneUnits / 2) = 0 ∧
    roundHalfUp true (oneUnits / 2 + 1) < 0 := by
  decide +kernel

theorem witness_SamplePatternsRoundTrip : isNaN 0x7FF0000000000000#64 = false ∧
    isNaN 0x7FF0000000000001#64 = true := by decide

/-- Accesses of each region, served and refused, at the ends of their ranges. -/
theorem witness_RejectedAccesses : plain.cfg.legal ∧
    readServed plain 0xFFC 4 ∧ ¬ readServed plain 0xFFC 8 ∧ readServed plain 0x1000 8 ∧
    readServed plain 0x2FF8 8 ∧ ¬ readServed plain 0x3000 4 ∧
    readServed plain 0x0105FFFC 4 ∧ ¬ readServed plain 0x01060000 4 ∧
    readServed plain 0x043FFFFF 1 ∧ ¬ readServed plain 0x04400000 1 ∧
    readServed plain 0x107FFFF8 8 ∧ ¬ readServed plain 0x10800000 8 ∧
    ¬ readServed plain 0x1004 8 ∧ ¬ readServed { plain with busy := true } 0x1000 8 ∧
    readServed { plain with busy := true } 0x00C 4 ∧
    writeServed plain 0x014 4 ∧ ¬ writeServed { plain with busy := true } 0x014 4 := by
  refine ⟨?_, ?_, ?_, ?_, ?_, ?_, ?_, ?_, ?_, ?_, ?_, ?_, ?_, ?_, ?_, ?_, ?_⟩ <;> decide +kernel

/-- `ServedReadHasNoSideEffect`: a served read as the next event; the first and last register offsets
and the clauses on the cause, in states that hold the first and the last cause. -/
theorem witness_ServedReadHasNoSideEffect :
    ({ plain with inbox := [.read 0x00C#30 .b4] } : State).inbox = .read 0x00C#30 .b4 :: [] ∧
    plain.cfg.legal ∧ readServed plain (0x00C#30).toNat Width.b4.bytes ∧
    readServed plain (0x000#30).toNat Width.b4.bytes ∧
    readServed plain (0xFFC#30).toNat Width.b4.bytes ∧
    ({ plain with errCause := some .illegalOpcode } : State).errCause = some .illegalOpcode ∧
    ({ plain with errCause := some .refWrite } : State).errCause = some .refWrite :=
  ⟨rfl, by decide, by decide +kernel, by decide +kernel, by decide +kernel, rfl, rfl⟩

/-- R31: `STATUS` with BUSY, ERR and ACCERR reads 0x15, and with DONE, OVR and the interrupt 0x2A. -/
theorem test_status_word :
    ({ plain with busy := true, err := true, accerr := true } : State).readCsr 0x00C = 0x15#32 ∧
    ({ plain with done := true, ovr := true, ieDone := true } : State).readCsr 0x00C = 0x2A#32 := by
  decide

/-- `SampleWriteThenRead` and `HalfWriteKeepsOtherHalf`: the first and the last sample of each kind. -/
theorem witness_SampleWriteThenRead : plain.busy = false ∧ plain.cfg.legal ∧
    sampleOffset plain.cfg 0x1000 ∧ sampleOffset plain.cfg 0x1FF8 ∧ sampleOffset plain.cfg 0x2000 ∧
    sampleOffset plain.cfg 0x2FF8 ∧ sampleOffset plain.cfg 0x10000000 ∧
    sampleOffset plain.cfg 0x187FFFF8 ∧ sampleOffset plain.cfg 0x207FFFF8 := by
  refine ⟨?_, ?_, ?_, ?_, ?_, ?_, ?_, ?_, ?_⟩ <;> decide +kernel

/-- The last pixel, and the last byte of `PIX` and the last halfword as accesses of those widths. -/
theorem witness_PixelWordIsLittleEndian : plain.busy = false ∧ plain.cfg.legal ∧
    1048575 < plain.cfg.maxPix ∧ (0x043FFFFC#30).toNat = 0x04000000 + 4 * 1048575 ∧
    (Width.b1 ≠ .b8 ∧ 4194303 % Width.b1.bytes = 0 ∧ 4194303 < 4 * plain.cfg.maxPix ∧
      (0x043FFFFF#30).toNat = 0x04000000 + 4194303) ∧
    (Width.b2 ≠ .b8 ∧ 4194302 % Width.b2.bytes = 0 ∧ 4194302 < 4 * plain.cfg.maxPix ∧
      (0x043FFFFE#30).toNat = 0x04000000 + 4194302) := by
  decide +kernel

/-- The last word of `BIT`, and its last byte as an access of one byte. -/
theorem witness_BitWordLayout : plain.busy = false ∧ plain.cfg.legal ∧
    32 * 98303 < 3 * plain.cfg.maxPix ∧ (0x0105FFFC#30).toNat = 0x01000000 + 4 * 98303 ∧
    (Width.b1 ≠ .b8 ∧ 393215 % Width.b1.bytes = 0 ∧ 8 * 393215 < 3 * plain.cfg.maxPix ∧
      (0x0105FFFF#30).toNat = 0x01000000 + 393215) := by
  decide +kernel

/-- R65: a halfword write to `PIX` lands lowest byte first and leaves the next byte as it was. -/
theorem test_pix_halfword_write :
    after (serve (.write 0x04000002#30 .b2 0xABCD#64)
        { plain with mem := [(0x04000001, 1#8), (0x04000003, 3#8), (0x04000004, 4#8)] })
      (fun t => decide (t.mem = [(0x04000001, 1#8), (0x04000002, 0xCD#8), (0x04000003, 0xAB#8),
        (0x04000004, 4#8)])) = true := by
  decide +kernel

/-- R66: a byte write to `BIT` sets the eight bits `BIT[8y]` to `BIT[8y+7]`. -/
theorem test_bit_byte_write :
    after (serve (.write 0x01000002#30 .b1 0x81#64) plain) (fun t => t.readBit 16 && !t.readBit 17 &&
      !t.readBit 22 && t.readBit 23) = true := by
  decide +kernel

/-- The last register offset falls under the last clause of `RegisterWrites`. -/
theorem witness_RegisterWrites : (0x7FFFFFFF#32).getLsbD 31 = false ∧ plain.busy = false ∧
    (0xFFC#30).toNat < 0x1000 ∧ (0xFFC#30).toNat % 4 = 0 ∧
    (0xFFC#30).toNat ∉ [0x008, 0x00C, 0x010, 0x014, 0x018, 0x034] := by
  decide

/-- A soft reset, idle and with each kind of destination in flight. -/
theorem witness_SoftReset : (0x80000000#32).getLsbD 31 = true ∧ plain.busy = false ∧
    (inFlight (.fdct 1 0) plain).busy = true ∧
    decode (inFlight (.fdct 1 0) plain).pend = .instr (.fdct 1 0) ∧
    decode (inFlight .lsbx (image 1 1)).pend = .instr .lsbx ∧
    (effectOf .lsbx (inFlight .lsbx (image 1 1))).cells = [] := by
  decide +kernel

/-- A legal and an illegal geometry of the default instance. -/
theorem witness_DerivedGeometryRegisters : geometryLegal (image 1024 1024) ∧
    (image 1024 1024).cfg.legal ∧ ¬ geometryLegal (image 1025 1) ∧ ¬ geometryLegal plain := by
  decide +kernel

/-- The clauses of `ArithmeticIsIeee` on finite values: an exact zero and a non-zero result of each sum
and difference, a zero factor of an infinity, and magnitudes on both sides of 2^1024. -/
theorem witness_ArithmeticIsIeee : signedUnits true 3 + signedUnits false 3 = 0 ∧
    signedUnits false 3 + signedUnits false 3 ≠ 0 ∧ signedUnits true 3 - signedUnits true 3 = 0 ∧
    signedUnits true 3 - signedUnits false 3 ≠ 0 ∧ (false : Bool) ≠ true ∧ (1 : Nat) ≠ 0 ∧
    RoundsTo 1 0 1 := by
  refine ⟨by decide, by decide, by decide, by decide, by decide, by decide, ⟨1, 0, by decide, rfl⟩,
    fun y _ => ?_, fun y _ hy hd => ?_⟩
  · simp [distance]
  · simp only [distance, Nat.pow_zero, Nat.mul_one, Nat.cast_one, sub_self, abs_zero, abs_eq_zero] at hd
    omega

/-- 1.5 units lies as far from 1 as from 2: the clause on ties is met, and 2 has an even significand. -/
theorem witness_ArithmeticIsIeee_tie : Representable 1 ∧ (1 : Nat) ≠ 2 ∧ distance 3 1 1 = distance 3 1 2 ∧
    EvenSignificand 2 :=
  ⟨⟨1, 0, by decide, rfl⟩, by decide, by decide, ⟨2, 0, by decide, by decide, by decide, rfl⟩⟩

end Sys2Proof.Tests
end

section
/-! PROOF. `round_half_up` of a finite value is the floor of `x + 1/2` on the exact value
(00_scope.md R12). -/

namespace Sys2Proof.Machine

theorem oneUnits_pos : 0 < oneUnits := by
  unfold oneUnits
  positivity

/-- The divisor of `roundHalfUp` is positive. -/
theorem two_mul_oneUnits_pos : (0 : Int) < 2 * oneUnits := by
  have := oneUnits_pos
  omega

/-- The lower bound of the floor of `x + 1/2`, in doubled units. -/
theorem roundHalfUp_mul_le (neg : Bool) (mag : Nat) :
    roundHalfUp neg mag * (2 * oneUnits) ≤ 2 * signedUnits neg mag + oneUnits :=
  Int.ediv_mul_le _ two_mul_oneUnits_pos.ne'

/-- The upper bound of the floor of `x + 1/2`, in doubled units. -/
theorem lt_roundHalfUp_add_one_mul (neg : Bool) (mag : Nat) :
    2 * signedUnits neg mag + oneUnits < (roundHalfUp neg mag + 1) * (2 * oneUnits) :=
  Int.lt_ediv_add_one_mul_self _ two_mul_oneUnits_pos

/-- Settles O45: `roundHalfUp` is the floor of `x + 1/2`, and each bound of a floor, with the half taken
to the other side, is one of the two inequalities. -/
theorem roundHalfUpBounds : Obligations.RoundHalfUpBounds := by
  intro neg mag
  have hle := roundHalfUp_mul_le neg mag
  have hlt := lt_roundHalfUp_add_one_mul neg mag
  exact ⟨by linarith only [hle], by linarith only [hlt]⟩

end Sys2Proof.Machine
end

section
/-! PROOF. The `IRQ` level and its mirror in `STATUS` (10_state.md R31, R46). -/

namespace Sys2Proof.Machine

theorem bitAt_le (b : Bool) (n : Nat) : bitAt b n ≤ 2 ^ n := by
  cases b <;> simp [bitAt]

/-- The top bit of a register word: the bits below it do not carry into it. -/
theorem testBit_add_bitAt {m n : Nat} (b : Bool) (h : m < 2 ^ n) : (m + bitAt b n).testBit n = b := by
  cases b with
  | false => simpa [bitAt] using Nat.testBit_lt_two_pow h
  | true =>
    rw [Nat.add_comm]
    simp [bitAt, Nat.testBit_two_pow_add_eq, Nat.testBit_lt_two_pow h]

/-- The five bits of `STATUS` below `IRQ` fit below bit 5. -/
theorem State.statusBits_lt (s : State) : bitAt s.busy 0 + bitAt s.done 1 + bitAt s.err 2 +
    bitAt s.ovr 3 + bitAt s.accerr 4 < 2 ^ 5 := by
  have h0 := bitAt_le s.busy 0
  have h1 := bitAt_le s.done 1
  have h2 := bitAt_le s.err 2
  have h3 := bitAt_le s.ovr 3
  have h4 := bitAt_le s.accerr 4
  omega

theorem State.statusWord_getLsbD_five (s : State) : s.statusWord.getLsbD 5 = s.irq := by
  rw [State.statusWord, BitVec.getLsbD_ofNat, testBit_add_bitAt s.irq s.statusBits_lt]
  simp

theorem State.irq_eq_true_iff (s : State) : s.irq = true ↔ (s.ieDone = true ∧ s.done = true) ∨
    (s.ieErr = true ∧ (s.err = true ∨ s.ovr = true ∨ s.accerr = true)) := by
  simp [State.irq, or_assoc]

/-- Settles O58: both enables are 0 at reset, the level is R46's formula, and `IRQ` is the top bit of
`STATUS`. -/
theorem irqLevel : Obligations.IrqLevel :=
  ⟨rfl, fun s => ⟨s.irq_eq_true_iff, s.statusWord_getLsbD_five⟩⟩

end Sys2Proof.Machine
end

section
/-! PROOF. `sat8` of a finite value clamps its rounded value to a byte, case by case
(40_colorspace.md R121). -/

namespace Sys2Proof.Machine

theorem sat8_fin_of_neg {neg : Bool} {mag : Nat} (h : roundHalfUp neg mag < 0) :
    sat8 (.fin neg mag) = (0#8, false, true) := by
  simp only [sat8, if_pos h]

theorem sat8_fin_of_gt {neg : Bool} {mag : Nat} (h : 255 < roundHalfUp neg mag) :
    sat8 (.fin neg mag) = (255#8, false, true) := by
  have h0 : ¬ roundHalfUp neg mag < 0 := by omega
  simp only [sat8, if_neg h0, if_pos h]

theorem sat8_fin_of_mem {neg : Bool} {mag : Nat} (h0 : 0 ≤ roundHalfUp neg mag)
    (h255 : roundHalfUp neg mag ≤ 255) :
    sat8 (.fin neg mag) = (BitVec.ofNat 8 (roundHalfUp neg mag).toNat, false, false) := by
  simp only [sat8, if_neg h0.not_gt, if_neg h255.not_gt]

/-- A whole number in the range of a byte is the value of the byte that stores it. -/
theorem toNat_ofNat_eight_toNat {n : Int} (h0 : 0 ≤ n) (h255 : n ≤ 255) :
    ((BitVec.ofNat 8 n.toNat).toNat : Int) = n := by
  rw [BitVec.toNat_ofNat]
  omega

/-- Settles O46: a NaN and the infinities by definition, a finite value by where its rounded value lies;
in range, the byte holds that value exactly. -/
theorem sat8Table : Obligations.Sat8Table := by
  refine ⟨rfl, rfl, rfl, fun neg mag => ⟨sat8_fin_of_neg, sat8_fin_of_gt, fun h0 h255 => ?_⟩⟩
  rw [sat8_fin_of_mem h0 h255]
  exact ⟨toNat_ofNat_eight_toNat h0 h255, rfl⟩

end Sys2Proof.Machine
end

section
/-! PROOF. The LSB laws (44_lsb.md R200, R201, R204): the byte laws, what LSBE and LSBX leave in every
byte and bit, and the three sequences of the two commands. -/

namespace Sys2Proof.Machine

/-! ## The byte laws -/

/-- Writing a bit keeps the upper seven bits of the byte (44_lsb.md R200). -/
theorem lsbWrite_toNat (v : Byte) (bit : Bool) :
    (lsbWrite v bit).toNat = v.toNat / 2 * 2 + bit.toNat := by
  have hv := v.isLt
  unfold lsbWrite
  cases bit with
  | false =>
    rw [if_neg fun h => Bool.false_ne_true h.1, Bool.toNat_false]
    split
    · bv_omega
    · next hodd => simp only [true_and] at hodd; omega
  | true =>
    rw [Bool.toNat_true]
    split
    · bv_omega
    · next heven =>
      rw [if_neg fun h => Bool.false_ne_true h.1.symm]
      simp only [true_and] at heven
      omega

theorem lsbRead_eq_getLsbD_zero (v : Byte) : lsbRead v = v.getLsbD 0 := by
  rw [lsbRead, BitVec.getLsbD, Nat.testBit_zero]

theorem lsbWrite_eq_append (v : Byte) (bit : Bool) :
    lsbWrite v bit = v.extractLsb' 1 7 ++ BitVec.ofBool bit := by
  have hv := v.isLt
  apply BitVec.eq_of_toNat_eq
  rw [lsbWrite_toNat, BitVec.toNat_append, ← Nat.shiftLeft_add_eq_or_of_lt (BitVec.isLt _),
    BitVec.extractLsb'_toNat, BitVec.toNat_ofBool, Nat.shiftLeft_eq, Nat.shiftRight_eq_div_pow]
  omega

@[simp] theorem lsbRead_lsbWrite (v : Byte) (bit : Bool) : lsbRead (lsbWrite v bit) = bit := by
  rw [lsbRead, lsbWrite_toNat]
  cases bit <;> simp

@[simp] theorem lsbWrite_lsbWrite (v : Byte) (b c : Bool) :
    lsbWrite (lsbWrite v b) c = lsbWrite v c := by
  apply BitVec.eq_of_toNat_eq
  have := b.toNat_lt
  simp only [lsbWrite_toNat]
  omega

/-- A byte that takes its own bit is unchanged. -/
@[simp] theorem lsbWrite_lsbRead (v : Byte) : lsbWrite v (lsbRead v) = v := by
  apply BitVec.eq_of_toNat_eq
  rw [lsbWrite_toNat, lsbRead]
  rcases Nat.mod_two_eq_zero_or_one v.toNat with hv | hv
  · rw [decide_eq_false (by omega), Bool.toNat_false]; omega
  · rw [decide_eq_true hv, Bool.toNat_true]; omega

/-- Settles O41: the written byte by its value, the read bit as bit 0 of the value. -/
theorem lsbWriteReplacesBitZero : Obligations.LsbWriteReplacesBitZero :=
  fun v bit => ⟨lsbWrite_eq_append v bit, lsbRead_eq_getLsbD_zero v⟩

/-! ## What LSBE and LSBX write -/

/-- A command in flight that answers a next state has passed its operand checks and completed. -/
theorem exec_busy {i : Instr} {s t : State} (hb : s.busy = true) (h : exec i s = .next t) :
    operandCause i s = none ∧ t = complete (effectOf i s) s := by
  rcases exec_cases h with ⟨-, hok, ht⟩ | ⟨hidle, -⟩
  · exact ⟨hok, ht⟩
  · simp [hb] at hidle

/-- A command that uses the geometry completes only when `N` is at most the largest legal `MAX_PIX`. -/
theorem pixels_le_of_exec {i : Instr} {s t : State} (hb : s.busy = true) (hl : s.cfg.legal)
    (hu : usesGeometry i = true) (h : exec i s = .next t) : s.pixels ≤ 2 ^ 24 := by
  obtain ⟨-, -, hg, -⟩ := operandCause_eq_none.mp (exec_busy hb h).1
  exact (pixels_le_maxPix (hg hu)).trans (maxPix_legal hl).1

/-- A completion keeps the number of pixels. -/
theorem pixels_eq_of_exec {i : Instr} {s t : State} (hb : s.busy = true) (h : exec i s = .next t) :
    t.pixels = s.pixels := by
  rw [(exec_busy hb h).2, State.pixels, complete_imgW, complete_imgH, State.pixels]

theorem pixOff_inj {a b : Nat} : pixOff a = pixOff b ↔ a = b := Nat.add_left_cancel_iff

/-- The bit memory lies below the pixel memory (20_memory.md R61). -/
theorem bitOff_ne_pixOff {k N : Nat} (a : Nat) (hN : N ≤ 2 ^ 24) (hk : k < 3 * N) :
    bitOff (k / 8) ≠ pixOff a := by
  unfold bitOff pixOff
  omega

theorem mem_effLsbe_cells {s : State} {c : Host.Cell} : c ∈ (effLsbe s).cells ↔
    ∃ n < s.pixels,
      (∃ ch < 3, c = (pixOff (4 * n + ch), lsbWrite (s.readPix (4 * n + ch)) (s.readBit (3 * n + ch)))) ∨
      c = (pixOff (4 * n + 3), 255#8) := by
  simp only [effLsbe, List.mem_flatMap, List.mem_append, List.mem_map, List.mem_range,
    List.mem_singleton, eq_comm]

theorem mem_effLsbx_bits {s : State} {x : Nat × Bool} : x ∈ (effLsbx s).bits ↔
    ∃ n < s.pixels, ∃ ch < 3, x = (3 * n + ch, lsbRead (s.readPix (4 * n + ch))) := by
  simp only [effLsbx, List.mem_flatMap, List.mem_map, List.mem_range, eq_comm]

section Lsbe

variable {s t : State} (hb : s.busy = true) (h : exec .lsbe s = .next t)
include hb h

theorem lsbe_readByte (a : Nat) : t.readByte a = (s.writeCells (effLsbe s).cells).readByte a := by
  rw [(exec_busy hb h).2]
  exact complete_readByte (effLsbe s) s a

/-- The colour bytes take the bits (44_lsb.md R202). -/
theorem lsbe_readPix_color {n ch : Nat} (hn : n < s.pixels) (hch : ch < 3) :
    t.readPix (4 * n + ch) = lsbWrite (s.readPix (4 * n + ch)) (s.readBit (3 * n + ch)) := by
  rw [State.readPix, lsbe_readByte hb h]
  refine s.readByte_writeCells_mem (mem_effLsbe_cells.mpr ⟨n, hn, .inl ⟨ch, hch, rfl⟩⟩) ?_
  intro c hc hca
  obtain ⟨m, -, ⟨dh, hdh, rfl⟩ | rfl⟩ := mem_effLsbe_cells.mp hc
  · rw [pixOff_inj] at hca
    obtain ⟨rfl, rfl⟩ : m = n ∧ dh = ch := by omega
    rfl
  · rw [pixOff_inj] at hca
    omega

/-- The alpha bytes become 255 (44_lsb.md R202). -/
theorem lsbe_readPix_alpha {n : Nat} (hn : n < s.pixels) : t.readPix (4 * n + 3) = 255#8 := by
  rw [State.readPix, lsbe_readByte hb h]
  refine s.readByte_writeCells_mem (mem_effLsbe_cells.mpr ⟨n, hn, .inr rfl⟩) ?_
  intro c hc hca
  obtain ⟨m, -, ⟨dh, hdh, rfl⟩ | rfl⟩ := mem_effLsbe_cells.mp hc
  · rw [pixOff_inj] at hca
    omega
  · rfl

/-- LSBE writes only the pixels below `N`. -/
theorem lsbe_readByte_other {a : Nat} (ha : ∀ x < 4 * s.pixels, a ≠ pixOff x) :
    t.readByte a = s.readByte a := by
  rw [lsbe_readByte hb h]
  refine s.readByte_writeCells_other fun c hc => ?_
  obtain ⟨m, hm, ⟨dh, hdh, rfl⟩ | rfl⟩ := mem_effLsbe_cells.mp hc
  · exact (ha _ (by omega)).symm
  · exact (ha _ (by omega)).symm

/-- LSBE keeps the bits it reads. -/
theorem lsbe_readBit (hl : s.cfg.legal) {k : Nat} (hk : k < 3 * s.pixels) :
    t.readBit k = s.readBit k := by
  have hN := pixels_le_of_exec hb hl rfl h
  rw [State.readBit, lsbe_readByte_other hb h fun x _ => bitOff_ne_pixOff x hN hk, State.readBit]

end Lsbe

section Lsbx

variable {s t : State} (hb : s.busy = true) (h : exec .lsbx s = .next t)
include hb h

theorem lsbx_readByte (a : Nat) : t.readByte a = (s.writeBits (effLsbx s).bits).readByte a := by
  rw [(exec_busy hb h).2]
  exact complete_readByte (effLsbx s) s a

/-- The bits take the parities of the colour bytes (44_lsb.md R203). -/
theorem lsbx_readBit {n ch : Nat} (hn : n < s.pixels) (hch : ch < 3) :
    t.readBit (3 * n + ch) = lsbRead (s.readPix (4 * n + ch)) := by
  rw [State.readBit, lsbx_readByte hb h]
  refine s.readBit_writeBits_mem (mem_effLsbx_bits.mpr ⟨n, hn, ch, hch, rfl⟩) ?_
  intro x hx hxk
  obtain ⟨m, -, dh, hdh, rfl⟩ := mem_effLsbx_bits.mp hx
  obtain ⟨rfl, rfl⟩ : m = n ∧ dh = ch := by simp only at hxk; omega
  rfl

/-- LSBX keeps the pixel memory. -/
theorem lsbx_readPix (hl : s.cfg.legal) (a : Nat) : t.readPix a = s.readPix a := by
  have hN := pixels_le_of_exec hb hl rfl h
  rw [State.readPix, lsbx_readByte hb h]
  refine s.readByte_writeBits_other fun x hx => ?_
  obtain ⟨m, hm, dh, hdh, rfl⟩ := mem_effLsbx_bits.mp hx
  exact (bitOff_ne_pixOff a hN (by omega)).symm

end Lsbx

/-! ## Sequences of the two commands (44_lsb.md R204) -/

/-- LSBE then LSBX: each bit goes into bit 0 of a colour byte and comes back from it. -/
theorem readBit_lsbe_lsbx {s t u : State} (hb : s.busy = true) (ht : exec .lsbe s = .next t)
    (hu : exec .lsbx { t with busy := true } = .next u) {x : Nat} (hx : x < 3 * s.pixels) :
    u.readBit x = s.readBit x := by
  obtain ⟨n, ch, hn, hch, rfl⟩ : ∃ n ch, n < s.pixels ∧ ch < 3 ∧ x = 3 * n + ch :=
    ⟨x / 3, x % 3, by omega, by omega, by omega⟩
  have hn' : n < t.pixels := by rwa [pixels_eq_of_exec hb ht]
  calc u.readBit (3 * n + ch) = lsbRead (t.readPix (4 * n + ch)) := lsbx_readBit rfl hu hn' hch
    _ = s.readBit (3 * n + ch) := by rw [lsbe_readPix_color hb ht hn hch, lsbRead_lsbWrite]

/-- LSBE twice: the bits are kept, so the second LSBE writes what the first one wrote. -/
theorem readByte_lsbe_lsbe {s t u : State} (hb : s.busy = true) (hl : s.cfg.legal)
    (ht : exec .lsbe s = .next t) (hu : exec .lsbe { t with busy := true } = .next u) (a : Nat) :
    u.readByte a = t.readByte a := by
  have hN := pixels_eq_of_exec hb ht
  by_cases ha : ∃ x < 4 * s.pixels, a = pixOff x
  · obtain ⟨x, hx, rfl⟩ := ha
    show u.readPix x = t.readPix x
    by_cases hx3 : x % 4 = 3
    · obtain ⟨n, hn, rfl⟩ : ∃ n < s.pixels, x = 4 * n + 3 := ⟨x / 4, by omega, by omega⟩
      rw [lsbe_readPix_alpha hb ht hn]
      exact lsbe_readPix_alpha rfl hu (hN.symm ▸ hn)
    · obtain ⟨n, ch, hn, hch, rfl⟩ : ∃ n ch, n < s.pixels ∧ ch < 3 ∧ x = 4 * n + ch :=
        ⟨x / 4, x % 4, by omega, by omega, by omega⟩
      calc u.readPix (4 * n + ch)
          = lsbWrite (t.readPix (4 * n + ch)) (t.readBit (3 * n + ch)) :=
            lsbe_readPix_color rfl hu (hN.symm ▸ hn) hch
        _ = t.readPix (4 * n + ch) := by
            rw [lsbe_readBit hb ht hl (by omega), lsbe_readPix_color hb ht hn hch, lsbWrite_lsbWrite]
  · push Not at ha
    exact lsbe_readByte_other rfl hu fun x hx => ha x (hN ▸ hx)

/-- LSBX then LSBE: every byte but the alpha bytes below `N` takes its own bit, or is not written. -/
theorem readPix_lsbx_lsbe {s t u : State} (hb : s.busy = true) (hl : s.cfg.legal)
    (ht : exec .lsbx s = .next t) (hu : exec .lsbe { t with busy := true } = .next u) {a : Nat}
    (ha : ∀ n < s.pixels, a ≠ 4 * n + 3) : u.readPix a = s.readPix a := by
  have hN := pixels_eq_of_exec hb ht
  by_cases hlt : a < 4 * s.pixels
  · have h3 : a % 4 ≠ 3 := fun h3 => ha (a / 4) (by omega) (by omega)
    obtain ⟨n, ch, hn, hch, rfl⟩ : ∃ n ch, n < s.pixels ∧ ch < 3 ∧ a = 4 * n + ch :=
      ⟨a / 4, a % 4, by omega, by omega, by omega⟩
    calc u.readPix (4 * n + ch)
        = lsbWrite (t.readPix (4 * n + ch)) (t.readBit (3 * n + ch)) :=
          lsbe_readPix_color rfl hu (hN.symm ▸ hn) hch
      _ = s.readPix (4 * n + ch) := by
          rw [lsbx_readPix hb ht hl, lsbx_readBit hb ht hn hch, lsbWrite_lsbRead]
  · have hout : ∀ x < 4 * t.pixels, pixOff a ≠ pixOff x := fun x hx => by
      rw [Ne, pixOff_inj]
      omega
    calc u.readPix a = t.readPix a := lsbe_readByte_other rfl hu hout
      _ = s.readPix a := lsbx_readPix hb ht hl a

/-- Settles O42: the byte laws by the value of the written byte, and the three sequences. -/
theorem lsbLaws : Obligations.LsbLaws := by
  refine ⟨fun v bit => ?_, fun s t u hb hl ht => ⟨fun hu x hx => ?_, fun hu => ?_⟩,
    fun s t u hb hl ht hu a ha _ => ?_⟩
  · have hbit := bit.toNat_lt
    have hw := lsbWrite_toNat v bit
    exact ⟨lsbRead_lsbWrite v bit, by omega, by omega, lsbWrite_lsbWrite v bit bit⟩
  · exact readBit_lsbe_lsbx hb ht hu hx
  · exact readByte_lsbe_lsbe hb hl ht hu
  · exact readPix_lsbx_lsbe hb hl ht hu ha

end Sys2Proof.Machine
end

section
/-! PROOF. Decoding on the bits of a word: the two rejections (60_exceptions.md R232, R233), and the
word that a decoded command encodes to (30_encoding.md R100). -/

namespace Sys2Proof

open Sys2Proof.Claims

/-! ## The two rejections -/

theorem opRow?_eq_none {op : Nat} : opRow? op = none ↔ op ∉ assigned := by
  fun_cases opRow? op <;> simp_all [assigned]

/-- A row of the opcode map holds its opcode's reserved mask (30_encoding.md R98). -/
theorem reservedMask_of_opRow? {op : Nat} {row : Word × (Word → Instr)} (h : opRow? op = some row) :
    row.1 = reservedMask op := by
  revert h
  fun_cases opRow? op <;> rintro ⟨⟩ <;> rfl

theorem decode_eq_illegalOpcode {w : Word} :
    decode w = .illegalOpcode ↔ field w 31 26 ∉ assigned := by
  rw [← opRow?_eq_none, decode]
  cases opRow? (field w 31 26) with
  | none => simp
  | some row => by_cases hm : w &&& row.1 = 0#32 <;> simp [hm]

theorem decode_eq_reservedBits {w : Word} : decode w = .reservedBits ↔
    field w 31 26 ∈ assigned ∧ w &&& reservedMask (field w 31 26) ≠ 0#32 := by
  rw [← not_not (a := _ ∈ assigned), ← opRow?_eq_none, decode]
  cases hrow : opRow? (field w 31 26) with
  | none => simp
  | some row =>
    rw [← reservedMask_of_opRow? hrow]
    by_cases hm : w &&& row.1 = 0#32 <;> simp [hm]

/-! ## The word of a decoded command -/

theorem opcodeField_lt (w : Word) : field w 31 26 < 64 := Nat.mod_lt _ (by decide)

theorem encN_readFields {w : Word} (hm : w &&& maskN = 0#32) : encN (field w 31 26) = w := by
  rw [and_maskN] at hm
  apply BitVec.eq_of_toNat_eq
  rw [encN_toNat (opcodeField_lt w)]
  simp only [field]
  omega

theorem encR2_readFields {w : Word} (hm : w &&& maskR2 = 0#32) :
    encR2 (field w 31 26) (regField w 23) (regField w 20) = w := by
  rw [and_maskR2] at hm
  apply BitVec.eq_of_toNat_eq
  rw [encR2_toNat (opcodeField_lt w)]
  simp only [regField, field]
  omega

theorem encR3_readFields {w : Word} (hm : w &&& maskR3 = 0#32) :
    encR3 (field w 31 26) (regField w 23) (regField w 20) (regField w 17) = w := by
  rw [and_maskR3] at hm
  apply BitVec.eq_of_toNat_eq
  rw [encR3_toNat (opcodeField_lt w)]
  simp only [regField, field]
  omega

theorem encM_readFields {w : Word} (hm : w &&& maskM = 0#32) :
    encM (field w 31 26) (regField w 23) (planeField w) (blockField w) = w := by
  rw [and_maskM] at hm
  apply BitVec.eq_of_toNat_eq
  have hk : blockField w < 2 ^ 18 := Nat.mod_lt _ (by decide)
  rw [encM_toNat (opcodeField_lt w) _ _ hk]
  simp only [regField, planeField, blockField, field]
  omega

/-- A row of the opcode map makes a command that encodes to the word, format by format. -/
theorem encode_of_opRow? {w : Word} {row : Word × (Word → Instr)}
    (hrow : opRow? (field w 31 26) = some row) (hm : w &&& row.1 = 0#32) :
    encode (row.2 w) = w := by
  generalize hop : field w 31 26 = op at hrow
  revert hrow
  fun_cases opRow? op <;> rintro ⟨⟩ <;> simp only [encode, ← hop]
  case case1 | case2 | case3 | case14 | case15 => exact encN_readFields hm
  case case4 | case5 | case6 | case7 => exact encR2_readFields hm
  case case8 | case9 => exact encR3_readFields hm
  case case10 | case11 | case12 | case13 => exact encM_readFields hm

theorem encode_of_decode {w : Word} {i : Instr} (h : decode w = .instr i) : encode i = w := by
  unfold decode at h
  cases hrow : opRow? (field w 31 26) with
  | none => simp [hrow] at h
  | some row =>
    by_cases hm : w &&& row.1 = 0#32
    · obtain rfl : row.2 w = i := by simpa [hrow, hm] using h
      exact encode_of_opRow? hrow hm
    · simp [hrow, hm] at h

end Sys2Proof
end

section
/-! PROOF. Which cause validation reports (60_exceptions.md R232, R233, R237). -/

namespace Sys2Proof.Machine

open Sys2Proof.Claims

/-! ## The causes of each check -/

/-- The checks 3 to 6 raise their four causes only. -/
theorem operandCause_causes {i : Instr} {s : State} {c : Cause} (h : operandCause i s = some c) :
    c = .badRegister ∨ c = .badPlane ∨ c = .badGeometry ∨ c = .blockRange := by
  unfold operandCause at h
  split_ifs at h <;> simp_all

/-- Check 7 raises its one cause only. -/
theorem referenceCause_cause {i : Instr} {s : State} {c : Cause} (h : referenceCause i s = some c) :
    c = .refWrite := by
  unfold referenceCause at h
  split_ifs at h
  exact (Option.some.inj h).symm

theorem validate_cases {i : Instr} {s : State} {c : Cause} (h : validate i s = some c) :
    operandCause i s = some c ∨ referenceCause i s = some c := by
  unfold validate at h
  split at h <;> simp_all

/-- The checks on a decoded command raise neither decoding rejection. -/
theorem validate_ne_decoding (i : Instr) (s : State) :
    validate i s ≠ some .illegalOpcode ∧ validate i s ≠ some .reservedBits := by
  have hne : ∀ c, validate i s = some c → c ≠ .illegalOpcode ∧ c ≠ .reservedBits := by
    intro c h
    rcases validate_cases h with h | h
    · obtain rfl | rfl | rfl | rfl := operandCause_causes h <;> decide
    · cases referenceCause_cause h; decide
  exact ⟨fun h => (hne _ h).1 rfl, fun h => (hne _ h).2 rfl⟩

/-! ## The decoding rejections -/

theorem validateWord_of_illegalOpcode {w : Word} (h : decode w = .illegalOpcode) (s : State) :
    validateWord w s = some .illegalOpcode := by rw [validateWord, h]

theorem validateWord_of_reservedBits {w : Word} (h : decode w = .reservedBits) (s : State) :
    validateWord w s = some .reservedBits := by rw [validateWord, h]

theorem validateWord_of_instr {w : Word} {i : Instr} (h : decode w = .instr i) (s : State) :
    validateWord w s = validate i s := by rw [validateWord, h]

theorem validateWord_eq_illegalOpcode {w : Word} {s : State} :
    validateWord w s = some .illegalOpcode ↔ decode w = .illegalOpcode := by
  cases hd : decode w with
  | illegalOpcode => simp [validateWord_of_illegalOpcode hd]
  | reservedBits => simp [validateWord_of_reservedBits hd]
  | instr i => simpa [validateWord_of_instr hd] using (validate_ne_decoding i s).1

theorem validateWord_eq_reservedBits {w : Word} {s : State} :
    validateWord w s = some .reservedBits ↔ decode w = .reservedBits := by
  cases hd : decode w with
  | illegalOpcode => simp [validateWord_of_illegalOpcode hd]
  | reservedBits => simp [validateWord_of_reservedBits hd]
  | instr i => simpa [validateWord_of_instr hd] using (validate_ne_decoding i s).2

/-- Settles O4: only decoding raises the cause, and it does so for the words that no row of the opcode
map takes. -/
theorem illegalOpcodeIsUnassigned : Obligations.IllegalOpcodeIsUnassigned := fun _ _ =>
  validateWord_eq_illegalOpcode.trans decode_eq_illegalOpcode

/-- Settles O5: only decoding raises the cause, and the mask it tests is the opcode's. -/
theorem reservedBitsUnderMask : Obligations.ReservedBitsUnderMask := fun _ _ =>
  validateWord_eq_reservedBits.trans decode_eq_reservedBits

/-! ## The block range -/

theorem geomOk_iff {s : State} : s.geomOk = true ↔ geometryLegal s := by
  simp [State.geomOk, and_assoc]

theorem blockCount_of_legal {s : State} (h : geometryLegal s) (size : Nat) :
    s.blockCount size = (s.imgW.toNat / size) * (s.imgH.toNat / size) :=
  if_pos (geomOk_iff.mpr h)

/-- Check 6 is reached when the checks 3 to 5 pass. -/
theorem operandCause_eq_blockRange {i : Instr} {s : State} :
    operandCause i s = some .blockRange ↔
      (∀ f ∈ wFields i, f.val ≤ 1) ∧
      (∀ b, blockOperand? i = some b → b.2.1 ≠ 3) ∧
      (usesGeometry i = true → s.geomOk = true) ∧
      ∃ b, blockOperand? i = some b ∧ s.blockCount b.1 ≤ b.2.2 := by
  unfold operandCause
  cases hb : blockOperand? i with
  | none => split_ifs <;> simp_all
  | some b => split_ifs <;> simp_all

theorem validate_eq_blockRange {i : Instr} {s : State} :
    validate i s = some .blockRange ↔ operandCause i s = some .blockRange := by
  refine ⟨fun h => (validate_cases h).resolve_right fun h => ?_, fun h => by rw [validate, h]⟩
  cases referenceCause_cause h

/-- A block transfer with a good register and plane and a legal geometry is refused by its index
alone. -/
theorem validate_blockRange_iff {i : Instr} {size : Nat} {pl : Fin 4} {k : Nat} {s : State}
    (hi : blockOperand? i = some (size, pl, k)) (hw : ∀ f ∈ wFields i, f.val ≤ 1) (hpl : pl ≠ 3)
    (hg : geometryLegal s) : validate i s = some .blockRange ↔
      (s.imgW.toNat / size) * (s.imgH.toNat / size) ≤ k := by
  rw [validate_eq_blockRange, operandCause_eq_blockRange, and_iff_right hw]
  simp [hi, hpl, geomOk_iff.mpr hg, blockCount_of_legal hg]

/-- Settles O6: the cause comes from check 6 alone, which a block command with no lower cause
reaches. -/
theorem blockRangeIsPastGrid : Obligations.BlockRangeIsPastGrid := by
  refine ⟨fun i s h => ?_, fun r pl k s hpl hg => ⟨?_, ?_, fun hr => ?_, fun hr => ?_⟩⟩
  · obtain ⟨-, -, -, ⟨size, pl, k⟩, hi, hk⟩ :=
      operandCause_eq_blockRange.mp (validate_eq_blockRange.mp h)
    exact ⟨size, pl, k, hi, hk⟩
  · exact validate_blockRange_iff rfl (by simp [wFields]) hpl hg
  · exact validate_blockRange_iff rfl (by simp [wFields]) hpl hg
  · exact validate_blockRange_iff rfl (by simpa [wFields] using hr) hpl hg
  · exact validate_blockRange_iff rfl (by simpa [wFields] using hr) hpl hg

end Sys2Proof.Machine
end

section
/-! PROOF. The error entry of a refused command, and that nothing else raises `ERR`
(45_control.md R221, 60_exceptions.md R240). -/

namespace Sys2Proof.Machine

/-! ## The presentation of a word -/

/-- A refused word is recorded, `DONE` cleared, and the error entry made. -/
theorem presentWord_refused {x : Word} {s : State} {c : Cause} (hb : s.busy = false)
    (he : s.err = false) (hv : validateWord x s = some c) :
    presentWord x s = .next (cmdError c x { s with cmdLast := x, done := false }) := by
  cases hd : decode x with
  | illegalOpcode =>
    obtain rfl := Option.some.inj ((validateWord_of_illegalOpcode hd s).symm.trans hv)
    simp [presentWord, hb, he, hd]
  | reservedBits =>
    obtain rfl := Option.some.inj ((validateWord_of_reservedBits hd s).symm.trans hv)
    simp [presentWord, hb, he, hd]
  | instr i =>
    rw [validateWord_of_instr hd] at hv
    simp [presentWord, hb, he, hd, exec_presented, accept, hv, encode_of_decode hd]

/-- A valid word is recorded, `DONE` cleared, and the word put in flight. -/
theorem presentWord_valid {x : Word} {s : State} (hb : s.busy = false)
    (he : s.err = false) (hv : validateWord x s = none) :
    presentWord x s =
      .next { s with cmdLast := x, done := false, pend := x, busy := true } := by
  cases hd : decode x with
  | illegalOpcode => simp [validateWord_of_illegalOpcode hd] at hv
  | reservedBits => simp [validateWord_of_reservedBits hd] at hv
  | instr i =>
    rw [validateWord_of_instr hd] at hv
    simp [presentWord, hb, he, hd, exec_presented, accept, hv, encode_of_decode hd]

/-- A step that serves a `CMD` write presents its word (20_memory.md R73). -/
theorem step_cmd {x : Word} {s : State} {rest : List Event}
    (hi : s.inbox = wr32 0x010#30 x :: rest) : step s = presentWord x { s with inbox := rest } := by
  rw [step, hi]
  exact serve_cmd _ x

/-! ## What can raise `ERR` -/

/-- A presented word that raises `ERR` was refused by validation. -/
theorem presentWord_raises_err {x : Word} {s t : State} (h : presentWord x s = .next t)
    (hs : s.err = false) (ht : t.err = true) : s.busy = false ∧ ∃ c, validateWord x s = some c ∧
      t = cmdError c x { s with cmdLast := x, done := false } := by
  have hb : s.busy = false := Bool.eq_false_iff.mpr fun hb => by
    obtain rfl : dropCommand s = t := by simpa [presentWord, hb] using h
    simp [hs] at ht
  cases hv : validateWord x s with
  | none =>
    rw [presentWord_valid hb hs hv] at h
    cases h
    simp [hs] at ht
  | some c =>
    rw [presentWord_refused hb hs hv] at h
    exact ⟨hb, c, rfl, (Host.Outcome.next.inj h).symm⟩

@[simp] theorem softReset_err (s : State) : (softReset s).err = false := rfl

/-- Of the registers only `CMD` raises `ERR`. -/
theorem writeCsr_raises_err {off : Nat} {x : Word} {s t : State} (h : writeCsr off x s = .next t)
    (hs : s.err = false) (ht : t.err = true) : off = 0x010 ∧ presentWord x s = .next t := by
  rcases writeCsr_cases h with ⟨-, rfl⟩ | ⟨-, rfl⟩ | h | ⟨-, rfl⟩ | ⟨-, rfl⟩ | ⟨-, rfl⟩ | rfl
  · unfold writeCtrl at ht
    split at ht
    · simp at ht
    · simp [hs] at ht
  · rw [writeStatus_eq] at ht
    simp [hs] at ht
  · exact h
  · simp [hs] at ht
  · simp [hs] at ht
  · simp [writeFlags, hs] at ht
  · simp [hs] at ht

/-- A register takes writes of 32 bits only (20_memory.md R67). -/
theorem hostWrite_csr_of_ne_four {off : Offset} {n : Nat} {data : BitVec 64} {s : State}
    (h : off.toNat < 0x1000) (hn : n ≠ 4) : hostWrite off n data s = .next (accessError off s) := by
  simp [hostWrite, rejectsWrite, rejects, placeOf_csr s.cfg h, widthAllowed, hn]

/-- Of the host's writes only a 32-bit one to `CMD` raises `ERR`. -/
theorem hostWrite_raises_err {off : Offset} {n : Nat} {data : BitVec 64} {s t : State}
    (h : hostWrite off n data s = .next t) (hs : s.err = false) (ht : t.err = true) :
    off = 0x010#30 ∧ n = 4 ∧ presentWord (data.setWidth 32) s = .next t := by
  rcases hostWrite_cases h with
    rfl | ⟨hlt, -, hw⟩ | ⟨-, ⟨i, e, x, rfl⟩ | ⟨j, e, x, rfl⟩ | ⟨-, -, -, rfl⟩⟩
  · simp [hs] at ht
  · obtain ⟨hoff, hp⟩ := writeCsr_raises_err hw hs ht
    refine ⟨BitVec.eq_of_toNat_eq hoff, ?_, hp⟩
    by_contra hn
    rw [hostWrite_csr_of_ne_four hlt hn] at h
    cases h
    simp [hs] at ht
  · simp [hs] at ht
  · simp [hs] at ht
  · simp [hs] at ht

/-- Of the events only a 32-bit write to `CMD` raises `ERR`. -/
theorem serve_raises_err {e : Event} {s t : State} (h : serve e s = .next t)
    (hs : s.err = false) (ht : t.err = true) :
    ∃ data, e = .write 0x010#30 .b4 data ∧ presentWord (data.setWidth 32) s = .next t := by
  cases e with
  | read off w =>
    obtain rfl : hostRead off w.bytes s = t := by simpa [serve] using h
    rw [hostRead_eq] at ht
    simp [hs] at ht
  | write off w data =>
    obtain ⟨rfl, hn, hp⟩ := hostWrite_raises_err h hs ht
    obtain rfl : w = .b4 := by cases w <;> simp_all [Width.bytes]
    exact ⟨data, rfl, hp⟩
  | engine =>
    cases hb : s.busy with
    | true =>
      obtain ⟨i, -, -, rfl⟩ := engineStep_cases hb (by simpa [serve, hb] using h)
      simp [hs] at ht
    | false =>
      obtain rfl : s = t := by simpa [serve, hb] using h
      simp [hs] at ht
  | powerOn =>
    obtain rfl : powerOnReset s = t := by simpa [serve] using h
    simp [powerOnReset] at ht

/-- Settles O9: a refused word is presented with the event used up; and of all that a step can serve only
a 32-bit `CMD` write raises `ERR`, by a word that validation refuses. -/
theorem refusedCommandEntersError : Obligations.RefusedCommandEntersError := by
  refine ⟨fun w c s rest hi hb he hv => ?_, fun s t h hs ht => ?_⟩
  · rw [step_cmd hi]
    exact presentWord_refused hb he hv
  · obtain ⟨e, rest, hi, h⟩ := step_cases h
    obtain ⟨data, rfl, hp⟩ := serve_raises_err h hs ht
    obtain ⟨hb, c, hv, rfl⟩ := presentWord_raises_err hp hs ht
    have hi : s.inbox = .write 0x010#30 .b4 data :: rest := by simpa using hi
    exact ⟨hb, data, rest, c, hi, hv, rfl, rfl⟩

end Sys2Proof.Machine
end

section
/-! PROOF. The round trip of decoding and encoding (30_encoding.md R91 to R100): a command's word has no
reserved bit set and its fields make the command again, and only that word does. -/

namespace Sys2Proof

open Sys2Proof.Claims Sys2Proof.Laws

/-! ## Words of the table -/

/-- Settles O1: each word is decoded by evaluation. -/
theorem tableWordsDecode : Obligations.TableWordsDecode := by
  unfold Obligations.TableWordsDecode
  decide

/-! ## Decoding the word of a command -/

/-- The opcode map makes every command again from its own word. -/
theorem rowFields (i : Instr) : RowFields.Statement i := by
  cases i with
  | nop => exact RowFields.nop
  | cscf => exact RowFields.cscf
  | csci => exact RowFields.csci
  | fdct d a => exact RowFields.fdct d a
  | idct d a => exact RowFields.idct d a
  | down d a => exact RowFields.down d a
  | up d a => exact RowFields.up d a
  | vsub d a b => exact RowFields.vsub d a b
  | wadd d a b => exact RowFields.wadd d a b
  | bld8 r pl k => exact RowFields.bld8 r pl k
  | bst8 r pl k => exact RowFields.bst8 r pl k
  | bld16 r pl k => exact RowFields.bld16 r pl k
  | bst16 r pl k => exact RowFields.bst16 r pl k
  | lsbe => exact RowFields.lsbe
  | lsbx => exact RowFields.lsbx

theorem encR2_and_mask {op : Nat} (h : op < 64) (d a : Fin 8) : encR2 op d a &&& maskR2 = 0#32 := by
  rw [and_maskR2, encR2_toNat h]
  omega

theorem encR3_and_mask {op : Nat} (h : op < 64) (d a b : Fin 8) :
    encR3 op d a b &&& maskR3 = 0#32 := by
  rw [and_maskR3, encR3_toNat h]
  omega

theorem encM_and_mask {op : Nat} (h : op < 64) (r : Fin 8) (pl : Fin 4) {k : Nat} (hk : k < 2 ^ 18) :
    encM op r pl k &&& maskM = 0#32 := by
  rw [and_maskM, encM_toNat h r pl hk]
  omega

/-- The word of a well-formed command has no reserved bit set (30_encoding.md R98). -/
theorem encode_and_reservedMask {i : Instr} (h : i.wellFormed = true) :
    encode i &&& reservedMask (field (encode i) 31 26) = 0#32 := by
  cases i with
  | nop | cscf | csci | lsbe | lsbx => rfl
  | fdct d a | idct d a | down d a | up d a =>
    rw [encode, (RowFields.encR2_fields (by decide) d a).1]
    exact encR2_and_mask (by decide) d a
  | vsub d a b | wadd d a b =>
    rw [encode, (RowFields.encR3_fields (by decide) d a b).1]
    exact encR3_and_mask (by decide) d a b
  | bld8 r pl k | bst8 r pl k | bld16 r pl k | bst16 r pl k =>
    have hk := of_decide_eq_true h
    rw [encode, (RowFields.encM_fields (by decide) r pl hk).1]
    exact encM_and_mask (by decide) r pl hk

/-- Settles O2: the opcode map has a row for the command's word, its reserved bits are 0, and the row
makes the command. -/
theorem decodeOfEncode : Obligations.DecodeOfEncode := by
  intro i hwf
  obtain ⟨row, hrow, hmake⟩ := Option.map_eq_some_iff.mp (rowFields i hwf)
  have hmask := encode_and_reservedMask hwf
  rw [← reservedMask_of_opRow? hrow] at hmask
  simp only [decode, hrow, hmask, ne_eq, not_true_eq_false, if_false, hmake]

/-! ## The command a word decodes to -/

theorem blockField_lt (w : Word) : blockField w < 2 ^ 18 := Nat.mod_lt _ (by decide)

/-- A word that decodes to a command was read by its row of the opcode map. -/
theorem opRow?_of_decode {w : Word} {i : Instr} (h : decode w = .instr i) :
    ∃ row, opRow? (field w 31 26) = some row ∧ row.2 w = i := by
  unfold decode at h
  cases hrow : opRow? (field w 31 26) with
  | none => simp [hrow] at h
  | some row =>
    by_cases hm : w &&& row.1 = 0#32
    · exact ⟨row, rfl, by simpa [hrow, hm] using h⟩
    · simp [hrow, hm] at h

/-- Every row makes well-formed commands only: a block index is read from 18 bits. -/
theorem wellFormed_of_opRow? {op : Nat} {row : Word × (Word → Instr)} (h : opRow? op = some row)
    (w : Word) : (row.2 w).wellFormed = true := by
  revert h
  fun_cases opRow? op <;> rintro ⟨⟩
  case case10 | case11 | case12 | case13 => exact decide_eq_true (blockField_lt w)
  all_goals rfl

/-- Settles O3: the row that reads the word makes a well-formed command, which encodes to the word. -/
theorem encodeOfDecode : Obligations.EncodeOfDecode := by
  intro w i h
  obtain ⟨row, hrow, rfl⟩ := opRow?_of_decode h
  exact ⟨wellFormed_of_opRow? hrow w, encode_of_decode h⟩

end Sys2Proof
end

section
/-! PROOF. Validation on the bits of a word (60_exceptions.md R238): each check on a decoded command is
the condition on its word, and the checks are made in the order of their causes. -/

namespace Sys2Proof.Machine

open Sys2Proof.Claims

/-! ## The fields of a decoded command -/

theorem regField_val (w : Word) (lo : Nat) : (regField w lo).val = field w (lo + 2) lo := by
  refine Nat.mod_eq_of_lt ?_
  have : lo + 2 + 1 - lo = 3 := by omega
  rw [field, this]
  exact Nat.mod_lt _ (by decide)

theorem planeField_eq_three {w : Word} : planeField w = 3 ↔ field w 22 21 = 3 := by
  have h : field w 22 21 < 4 := Nat.mod_lt _ (by decide)
  have hval : (planeField w).val = field w 22 21 := Nat.mod_eq_of_lt h
  rw [Fin.ext_iff, hval]
  rfl

section Decoded

variable {w : Word} {i : Instr} (h : decode w = .instr i)
include h

/-- Check 3 on the bits of the word. -/
theorem wFields_any_iff : (wFields i).any (fun f => decide (1 < f.val)) = true ↔ badRegister w := by
  obtain ⟨row, hrow, rfl⟩ := opRow?_of_decode h
  generalize hop : field w 31 26 = op at hrow
  revert hrow
  fun_cases opRow? op <;> rintro ⟨⟩ <;> simp [wFields, badRegister, hop, regField_val]

/-- Check 4 on the bits of the word. -/
theorem blockOperand_plane_iff : (blockOperand? i).any (fun b => decide (b.2.1 = 3)) = true ↔
    blockOp w ∧ field w 22 21 = 3 := by
  obtain ⟨row, hrow, rfl⟩ := opRow?_of_decode h
  generalize hop : field w 31 26 = op at hrow
  revert hrow
  fun_cases opRow? op <;> rintro ⟨⟩ <;> simp [blockOperand?, blockOp, hop, planeField_eq_three]

theorem usesGeometry_iff : usesGeometry i = true ↔ geometryOp w := by
  obtain ⟨row, hrow, rfl⟩ := opRow?_of_decode h
  generalize hop : field w 31 26 = op at hrow
  revert hrow
  fun_cases opRow? op <;> rintro ⟨⟩ <;> simp [usesGeometry, geometryOp, hop]

/-- Check 5 on the bits of the word. -/
theorem badGeometry_iff (s : State) : (usesGeometry i && !s.geomOk) = true ↔
    geometryOp w ∧ ¬ geometryLegal s := by
  rw [Bool.and_eq_true, usesGeometry_iff h, ← geomOk_iff, Bool.not_eq_true', Bool.not_eq_true]

/-- Check 6 on the bits of the word, for a geometry that passed check 5. -/
theorem blockOperand_range_iff {s : State} (hg : geometryOp w → geometryLegal s) :
    (blockOperand? i).any (fun b => decide (s.blockCount b.1 ≤ b.2.2)) = true ↔ pastGrid w s := by
  obtain ⟨row, hrow, rfl⟩ := opRow?_of_decode h
  generalize hop : field w 31 26 = op at hrow
  have hsub : [0x10, 0x11, 0x12, 0x13] ⊆ [0x02, 0x03, 0x10, 0x11, 0x12, 0x13, 0x18, 0x19] := by simp
  have hg : op ∈ [0x10, 0x11, 0x12, 0x13] →
      ∀ size, s.blockCount size = (s.imgW.toNat / size) * (s.imgH.toNat / size) := fun hm =>
    blockCount_of_legal (hg (by rw [geometryOp, hop]; exact hsub hm))
  revert hrow hg
  fun_cases opRow? op <;> rintro ⟨⟩ hg <;>
    simp_all [blockOperand?, pastGrid, blockField]

/-- Check 7 on the bits of the word. -/
theorem guardedStore_iff (s : State) : (storesReference i && s.refprot) = true ↔ guardedStore w s := by
  obtain ⟨row, hrow, rfl⟩ := opRow?_of_decode h
  generalize hop : field w 31 26 = op at hrow
  revert hrow
  have hk : field w 17 0 = blockField w := rfl
  fun_cases opRow? op <;> rintro ⟨⟩ <;> simp [storesReference, guardedStore, hop, hk]

end Decoded

/-- Settles O7: decoding answers the first two causes; for a decoded command the checks are the
conditions on the word, each reached when the ones before it pass. -/
theorem validationPriority : Obligations.ValidationPriority := by
  intro w s
  refine ⟨fun ho => validateWord_of_illegalOpcode (decode_eq_illegalOpcode.mpr ho) s, fun ho =>
    ⟨fun hm => validateWord_of_reservedBits (decode_eq_reservedBits.mpr ⟨ho, hm⟩) s, fun hm => ?_⟩⟩
  cases hd : decode w with
  | illegalOpcode => exact absurd ho (decode_eq_illegalOpcode.mp hd)
  | reservedBits => exact absurd hm (decode_eq_reservedBits.mp hd).2
  | instr i =>
    rw [validateWord_of_instr hd, validate, operandCause, referenceCause]
    refine ⟨fun h3 => ?_, fun h3 => ⟨fun h4 => ?_, fun h4 => ⟨fun h5 => ?_, fun h5 =>
      ⟨fun h6 => ?_, fun h6 => ⟨fun h7 => ?_, fun h7 => ?_⟩⟩⟩⟩⟩
    · rw [if_pos ((wFields_any_iff hd).mpr h3)]
    all_goals rw [if_neg (mt (wFields_any_iff hd).mp h3)]
    · rw [if_pos ((blockOperand_plane_iff hd).mpr h4)]
    all_goals rw [if_neg (mt (blockOperand_plane_iff hd).mp h4)]
    · rw [if_pos ((badGeometry_iff hd s).mpr h5)]
    all_goals
      rw [if_neg (mt (badGeometry_iff hd s).mp h5)]
      have hg : geometryOp w → geometryLegal s := fun hop => not_not.mp fun hl => h5 ⟨hop, hl⟩
    · rw [if_pos ((blockOperand_range_iff hd hg).mpr h6)]
    all_goals rw [if_neg (mt (blockOperand_range_iff hd hg).mp h6)]
    · exact if_pos ((guardedStore_iff hd s).mpr h7)
    · exact if_neg (mt (guardedStore_iff hd s).mp h7)

end Sys2Proof.Machine
end

section
/-! PROOF. What a step does with a presented command and with one in flight (45_control.md R220 to R222,
60_exceptions.md R243). -/

namespace Sys2Proof.Machine

/-- A word presented while `BUSY` or `ERR` is 1 is dropped. -/
theorem presentWord_dropped {x : Word} {s : State} (h : s.busy = true ∨ s.err = true) :
    presentWord x s = .next (dropCommand s) := by
  rw [presentWord, if_pos (by simpa using h)]

/-- Settles O8: the word is presented with the event used up, and dropped. -/
theorem busyOrErrorDropsCommand : Obligations.BusyOrErrorDropsCommand := by
  intro w s rest hi h
  rw [step_cmd hi]
  exact presentWord_dropped h

/-- Settles O10: the word is presented with the event used up, and validation refuses nothing. -/
theorem validCommandIsTaken : Obligations.ValidCommandIsTaken := by
  intro w s rest hi hb he hv
  rw [step_cmd hi]
  exact presentWord_valid hb he hv

/-- The engine's turn runs the command `PEND` decodes to. -/
theorem engineStep_of_decode {s : State} {i : Instr} (hd : decode s.pend = .instr i) :
    engineStep s = exec i s := by rw [engineStep, hd]

/-- A step whose oldest event is the engine's, while busy. -/
theorem step_engine {s : State} {rest : List Event} (hi : s.inbox = .engine :: rest)
    (hb : s.busy = true) : step s = engineStep { s with inbox := rest } := by
  rw [step, hi]
  exact if_pos hb

/-- A step with no event left, while busy. -/
theorem step_no_event {s : State} (hi : s.inbox = []) (hb : s.busy = true) :
    step s = engineStep s := by
  rw [step, hi]
  exact if_pos hb

/-- Settles O11: the engine's turn and a step with no event left run the command in flight; a presented
word that decodes is run by `exec`. -/
theorem stepRunsDecodedCommand : Obligations.StepRunsDecodedCommand := by
  refine fun i s rest => ⟨fun hb hd hi => ?_, fun hb hd hi => ?_, fun w hb he hd hi => ?_⟩
  · rw [step_engine hi hb]
    exact engineStep_of_decode hd
  · rw [step_no_event hi hb, engineStep_of_decode hd]
  · rw [step_cmd hi]
    simp [presentWord, hb, he, hd]

/-- Settles O12: `command` checks the operands of a command in flight again. -/
theorem unvalidatedPendStops : Obligations.UnvalidatedPendStops := by
  intro i s c hb hc
  simp [exec_eq_command, command, hb, hc]

/-- Settles O13: NOP passes every check, and its effect writes nothing. -/
theorem nopCompletes : Obligations.NopCompletes := by
  intro s hb
  have hok : operandCause .nop s = none := by simp [operandCause, wFields, blockOperand?, usesGeometry]
  rw [exec_inFlight hb hok]
  simp [complete, Effect.apply, effectOf, effNop, State.writeCells, Memory.writeCells,
    State.writeBits]

end Sys2Proof.Machine
end

section
/-! PROOF. The index function of a block (43_block_indexer.md R181, R182): a block in range lies in the
image, and a sample belongs to one block at one place. -/

namespace Sys2Proof.Machine

open Sys2Proof.Claims

section Block

variable {s : State} {size k : Nat} (hk : k < s.blockCount size)
include hk

/-- A grid that holds a block has a legal geometry and `COLS * ROWS` blocks. -/
theorem blockCount_pos_geometry :
    s.geomOk = true ∧ s.blockCount size = s.cols size * s.rows size := by
  unfold State.blockCount at *
  split at hk
  · next hg => exact ⟨hg, if_pos hg⟩
  · omega

theorem block_cols_pos : 0 < s.cols size := by
  rw [(blockCount_pos_geometry hk).2] at hk
  exact Nat.pos_of_mul_pos_right (Nat.zero_lt_of_lt hk)

/-- The pixel row of a block's row lies in the image. -/
theorem blockRow_lt {r : Nat} (hr : r < size) : k / s.cols size * size + r < s.imgH.toNat := by
  rw [(blockCount_pos_geometry hk).2] at hk
  have hrow : k / s.cols size < s.rows size := Nat.div_lt_of_lt_mul hk
  calc k / s.cols size * size + r < (k / s.cols size + 1) * size := by rw [Nat.succ_mul]; omega
    _ ≤ s.rows size * size := Nat.mul_le_mul_right size hrow
    _ ≤ s.imgH.toNat := Nat.div_mul_le_self _ _

/-- The pixel column of a block's column lies in the image. -/
theorem blockCol_lt {c : Nat} (hc : c < size) : k % s.cols size * size + c < s.imgW.toNat := by
  have hcol : k % s.cols size < s.cols size := Nat.mod_lt _ (block_cols_pos hk)
  calc k % s.cols size * size + c < (k % s.cols size + 1) * size := by rw [Nat.succ_mul]; omega
    _ ≤ s.cols size * size := Nat.mul_le_mul_right size hcol
    _ ≤ s.imgW.toNat := Nat.div_mul_le_self _ _

/-- Every sample of a block in range lies in the image. -/
theorem blkIndex_lt_pixels {r c : Nat} (hr : r < size) (hc : c < size) :
    s.blkIndex size k r c < s.pixels := by
  have hcol := blockCol_lt hk hc
  calc s.blkIndex size k r c < (k / s.cols size * size + r + 1) * s.imgW.toNat := by
        rw [State.blkIndex, Nat.succ_mul]; omega
    _ ≤ s.imgH.toNat * s.imgW.toNat := Nat.mul_le_mul_right _ (blockRow_lt hk hr)
    _ = s.pixels := Nat.mul_comm _ _

/-- Every element of a block in range lies in the image. -/
theorem blockSample_lt_pixels {e : Nat} (he : e < size * size) :
    s.blockSample size k e < s.pixels :=
  blkIndex_lt_pixels hk (Nat.div_lt_of_lt_mul he)
    (Nat.mod_lt _ (Nat.pos_of_mul_pos_right (Nat.zero_lt_of_lt he)))

end Block

/-- A row-major number determines its row and its column. -/
theorem rowMajor_inj {w a b c d : Nat} (hb : b < w) (hd : d < w) (h : a * w + b = c * w + d) :
    a = c ∧ b = d := by
  have hrow : ∀ {x y : Nat}, y < w → (x * w + y) / w = x ∧ (x * w + y) % w = y := fun {x y} hy => by
    rw [Nat.mul_comm, Nat.mul_add_div (by omega), Nat.div_eq_of_lt hy, Nat.mul_add_mod,
      Nat.mod_eq_of_lt hy]
    exact ⟨rfl, rfl⟩
  obtain ⟨h1, h2⟩ := hrow (x := a) hb
  obtain ⟨h3, h4⟩ := hrow (x := c) hd
  rw [h] at h1 h2
  exact ⟨h1.symm.trans h3, h2.symm.trans h4⟩

/-- A sample of a grid belongs to one block, at one row and column of it. -/
theorem blkIndex_inj {s : State} {size k1 r1 c1 k2 r2 c2 : Nat} (hk1 : k1 < s.blockCount size)
    (hk2 : k2 < s.blockCount size) (hr1 : r1 < size) (hc1 : c1 < size) (hr2 : r2 < size)
    (hc2 : c2 < size) (h : s.blkIndex size k1 r1 c1 = s.blkIndex size k2 r2 c2) :
    k1 = k2 ∧ r1 = r2 ∧ c1 = c2 := by
  obtain ⟨hrow, hcol⟩ := rowMajor_inj (blockCol_lt hk1 hc1) (blockCol_lt hk2 hc2) h
  obtain ⟨hdiv, hr⟩ := rowMajor_inj hr1 hr2 hrow
  obtain ⟨hmod, hc⟩ := rowMajor_inj hc1 hc2 hcol
  refine ⟨?_, hr, hc⟩
  calc k1 = s.cols size * (k1 / s.cols size) + k1 % s.cols size := (Nat.div_add_mod _ _).symm
    _ = s.cols size * (k2 / s.cols size) + k2 % s.cols size := by rw [hdiv, hmod]
    _ = k2 := Nat.div_add_mod _ _

/-- No block names a sample twice. -/
theorem blockSample_inj {s : State} {size k e e' : Nat} (hk : k < s.blockCount size)
    (he : e < size * size) (he' : e' < size * size)
    (h : s.blockSample size k e = s.blockSample size k e') : e = e' := by
  have hs : 0 < size := Nat.pos_of_mul_pos_right (Nat.zero_lt_of_lt he)
  obtain ⟨-, hdiv, hmod⟩ := blkIndex_inj hk hk (Nat.div_lt_of_lt_mul he) (Nat.mod_lt _ hs)
    (Nat.div_lt_of_lt_mul he') (Nat.mod_lt _ hs) h
  rw [← Nat.div_add_mod e size, ← Nat.div_add_mod e' size, hdiv, hmod]

/-- Settles O36: the row and the column of the sample lie in the image, which has at most `MAX_PIX` pixels. -/
theorem blockSamplesInImage : Obligations.BlockSamplesInImage :=
  fun _ _ _ _ _ hg _ hk hr hc =>
    ⟨blkIndex_lt_pixels hk hr hc, pixels_le_maxPix (geomOk_iff.mpr hg)⟩

/-- Settles O37: the row-major number gives back the pixel's row and column, and these the block and the
place in it. -/
theorem blocksAreDisjoint : Obligations.BlocksAreDisjoint :=
  fun _ _ _ _ _ _ _ _ _ hk1 hk2 hr1 hc1 hr2 hc2 h => blkIndex_inj hk1 hk2 hr1 hc1 hr2 hc2 h

end Sys2Proof.Machine
end

section
/-! PROOF. What a write to a register and a soft reset can do, said once, for the invariants: each case
of `writeCsr` as an update of the state (10_state.md R30 to R40, 45_control.md R221). -/

namespace Sys2Proof.Machine

/-! ## Presented words -/

/-- Presenting a word drops it, refuses it by the error entry, or puts it in flight. -/
theorem presentWord_updates {x : Word} {s t : State} (h : presentWord x s = .next t) :
    t = dropCommand s ∨
    (s.busy = false ∧ ∃ c, t = cmdError c x { s with cmdLast := x, done := false }) ∨
    (s.busy = false ∧ s.err = false ∧ validateWord x s = none ∧
      t = { s with cmdLast := x, done := false, pend := x, busy := true }) := by
  by_cases hd : s.busy = true ∨ s.err = true
  · rw [presentWord_dropped hd] at h
    exact .inl (Host.Outcome.next.inj h).symm
  · obtain ⟨hb, he⟩ := not_or.mp hd
    rw [Bool.not_eq_true] at hb he
    cases hv : validateWord x s with
    | some c =>
      rw [presentWord_refused hb he hv] at h
      exact .inr (.inl ⟨hb, c, (Host.Outcome.next.inj h).symm⟩)
    | none =>
      rw [presentWord_valid hb he hv] at h
      exact .inr (.inr ⟨hb, he, rfl, (Host.Outcome.next.inj h).symm⟩)

/-- A presented word is answered with a next state. -/
theorem presentWord_answers (x : Word) (s : State) : ∃ t, presentWord x s = .next t := by
  rcases presentWord_cases x s with ⟨-, h⟩ | ⟨-, -, -, h⟩ | ⟨-, -, -, h⟩ | ⟨-, -, i, -, h⟩ <;>
    exact ⟨_, h⟩

/-- A valid word decodes to a command whose operands pass. -/
theorem operandCause_of_validateWord {x : Word} {s : State} (h : validateWord x s = none) :
    ∃ i, decode x = .instr i ∧ operandCause i s = none := by
  cases hd : decode x with
  | illegalOpcode => simp [validateWord_of_illegalOpcode hd] at h
  | reservedBits => simp [validateWord_of_reservedBits hd] at h
  | instr i =>
    rw [validateWord_of_instr hd] at h
    exact ⟨i, rfl, (validate_eq_none.mp h).1⟩

/-! ## The soft reset -/

/-- A write to `CTRL` is a soft reset or sets the three enables (10_state.md R30). -/
theorem writeCtrl_cases (x : Word) (s : State) :
    (x.getLsbD 31 = true ∧ writeCtrl x s = softReset s) ∨
    (x.getLsbD 31 = false ∧ writeCtrl x s =
      { s with ieDone := x.getLsbD 0, ieErr := x.getLsbD 1, refprot := x.getLsbD 2 }) := by
  unfold writeCtrl
  cases x.getLsbD 31 with
  | true => exact .inl ⟨rfl, rfl⟩
  | false => exact .inr ⟨rfl, rfl⟩

@[simp] theorem cancelPending_cfg (s : State) : (cancelPending s).cfg = s.cfg := by
  rw [cancelPending_eq]

@[simp] theorem softReset_cfg (s : State) : (softReset s).cfg = s.cfg := by
  unfold softReset
  split <;> simp

/-- Cancelling a command in flight writes its destinations with free values. -/
theorem cancelPending_of_decode {s : State} {i : Instr} (hd : decode s.pend = .instr i) :
    cancelPending s =
      { ((effectOf i s).cancelled s.fresh).apply s with fresh := s.fresh + 1 } := by
  rw [cancelPending, hd]

/-- What a soft reset leaves in memory: the free values of the command in flight, if there is one. -/
theorem softReset_mem (s : State) : (softReset s).mem = s.mem ∨
    (s.busy = true ∧ ∃ i, decode s.pend = .instr i ∧
      (softReset s).mem = (((effectOf i s).cancelled s.fresh).apply s).mem) := by
  unfold softReset
  cases hb : s.busy with
  | false => exact .inl rfl
  | true =>
    cases hd : decode s.pend with
    | instr i => exact .inr ⟨rfl, i, rfl, by simp [cancelPending, hd]⟩
    | illegalOpcode => exact .inl (by simp [cancelPending, hd])
    | reservedBits => exact .inl (by simp [cancelPending, hd])

@[simp] theorem powerOnReset_cfg (s : State) : (powerOnReset s).cfg = s.cfg := rfl

@[simp] theorem hostRead_cfg (off : Offset) (n : Nat) (s : State) :
    (hostRead off n s).cfg = s.cfg := by rw [hostRead_eq]

end Sys2Proof.Machine
end

section
/-! PROOF. What every step keeps: the parameters (00_scope.md R7), the flags but for CSCI (10_state.md R40)
and the operands of a command in flight (10_state.md R44, 20_memory.md R69). -/

namespace Sys2Proof.Machine

/-! ## The parameters -/

theorem writeCsr_cfg {off : Nat} {x : Word} {s t : State} (h : writeCsr off x s = .next t) :
    t.cfg = s.cfg := by
  rcases writeCsr_cases h with ⟨-, rfl⟩ | ⟨-, rfl⟩ | ⟨-, h⟩ | ⟨-, rfl⟩ | ⟨-, rfl⟩ | ⟨-, rfl⟩ | rfl
  · rcases writeCtrl_cases x s with ⟨-, h⟩ | ⟨-, h⟩ <;> simp [h]
  · rw [writeStatus_eq]
  · rcases presentWord_updates h with rfl | ⟨-, c, rfl⟩ | ⟨-, -, -, rfl⟩ <;> simp
  all_goals rfl

theorem serve_cfg {e : Event} {s t : State} (h : serve e s = .next t) : t.cfg = s.cfg := by
  rcases serve_cases h with ⟨off, n, rfl⟩ | ⟨off, rfl⟩ | ⟨off, x, -, -, h⟩ |
    ⟨-, ⟨i, e, x, rfl⟩ | ⟨j, e, x, rfl⟩ | ⟨off, n, x, -, -, -, rfl⟩⟩ | ⟨-, hb, h⟩ | ⟨-, -, rfl⟩ | rfl
  case inr.inr.inl => exact writeCsr_cfg h
  case inr.inr.inr.inr.inl => obtain ⟨i, -, -, rfl⟩ := engineStep_cases hb h; rfl
  all_goals simp

/-- Settles O32: no event changes the parameters. -/
theorem instanceIsFixed : Obligations.InstanceIsFixed := by
  intro s t h
  obtain ⟨e, rest, -, h⟩ := step_cases h
  have hc := serve_cfg h
  exact hc

/-! ## The flags -/

/-- Neither flag is 1 that was 0. -/
def NoFlagSet (s t : State) : Prop := (t.nv = true → s.nv = true) ∧ (t.sat = true → s.sat = true)

/-- No effect but CSCI's names a flag event. -/
theorem effectOf_flags {i : Instr} (hi : i ≠ .csci) (s : State) :
    (effectOf i s).nv = false ∧ (effectOf i s).sat = false := by
  cases i with
  | csci => exact absurd rfl hi
  | _ => exact ⟨rfl, rfl⟩

/-- A register write sets no flag. -/
theorem writeCsr_noFlagSet {off : Nat} {x : Word} {s t : State} (h : writeCsr off x s = .next t) :
    NoFlagSet s t := by
  rcases writeCsr_cases h with ⟨-, rfl⟩ | ⟨-, rfl⟩ | ⟨-, h⟩ | ⟨-, rfl⟩ | ⟨-, rfl⟩ | ⟨-, rfl⟩ | rfl
  · rcases writeCtrl_cases x s with ⟨-, h⟩ | ⟨-, h⟩ <;> simp [h, softReset, NoFlagSet]
  · simp [writeStatus_eq, NoFlagSet]
  · rcases presentWord_updates h with rfl | ⟨-, c, rfl⟩ | ⟨-, -, -, rfl⟩ <;> simp [NoFlagSet]
  · simp [NoFlagSet]
  · simp [NoFlagSet]
  · simp only [NoFlagSet, writeFlags, Bool.and_eq_true]; tauto
  · simp [NoFlagSet]

/-- A completion sets the flags its effect names. -/
theorem complete_noFlagSet {f : Effect} (h : f.nv = false ∧ f.sat = false) (s : State) :
    NoFlagSet s (complete f s) := by simp [NoFlagSet, h]

/-- An event that sets a flag is the engine's, with a CSCI in flight. -/
theorem serve_sets_flag {e : Event} {s t : State} (h : serve e s = .next t) (hf : ¬ NoFlagSet s t) :
    e = .engine ∧ s.busy = true ∧ decode s.pend = .instr .csci := by
  rcases serve_cases h with ⟨off, n, rfl⟩ | ⟨off, rfl⟩ | ⟨off, x, -, -, h⟩ |
    ⟨-, ⟨i, e, x, rfl⟩ | ⟨j, e, x, rfl⟩ | ⟨off, n, x, -, -, -, rfl⟩⟩ | ⟨he, hb, h⟩ | ⟨-, -, rfl⟩ | rfl
  case inr.inr.inl => exact absurd (writeCsr_noFlagSet h) hf
  case inr.inr.inr.inr.inl =>
    obtain ⟨i, hd, -, rfl⟩ := engineStep_cases hb h
    obtain rfl : i = .csci := by
      by_contra hi
      exact hf (complete_noFlagSet (effectOf_flags hi s) s)
    exact ⟨he, hb, hd⟩
  case inl => rw [hostRead_eq] at hf; simp [NoFlagSet] at hf
  case inr.inr.inr.inr.inr.inr => simp [powerOnReset, NoFlagSet] at hf
  all_goals simp [NoFlagSet] at hf

/-- Settles O33: of all events only a completion sets a flag, and of all effects only CSCI's. -/
theorem onlyCsciSetsFlags : Obligations.OnlyCsciSetsFlags := by
  intro s t h hf
  obtain ⟨e, rest, hi, h⟩ := step_cases h
  have hset : ¬ NoFlagSet s t := by
    rintro ⟨hnv, hsat⟩
    rcases hf with ⟨ht, hs⟩ | ⟨ht, hs⟩
    · simp [hnv ht] at hs
    · simp [hsat ht] at hs
  obtain ⟨rfl, hb, hd⟩ := serve_sets_flag h hset
  refine ⟨hb, hd, ?_⟩
  rcases hi with hi | ⟨hi, -, -⟩
  · exact .inr (by rw [hi]; rfl)
  · exact .inl hi

/-! ## The operands of a command in flight -/

/-- The geometry, `PEND`, the block registers and the memory are the same. -/
def SameOperands (s t : State) : Prop :=
  t.imgW = s.imgW ∧ t.imgH = s.imgH ∧ t.pend = s.pend ∧ t.v = s.v ∧ t.w = s.w ∧ t.mem = s.mem ∧
    t.epoch = s.epoch

/-- A register write while `BUSY` stays 1 keeps the operands; writes to the geometry are not served. -/
theorem writeCsr_sameOperands {off : Nat} {x : Word} {s t : State}
    (h : writeCsr off x s = .next t) (hb : s.busy = true) (hoff : off ≠ 0x014 ∧ off ≠ 0x018)
    (ht : t.busy = true) : SameOperands s t := by
  rcases writeCsr_cases h with ⟨-, rfl⟩ | ⟨-, rfl⟩ | ⟨-, h⟩ | ⟨ho, -⟩ | ⟨ho, -⟩ | ⟨-, rfl⟩ | rfl
  · rcases writeCtrl_cases x s with ⟨-, h⟩ | ⟨-, h⟩
    · rw [h] at ht
      simp [softReset] at ht
    · simp [h, SameOperands]
  · simp [writeStatus_eq, SameOperands]
  · rcases presentWord_updates h with rfl | ⟨hn, -⟩ | ⟨hn, -⟩
    · simp [SameOperands]
    · simp [hb] at hn
    · simp [hb] at hn
  · exact absurd ho hoff.1
  · exact absurd ho hoff.2
  · simp [writeFlags, SameOperands]
  · simp [SameOperands]

theorem serve_sameOperands {e : Event} {s t : State} (h : serve e s = .next t)
    (hb : s.busy = true) (ht : t.busy = true) : SameOperands s t := by
  rcases serve_cases h with ⟨off, n, rfl⟩ | ⟨off, rfl⟩ | ⟨off, x, -, hoff, h⟩ | ⟨hn, -⟩ | ⟨-, -, h⟩ |
    ⟨-, hn, -⟩ | rfl
  · rw [hostRead_eq]; simp [SameOperands]
  · simp [SameOperands]
  · exact writeCsr_sameOperands h hb (hoff hb) ht
  · simp [hb] at hn
  · obtain ⟨i, -, -, rfl⟩ := engineStep_cases hb h
    simp at ht
  · simp [hb] at hn
  · simp [powerOnReset] at ht

/-- Settles O34: whatever event is served, `BUSY` falls or the operands are the same. -/
theorem busyLocksOperands : Obligations.BusyLocksOperands := by
  intro s t hb h ht
  obtain ⟨e, rest, -, h⟩ := step_cases h
  have hsame := serve_sameOperands h hb ht
  exact hsame

end Sys2Proof.Machine
end

section
/-! PROOF. The invariant of the machine (45_control.md R222, R223): canonical memory, agreeing status
registers, a validated command in flight. -/

namespace Sys2Proof.Machine

open Sys2Proof.Safety

theorem pendValidated_congr {s t : State} (h : PendValidated s) (hp : t.pend = s.pend)
    (hc : t.cfg = s.cfg) (hw : t.imgW = s.imgW) (hh : t.imgH = s.imgH) : PendValidated t := by
  obtain ⟨i, hd, ho⟩ := h
  exact ⟨i, hp ▸ hd, operandCause_congr hc hw hh ▸ ho⟩

/-- A change that keeps the status registers, `PEND` and the geometry keeps the invariant when it keeps
the canonical form of memory. -/
theorem inv_of_mem {s t : State} (h : Inv s) (hm : t.mem.wf)
    (ht : t = { s with v := t.v, w := t.w, mem := t.mem, inbox := t.inbox }) : Inv t := by
  obtain ⟨-, hst, hp⟩ := h
  rw [ht]
  exact ⟨hm, hst, fun hb => pendValidated_congr (hp hb) rfl rfl rfl rfl⟩

/-- A change of the status registers that agree again keeps the invariant. -/
theorem inv_of_status {s t : State} (h : Inv s) (hst : StatusAgrees t) (hm : t.mem = s.mem)
    (hb : t.busy = true → s.busy = true ∧ t.pend = s.pend ∧ t.cfg = s.cfg ∧ t.imgW = s.imgW ∧
      t.imgH = s.imgH) : Inv t := by
  obtain ⟨hwf, -, hp⟩ := h
  refine ⟨hm ▸ hwf, hst, fun hbt => ?_⟩
  obtain ⟨hbs, hpend, hc, hw, hh⟩ := hb hbt
  exact pendValidated_congr (hp hbs) hpend hc hw hh

theorem inv_accessError {s : State} (h : Inv s) (off : Offset) : Inv (accessError off s) := by
  obtain ⟨-, ⟨h1, h2, -, h4⟩, -⟩ := id h
  exact inv_of_status h ⟨h1, h2, fun hc => Bool.noConfusion hc, h4⟩ rfl
    fun hb => ⟨hb, rfl, rfl, rfl, rfl⟩

theorem inv_hostRead {s : State} (h : Inv s) (off : Offset) (n : Nat) :
    Inv (hostRead off n s) := by
  obtain ⟨hwf, hst, hp⟩ := h
  have hreply : ∀ r, Inv { s with replies := r } := fun _ =>
    ⟨hwf, hst, fun hb => pendValidated_congr (hp hb) rfl rfl rfl rfl⟩
  unfold hostRead
  split
  · exact inv_accessError (hreply _) off
  · exact hreply _

theorem softReset_wf {s : State} (h : s.mem.wf) : (softReset s).mem.wf := by
  rcases softReset_mem s with hm | ⟨-, i, -, hm⟩
  · rwa [hm]
  · rw [hm]
    exact complete_wf ((effectOf i s).cancelled s.fresh) h

/-- A reset leaves a state that meets the invariant. -/
theorem inv_resetRegisters {s : State} (h : s.mem.wf) : Inv (resetRegisters s) :=
  ⟨h, ⟨fun _ => ⟨rfl, rfl⟩, fun he => Bool.noConfusion he, fun _ => rfl,
    fun hb => Bool.noConfusion hb⟩, fun hb => Bool.noConfusion hb⟩

theorem inv_presentWord {x : Word} {s t : State} (hs : Inv s) (h : presentWord x s = .next t) :
    Inv t := by
  obtain ⟨hwf, ⟨h1, h2, h3, h4⟩, -⟩ := id hs
  rcases presentWord_updates h with rfl | ⟨hb, c, rfl⟩ | ⟨hb, he, hv, rfl⟩
  · exact inv_of_status hs ⟨h1, h2, h3, h4⟩ rfl fun hb => ⟨hb, rfl, rfl, rfl, rfl⟩
  · refine inv_of_status hs ⟨fun he => Bool.noConfusion he, fun _ => rfl, h3, fun hbt => ?_⟩ rfl
      fun hbt => ?_
    all_goals exact Bool.noConfusion (hb.symm.trans hbt)
  · obtain ⟨i, hd, ho⟩ := operandCause_of_validateWord hv
    exact ⟨hwf, ⟨h1, h2, h3, fun _ => ⟨rfl, he⟩⟩,
      fun _ => ⟨i, hd, operandCause_congr (s := s) rfl rfl rfl ▸ ho⟩⟩

theorem inv_writeStatus {s : State} (h : Inv s) (x : Word) : Inv (writeStatus x s) := by
  obtain ⟨-, ⟨h1, h2, h3, h4⟩, -⟩ := id h
  rw [writeStatus_eq]
  refine inv_of_status h ⟨fun he => ?_, fun he => ?_, fun ha => ?_, fun hb => ?_⟩ rfl
    fun hb => ⟨hb, rfl, rfl, rfl, rfl⟩
  · cases hs : s.err <;> simp_all
  · simp_all
  · cases hs : s.accerr <;> simp_all
  · simp [h4 hb]

theorem inv_writeCsr {off : Nat} {x : Word} {s t : State} (hs : Inv s)
    (hoff : s.busy = true → off ≠ 0x014 ∧ off ≠ 0x018) (h : writeCsr off x s = .next t) : Inv t := by
  obtain ⟨hwf, hst, hp⟩ := id hs
  rcases writeCsr_cases h with ⟨-, rfl⟩ | ⟨-, rfl⟩ | ⟨-, h⟩ | ⟨ho, rfl⟩ | ⟨ho, rfl⟩ | ⟨-, rfl⟩ | rfl
  · rcases writeCtrl_cases x s with ⟨-, h⟩ | ⟨-, h⟩
    · rw [h]
      exact inv_resetRegisters (softReset_wf hwf)
    · rw [h]
      exact inv_of_status hs hst rfl fun hb => ⟨hb, rfl, rfl, rfl, rfl⟩
  · exact inv_writeStatus hs x
  · exact inv_presentWord hs h
  · exact inv_of_status hs hst rfl fun hb => absurd ho (hoff hb).1
  · exact inv_of_status hs hst rfl fun hb => absurd ho (hoff hb).2
  · exact inv_of_status hs hst rfl fun hb => ⟨hb, rfl, rfl, rfl, rfl⟩
  · exact hs

/-- A completion frees the engine and leaves the error registers alone. -/
theorem inv_complete {s : State} (h : Inv s) (f : Effect) : Inv (complete f s) := by
  obtain ⟨hwf, ⟨h1, h2, h3, -⟩, -⟩ := h
  exact ⟨complete_wf f hwf, ⟨h1, h2, h3, fun hb => Bool.noConfusion hb⟩,
    fun hb => Bool.noConfusion hb⟩

theorem inv_serve {e : Event} {s t : State} (hs : Inv s) (h : serve e s = .next t) : Inv t := by
  have hwf : s.mem.wf := hs.1
  rcases serve_cases h with ⟨off, n, rfl⟩ | ⟨off, rfl⟩ | ⟨off, x, -, hoff, h⟩ |
    ⟨-, ⟨i, e, x, rfl⟩ | ⟨j, e, x, rfl⟩ | ⟨off, n, x, -, -, -, rfl⟩⟩ | ⟨-, hb, h⟩ | ⟨-, -, rfl⟩ | rfl
  · exact inv_hostRead hs off n
  · exact inv_accessError hs off
  · exact inv_writeCsr hs hoff h
  · exact inv_of_mem hs hwf rfl
  · exact inv_of_mem hs hwf rfl
  · exact inv_of_mem hs (Memory.wf_writeCells hwf _) rfl
  · obtain ⟨i, -, -, rfl⟩ := engineStep_cases hb h
    exact inv_complete hs _
  · exact hs
  · exact inv_resetRegisters (s := { s with mem := [] }) List.Pairwise.nil

/-- Using up an event keeps the invariant. -/
theorem inv_inbox {s : State} (h : Inv s) (rest : List Event) : Inv { s with inbox := rest } :=
  inv_of_mem h h.1 rfl

/-- Settles O29: every event keeps the invariant. -/
theorem stepKeepsInvariant : Obligations.StepKeepsInvariant := by
  intro s t hs h
  obtain ⟨e, rest, -, h⟩ := step_cases h
  exact inv_serve (inv_inbox hs rest) h

/-! ## Progress -/

theorem writeCsr_answers (off : Nat) (x : Word) (s : State) : ∃ t, writeCsr off x s = .next t := by
  unfold writeCsr
  split
  case h_3 => exact presentWord_answers x s
  all_goals exact ⟨_, rfl⟩

theorem hostWrite_answers (off : Offset) (n : Nat) (data : BitVec 64) (s : State) :
    ∃ t, hostWrite off n data s = .next t := by
  unfold hostWrite writeValue
  split
  · exact ⟨_, rfl⟩
  · split
    · exact writeCsr_answers _ _ _
    all_goals exact ⟨_, rfl⟩

/-- From a state that meets the invariant the command in flight completes. -/
theorem engineStep_answers {s : State} (h : Inv s) (hb : s.busy = true) :
    ∃ t, engineStep s = .next t := by
  obtain ⟨-, -, hp⟩ := h
  obtain ⟨i, hd, ho⟩ := hp hb
  exact ⟨_, engineStep_validated hb hd ho⟩

theorem serve_answers {s : State} (h : Inv s) (e : Event) : ∃ t, serve e s = .next t := by
  cases e with
  | read off w => exact ⟨_, rfl⟩
  | write off w data => exact hostWrite_answers off w.bytes data s
  | engine =>
    by_cases hb : s.busy = true
    · simpa only [serve, hb, if_true] using engineStep_answers h hb
    · exact ⟨s, if_neg hb⟩
  | powerOn => exact ⟨_, rfl⟩

/-- Settles O31: every event is answered, a completion because the command in flight is validated. -/
theorem invariantNeverStops : Obligations.InvariantNeverStops := by
  intro s h
  unfold step
  cases s.inbox with
  | cons e rest => exact serve_answers (inv_inbox h rest) e
  | nil => exact serve_answers h .engine

end Sys2Proof.Machine
end

section
/-! PROOF. No command and no access writes outside the planes, `PIX` and `BIT`
(43_block_indexer.md R182, 10_state.md R23 to R25, 20_memory.md R61). -/

namespace Sys2Proof.Machine

open Sys2Proof.Safety

/-! ## The apertures -/

section Apertures

variable {c : Config.Params}

/-- A byte of a valid sample of a plane. -/
theorem memoryOffset_plane {a p n : Nat} (hp : p < 3) (hn : n < c.maxPix) (h1 : planeOff p n ≤ a)
    (h2 : a < planeOff p n + 8) : memoryOffset c a = true := by
  have hin : inPlane c a p = true := by
    simp only [inPlane, Bool.and_eq_true, decide_eq_true_eq]
    unfold planeOff at *
    omega
  obtain rfl | rfl | rfl : p = 0 ∨ p = 1 ∨ p = 2 := by omega
  all_goals simp [memoryOffset, hin]

/-- A valid byte of the pixel memory. -/
theorem memoryOffset_pix {x : Nat} (hx : x < 4 * c.maxPix) : memoryOffset c (pixOff x) = true := by
  have hin : inPix c (pixOff x) = true := by
    simp only [inPix, Bool.and_eq_true, decide_eq_true_eq]
    unfold pixOff
    omega
  simp [memoryOffset, hin]

/-- The byte of a valid bit of the bit memory. -/
theorem memoryOffset_bit (hl : c.legal) {x : Nat} (hx : x < 3 * c.maxPix) :
    memoryOffset c (bitOff (x / 8)) = true := by
  have hdvd := (maxPix_legal hl).2
  have hin : inBit c (bitOff (x / 8)) = true := by
    simp only [inBit, Bool.and_eq_true, decide_eq_true_eq]
    unfold bitOff
    omega
  simp [memoryOffset, hin]

theorem widthAllowed_values {p : Place} {n : Nat} (h : widthAllowed p n = true) :
    n = 1 ∨ n = 2 ∨ n = 4 ∨ n = 8 := by
  cases p <;> simp [widthAllowed] at h <;> omega

/-- An aligned access that starts in a memory stays in it: every memory ends at a multiple of 8. -/
theorem memoryOffset_access (hl : c.legal) {off n a : Nat} (h : memoryOffset c off = true)
    (hn : n = 1 ∨ n = 2 ∨ n = 4 ∨ n = 8) (hal : off % n = 0) (h1 : off ≤ a) (h2 : a < off + n) :
    memoryOffset c a = true := by
  have hdvd := (maxPix_legal hl).2
  simp only [memoryOffset, inBit, inPix, inPlane, Bool.or_eq_true, Bool.and_eq_true,
    decide_eq_true_eq] at h ⊢
  unfold planeOff bitOff pixOff at *
  rcases hn with rfl | rfl | rfl | rfl <;> omega

end Apertures

/-! ## The destinations of a validated command -/

section Destinations

variable {s : State}

/-- A block transfer that passes the operand checks names a plane and a block of its grid. -/
theorem blockOperand_valid {i : Instr} {size k : Nat} {pl : Fin 4}
    (hi : blockOperand? i = some (size, pl, k)) (ho : operandCause i s = none) :
    pl.val < 3 ∧ k < s.blockCount size := by
  obtain ⟨-, hpl, -, hk⟩ := operandCause_eq_none.mp ho
  have hpl := hpl _ hi
  have hk := hk _ hi
  simp only at hpl hk
  exact ⟨by omega, hk⟩

/-- The cells of a store of a block lie in its plane. -/
theorem blockCells_inBounds {size k p : Nat} {val : Nat → Sample} (hp : p < 3)
    (hk : k < s.blockCount size) {c : Host.Cell}
    (hc : c ∈ (List.range (size * size)).flatMap fun e =>
      leCells (planeOff p (s.blockSample size k e)) 8 (val e).toNat) :
    memoryOffset s.cfg c.1 = true := by
  obtain ⟨e, he, hc⟩ := List.mem_flatMap.mp hc
  obtain ⟨h1, h2⟩ := mem_leCells_bounds hc
  have hlt := blockSample_lt_pixels hk (List.mem_range.mp he)
  have hN := pixels_le_maxPix (blockCount_pos_geometry hk).1
  exact memoryOffset_plane hp (by omega) h1 h2

theorem effCscf_cells_inBounds (hg : s.geomOk = true) {c : Host.Cell}
    (hc : c ∈ (effCscf s).cells) : memoryOffset s.cfg c.1 = true := by
  have hN := pixels_le_maxPix hg
  obtain ⟨n, hn, hc⟩ := List.mem_flatMap.mp hc
  obtain ⟨p, hp, hc⟩ := List.mem_flatMap.mp hc
  obtain ⟨h1, h2⟩ := mem_leCells_bounds hc
  rw [List.mem_range] at hn hp
  exact memoryOffset_plane hp (by omega) h1 h2

theorem mem_effCsci_cells {c : Host.Cell} : c ∈ (effCsci s).cells ↔
    ∃ n < s.pixels, ∃ ch < 3, c = (pixOff (4 * n + ch), (csciByte s ch n).1) := by
  simp only [effCsci, List.mem_flatMap, List.mem_map, List.mem_range, eq_comm]

theorem effCsci_cells_inBounds (hg : s.geomOk = true) {c : Host.Cell}
    (hc : c ∈ (effCsci s).cells) : memoryOffset s.cfg c.1 = true := by
  have hN := pixels_le_maxPix hg
  obtain ⟨n, hn, ch, hch, rfl⟩ := mem_effCsci_cells.mp hc
  exact memoryOffset_pix (by omega)

theorem effLsbe_cells_inBounds (hg : s.geomOk = true) {c : Host.Cell}
    (hc : c ∈ (effLsbe s).cells) : memoryOffset s.cfg c.1 = true := by
  have hN := pixels_le_maxPix hg
  obtain ⟨n, hn, ⟨ch, hch, rfl⟩ | rfl⟩ := mem_effLsbe_cells.mp hc
  · exact memoryOffset_pix (by omega)
  · exact memoryOffset_pix (by omega)

/-- Every byte a validated command writes lies in a plane or in the pixel memory. -/
theorem effectOf_cells_inBounds {i : Instr} (ho : operandCause i s = none) {c : Host.Cell}
    (hc : c ∈ (effectOf i s).cells) : memoryOffset s.cfg c.1 = true := by
  obtain ⟨-, -, hg, -⟩ := operandCause_eq_none.mp ho
  cases i with
  | cscf => exact effCscf_cells_inBounds (hg rfl) hc
  | csci => exact effCsci_cells_inBounds (hg rfl) hc
  | lsbe => exact effLsbe_cells_inBounds (hg rfl) hc
  | bst8 r pl k =>
    obtain ⟨hpl, hk⟩ := blockOperand_valid rfl ho
    exact blockCells_inBounds hpl hk hc
  | bst16 r pl k =>
    obtain ⟨hpl, hk⟩ := blockOperand_valid rfl ho
    exact blockCells_inBounds hpl hk hc
  | _ => exact absurd hc List.not_mem_nil

/-- Every bit a validated command writes lies in the bit memory. -/
theorem effectOf_bits_inBounds {i : Instr} (hl : s.cfg.legal) (ho : operandCause i s = none)
    {x : Nat × Bool} (hx : x ∈ (effectOf i s).bits) : memoryOffset s.cfg (bitOff (x.1 / 8)) = true := by
  obtain ⟨-, -, hg, -⟩ := operandCause_eq_none.mp ho
  cases i with
  | lsbx =>
    have hN := pixels_le_maxPix (hg rfl)
    obtain ⟨n, hn, ch, hch, rfl⟩ := mem_effLsbx_bits.mp hx
    exact memoryOffset_bit hl (by omega)
  | _ => exact absurd hx List.not_mem_nil

/-! ## Memory in bounds -/

/-- Applying an effect whose destinations are in bounds keeps memory in bounds. -/
theorem inBounds_apply {f : Effect} (hs : MemoryInBounds s)
    (hc : ∀ c ∈ f.cells, memoryOffset s.cfg c.1 = true)
    (hb : ∀ x ∈ f.bits, memoryOffset s.cfg (bitOff (x.1 / 8)) = true) :
    ∀ c ∈ (f.apply s).mem, memoryOffset s.cfg c.1 = true := by
  intro c h
  rw [Effect.apply_mem] at h
  rcases State.keys_writeBits h with ⟨x, hx, hcx⟩ | h
  · exact hcx ▸ hb x hx
  · exact (Memory.keys_writeCells _ _ h).elim (hc c) (hs c)

theorem inBounds_complete {i : Instr} (hl : s.cfg.legal) (hs : MemoryInBounds s)
    (ho : operandCause i s = none) : MemoryInBounds (complete (effectOf i s) s) :=
  inBounds_apply hs (fun _ => effectOf_cells_inBounds ho) fun _ => effectOf_bits_inBounds hl ho

/-- A soft reset writes the destinations of the command in flight at most. -/
theorem inBounds_softReset (hl : s.cfg.legal) (hi : Inv s) (hs : MemoryInBounds s) :
    MemoryInBounds (softReset s) := by
  unfold MemoryInBounds
  rw [softReset_cfg]
  rcases softReset_mem s with hm | ⟨hb, i, hd, hm⟩
  · rwa [hm]
  · obtain ⟨-, -, hp⟩ := hi
    obtain ⟨j, hdj, ho⟩ := hp hb
    obtain rfl : i = j := Decoded.instr.inj (hd.symm.trans hdj)
    rw [hm]
    refine inBounds_apply hs (fun c hc => ?_) fun x hx => ?_
    · obtain ⟨c', hc', rfl⟩ := List.mem_map.mp hc
      have hin := effectOf_cells_inBounds ho hc'
      exact hin
    · obtain ⟨x', hx', rfl⟩ := List.mem_map.mp hx
      have hin := effectOf_bits_inBounds hl ho hx'
      exact hin

theorem inBounds_writeCsr {off : Nat} {x : Word} {t : State} (hl : s.cfg.legal) (hi : Inv s)
    (hs : MemoryInBounds s) (h : writeCsr off x s = .next t) : MemoryInBounds t := by
  rcases writeCsr_cases h with ⟨-, rfl⟩ | ⟨-, rfl⟩ | ⟨-, h⟩ | ⟨-, rfl⟩ | ⟨-, rfl⟩ | ⟨-, rfl⟩ | rfl
  · rcases writeCtrl_cases x s with ⟨-, h⟩ | ⟨-, h⟩
    · rw [h]
      exact inBounds_softReset hl hi hs
    · rw [h]
      exact hs
  · rw [writeStatus_eq]
    exact hs
  · rcases presentWord_updates h with rfl | ⟨-, c, rfl⟩ | ⟨-, -, -, rfl⟩ <;> exact hs
  all_goals exact hs

theorem inBounds_serve {e : Event} {t : State} (hl : s.cfg.legal) (hi : Inv s)
    (hs : MemoryInBounds s) (h : serve e s = .next t) : MemoryInBounds t := by
  rcases serve_cases h with ⟨off, n, rfl⟩ | ⟨off, rfl⟩ | ⟨off, x, -, -, h⟩ |
    ⟨-, ⟨i, e, x, rfl⟩ | ⟨j, e, x, rfl⟩ | ⟨off, n, x, hm, hw, hal, rfl⟩⟩ | ⟨-, hb, h⟩ | ⟨-, -, rfl⟩ |
    rfl
  · rw [hostRead_eq]
    exact hs
  · exact hs
  · exact inBounds_writeCsr hl hi hs h
  · exact hs
  · exact hs
  · intro c hc
    rcases Memory.keys_writeCells _ _ hc with hc | hc
    · obtain ⟨h1, h2⟩ := mem_leCells_bounds hc
      exact memoryOffset_access hl hm (widthAllowed_values hw) hal h1 h2
    · exact hs c hc
  · obtain ⟨i, -, ho, rfl⟩ := engineStep_cases hb h
    exact inBounds_complete hl hs ho
  · exact hs
  · exact fun c hc => absurd hc List.not_mem_nil

end Destinations

/-- Settles O30: every event keeps memory in bounds, a completion and a cancelled command because the
command in flight is validated. -/
theorem stepStaysInBounds : Obligations.StepStaysInBounds := by
  intro s t hl hi hs h
  obtain ⟨e, rest, -, h⟩ := step_cases h
  exact inBounds_serve (s := { s with inbox := rest }) hl (inv_inbox hi rest) hs h

/-- Settles O28: the registers are at their reset values, no byte is listed, and the sizes are those of
00_scope.md R7. -/
theorem resetMeetsInvariant : Obligations.ResetMeetsInvariant :=
  ⟨inv_resetRegisters (s := State.reset) List.Pairwise.nil, rfl,
    fun _ hc => absurd hc List.not_mem_nil, by decide⟩

end Sys2Proof.Machine
end

section
/-! PROOF. The frames of completions (45_control.md R222) and the operand checks each kind of command
passes. -/

namespace Sys2Proof.Machine

open Sys2Proof.Claims

/-! ## Operand checks -/

theorem operandCause_of_registers {i : Instr} {s : State} (hw : ∀ f ∈ wFields i, f.val ≤ 1)
    (hb : blockOperand? i = none) (hu : usesGeometry i = false) : operandCause i s = none :=
  operandCause_eq_none.mpr ⟨hw, by simp [hb], by simp [hu], by simp [hb]⟩

theorem operandCause_of_image {i : Instr} {s : State} (hw : wFields i = [])
    (hb : blockOperand? i = none) (hg : geometryLegal s) : operandCause i s = none :=
  operandCause_eq_none.mpr ⟨by simp [hw], by simp [hb], fun _ => geomOk_iff.mpr hg, by simp [hb]⟩

theorem operandCause_of_block {i : Instr} {s : State} {size k : Nat} {pl : Fin 4}
    (hi : blockOperand? i = some (size, pl, k)) (hw : ∀ f ∈ wFields i, f.val ≤ 1)
    (hpl : pl.val ≤ 2) (hg : geometryLegal s) (hk : k < s.blockCount size) :
    operandCause i s = none := by
  have hne : pl ≠ 3 := by rintro rfl; exact absurd hpl (by decide)
  exact operandCause_eq_none.mpr ⟨hw, by simp [hi, hne], fun _ => geomOk_iff.mpr hg, by simp [hi, hk]⟩

/-- The `W` register a valid field names (30_encoding.md R95). -/
theorem wReg_eq {f : Fin 8} {j : Fin 2} (h : f.val = j.val) : wReg f = j := by
  unfold wReg
  split
  · next h1 => subst h1; exact Fin.ext h
  · next h1 =>
    refine Fin.ext ?_
    have : f.val ≠ 1 := fun hc => h1 (Fin.ext hc)
    show 0 = j.val
    omega

/-! ## Frames -/

theorem completed_complete (f : Effect) (s : State) : Completed s (complete f s) :=
  ⟨rfl, rfl, rfl, rfl, rfl, rfl, rfl, rfl, rfl, rfl, rfl, rfl, rfl, rfl, rfl, rfl, rfl, rfl, rfl⟩

section Frames

variable {f : Effect} (s : State)

theorem flagsKept_complete (hn : f.nv = false) (hs : f.sat = false) :
    FlagsKept s (complete f s) := by
  simp [FlagsKept, hn, hs]

theorem writesOnlyV_complete {d : Fin 8} {b : Block8} (h : f = { v := some (d, b) }) :
    WritesOnlyV d s (complete f s) := by
  subst h
  exact ⟨completed_complete _ s, flagsKept_complete s rfl rfl,
    complete_readByte_of_no_store s rfl rfl, complete_readW_none s rfl,
    fun _ hi e => complete_readV_other s rfl hi e⟩

theorem writesOnlyW_complete {d : Fin 2} {b : Block16} (h : f = { w := some (d, b) }) :
    WritesOnlyW d s (complete f s) := by
  subst h
  exact ⟨completed_complete _ s, flagsKept_complete s rfl rfl,
    complete_readByte_of_no_store s rfl rfl, complete_readV_none s rfl,
    fun _ hj e => complete_readW_other s rfl hj e⟩

theorem writesOnlyMemory_complete (hv : f.v = none) (hw : f.w = none) (hn : f.nv = false)
    (hs : f.sat = false) : WritesOnlyMemory s (complete f s) :=
  ⟨completed_complete f s, flagsKept_complete s hn hs, complete_readV_none s hv,
    complete_readW_none s hw⟩

end Frames

/-! ## Elements and stored results -/

theorem blockAt_eq {n e : Nat} (b : Vector Sample n) (h : e < n) : blockAt b e = b[e] := by
  simp [blockAt, h]

theorem blockAt_v (s : State) (i : Fin 8) {n : Nat} (e : Fin 64) (h : n = e.val) :
    blockAt s.v[i.val] n = s.readV i e := by
  subst h
  exact blockAt_eq _ e.isLt

theorem blockAt_w (s : State) (j : Fin 2) {n : Nat} (e : Fin 256) (h : n = e.val) :
    blockAt s.w[j.val] n = s.readW j e := by
  subst h
  exact blockAt_eq _ e.isLt

/-- A stored result reads back as the value, whichever NaN is stored (00_scope.md R9). -/
theorem ofBits_storedBits (s : State) (off : Nat) {x : F64} (h : x.Canonical) :
    F64.ofBits (storedBits s off x) = x := F64.ofBits_toBits _ h

end Sys2Proof.Machine
end

section
/-! PROOF. The completions of the commands on block registers: FDCT and IDCT (41_dct.md R142, R143),
DOWN, UP, VSUB and WADD (42_resample.md R160 to R163). -/

namespace Sys2Proof.Machine

open Sys2Proof.Claims

/-! ## The sums of the transforms -/

/-- A sum over the row-major numbers of `m` rows of 8 is the sum over rows of the sums over columns. -/
theorem foldl_rowMajor {α : Type} (f : α → Nat → Nat → α) (z : α) (m : Nat) :
    (List.range (m * 8)).foldl (fun acc n => f acc (n / 8) (n % 8)) z =
      (List.range m).foldl (fun acc r => (List.range 8).foldl (fun acc c => f acc r c) acc) z := by
  induction m with
  | zero => rfl
  | succ m ih =>
    rw [Nat.succ_mul, List.range_add, List.foldl_append, ih, List.range_succ (n := m), List.foldl_append,
      List.foldl_cons, List.foldl_nil, List.foldl_map]
    refine List.foldl_ext _ _ _ fun acc c hc => ?_
    have hc := List.mem_range.mp hc
    have hdiv : (m * 8 + c) / 8 = m := by omega
    have hmod : (m * 8 + c) % 8 = c := by omega
    rw [hdiv, hmod]

theorem cosOf_eq_cosine (c : Config.Params) (x u : Nat) : cosOf c x u = cosine c x u := by
  rw [cosOf, cosine, blockAt_eq _ (Nat.mod_lt _ (by decide))]

theorem freqWeight_eq_weight (c : Config.Params) (p : Nat) : freqWeight c p = weight c p := rfl

/-- An element of a `V` register by its row-major number. -/
theorem elemValue_eq_cell8 (s : State) (a : Fin 8) {n : Nat} (h : n < 64) :
    elemValue s.v[a.val] (n / 8 * 8 + n % 8) = cell8 s a (n / 8) (n % 8) := by
  rw [elemValue, cell8, blockAt_v s a]
  simp only
  omega

theorem fdctSum_eq (s : State) (a : Fin 8) (p q : Nat) : fdctSum s.cfg s.v[a.val] p q =
    (List.range 8).foldl (fun acc r => (List.range 8).foldl (fun acc c =>
      acc.add (((cell8 s a r c).mul (cosine s.cfg r p)).mul (cosine s.cfg c q))) acc) F64.zero := by
  rw [← foldl_rowMajor (fun acc r c =>
    F64.add acc (((cell8 s a r c).mul (cosine s.cfg r p)).mul (cosine s.cfg c q)))]
  refine List.foldl_ext _ _ _ fun acc n hn => ?_
  rw [fdctTerm, elemValue_eq_cell8 s a (List.mem_range.mp hn), cosOf_eq_cosine, cosOf_eq_cosine]

theorem idctSum_eq (s : State) (a : Fin 8) (r c : Nat) : idctSum s.cfg s.v[a.val] r c =
    (List.range 8).foldl (fun acc p => (List.range 8).foldl (fun acc q =>
      acc.add (((((weight s.cfg p).mul (weight s.cfg q)).mul (cell8 s a p q)).mul
        (cosine s.cfg r p)).mul (cosine s.cfg c q))) acc) F64.zero := by
  rw [← foldl_rowMajor (fun acc p q =>
    F64.add acc (((((weight s.cfg p).mul (weight s.cfg q)).mul (cell8 s a p q)).mul
      (cosine s.cfg r p)).mul (cosine s.cfg c q)))]
  refine List.foldl_ext _ _ _ fun acc n hn => ?_
  rw [idctTerm, elemValue_eq_cell8 s a (List.mem_range.mp hn), cosOf_eq_cosine, cosOf_eq_cosine,
    freqWeight_eq_weight, freqWeight_eq_weight]

theorem fdctValue_eq (s : State) (a : Fin 8) (p q : Nat) :
    fdctValue s.cfg s.v[a.val] p q = fdctResult s a p q := by
  rw [fdctValue, fdctSum_eq]
  rfl

theorem idctValue_eq (s : State) (a : Fin 8) (r c : Nat) :
    idctValue s.cfg s.v[a.val] r c = idctResult s a r c := by
  rw [idctValue, idctSum_eq]
  rfl

theorem canonical_fdctValue (c : Config.Params) (f : Block8) (p q : Nat) :
    (fdctValue c f p q).Canonical := F64.canonical_mul _ _

theorem canonical_idctValue (c : Config.Params) (f : Block8) (p q : Nat) :
    (idctValue c f p q).Canonical := F64.canonical_mul _ _

/-! ## FDCT and IDCT -/

/-- The row and the column of a row-major number of an 8x8 block. -/
theorem rowMajor8_div (r c : Fin 8) : (r.val * 8 + c.val) / 8 = r.val := by omega

theorem rowMajor8_mod (r c : Fin 8) : (r.val * 8 + c.val) % 8 = c.val := by omega

/-- Settles O16: the command passes its checks, writes `Vd` whole, and its single sum over 64 elements is
the nested sum. -/
theorem fdctCompletes : Obligations.FdctCompletes := by
  intro d a s hb
  have hread : ∀ e, (complete (effFdct d a s) s).readV d e =
      fdctSample s s.v[a.val] (vOff d.val e.val) e.val := fun e => by
    rw [complete_readV s rfl e, Vector.getElem_ofFn]
  refine ⟨_, exec_inFlight hb (operandCause_of_registers (by simp [wFields]) rfl rfl),
    writesOnlyV_complete s rfl, fun harith p q => ?_, fun harith e => ?_⟩
  · rw [valueV, effectOf, hread]
    simp only [fdctSample, harith, rowMajor8_div, rowMajor8_mod]
    rw [ofBits_storedBits s _ (canonical_fdctValue _ _ _ _), fdctValue_eq]
  · rw [effectOf, hread]
    simp only [fdctSample, harith]

/-- Settles O17: as FDCT, with the inverse sum. -/
theorem idctCompletes : Obligations.IdctCompletes := by
  intro d a s hb
  have hread : ∀ e, (complete (effIdct d a s) s).readV d e =
      idctSample s s.v[a.val] (vOff d.val e.val) e.val := fun e => by
    rw [complete_readV s rfl e, Vector.getElem_ofFn]
  refine ⟨_, exec_inFlight hb (operandCause_of_registers (by simp [wFields]) rfl rfl),
    writesOnlyV_complete s rfl, fun harith r c => ?_, fun harith e => ?_⟩
  · rw [valueV, effectOf, hread]
    simp only [idctSample, harith, rowMajor8_div, rowMajor8_mod]
    rw [ofBits_storedBits s _ (canonical_idctValue _ _ _ _), idctValue_eq]
  · rw [effectOf, hread]
    simp only [idctSample, harith]

/-! ## DOWN and UP -/

/-- The elements of a 2x2 region of the 16x16 block (42_resample.md R160). -/
theorem quadElem_rowMajor (r c : Fin 8) (i j : Nat) :
    quadElem (r.val * 8 + c.val) i j = (2 * r.val + i) * 16 + (2 * c.val + j) := by
  rw [quadElem, rowMajor8_div, rowMajor8_mod]

/-- Settles O18: element `e` is made from the four elements of its region. -/
theorem downCompletes : Obligations.DownCompletes := by
  intro d a j s hb ha
  obtain rfl := wReg_eq ha
  refine ⟨_, exec_inFlight hb (operandCause_of_registers (by simp [wFields]; omega) rfl rfl),
    writesOnlyV_complete s rfl, fun r c => ?_⟩
  intro e e00 e01 e10 e11
  have hread : (complete (effectOf (.down d a) s) s).readV d e =
      downSample s s.w[(wReg a).val] (vOff d.val e.val) e.val := by
    rw [complete_readV s rfl e, Vector.getElem_ofFn]
  have h00 := blockAt_w s (wReg a) (n := quadElem e.val 0 0) e00
    (by simp only [e, e00, quadElem_rowMajor]; omega)
  have h01 := blockAt_w s (wReg a) (n := quadElem e.val 0 1) e01
    (by simp only [e, e01, quadElem_rowMajor]; omega)
  have h10 := blockAt_w s (wReg a) (n := quadElem e.val 1 0) e10
    (by simp only [e, e10, quadElem_rowMajor]; omega)
  have h11 := blockAt_w s (wReg a) (n := quadElem e.val 1 1) e11
    (by simp only [e, e11, quadElem_rowMajor]; omega)
  constructor
  · intro harith
    rw [valueV, hread]
    simp only [downSample, harith, elemValue, h00, h01, h10, h11]
    exact ofBits_storedBits s _ (F64.canonical_mul _ _)
  · intro harith
    rw [hread]
    simp only [downSample, harith, h00, h01, h10, h11]

/-- Settles O19: element `e` of the 16x16 block is a copy of the element its region repeats. -/
theorem upCompletes : Obligations.UpCompletes := by
  intro d a j s hb hd
  obtain rfl := wReg_eq hd
  refine ⟨_, exec_inFlight hb (operandCause_of_registers (by simp [wFields]; omega) rfl rfl),
    writesOnlyW_complete s rfl, fun r c => ?_⟩
  rw [complete_readW s rfl, Vector.getElem_ofFn]
  refine blockAt_v s a _ ?_
  simp only [upElem]
  omega

/-! ## VSUB and WADD -/

/-- Settles O20: element `e` is made from the elements `e` of the two operands. -/
theorem vsubCompletes : Obligations.VsubCompletes := by
  intro d a b s hb
  refine ⟨_, exec_inFlight hb (operandCause_of_registers (by simp [wFields]) rfl rfl),
    writesOnlyV_complete s rfl, fun e => ?_⟩
  have hread : (complete (effectOf (.vsub d a b) s) s).readV d e =
      vsubSample s s.v[a.val] s.v[b.val] (vOff d.val e.val) e.val := by
    rw [complete_readV s rfl e, Vector.getElem_ofFn]
  constructor
  · intro harith
    rw [valueV, hread]
    simp only [vsubSample, harith, elemValue, blockAt_v s _ e rfl]
    exact ofBits_storedBits s _ (F64.canonical_sub _ _)
  · intro harith
    rw [hread]
    simp only [vsubSample, harith, blockAt_v s _ e rfl]

/-- Settles O21: as VSUB, on the `W` registers the fields name. -/
theorem waddCompletes : Obligations.WaddCompletes := by
  intro d a b jd ja jb s hb hd ha hb'
  obtain rfl := wReg_eq hd
  obtain rfl := wReg_eq ha
  obtain rfl := wReg_eq hb'
  refine ⟨_, exec_inFlight hb (operandCause_of_registers (by simp [wFields]; omega) rfl rfl),
    writesOnlyW_complete s rfl, fun e => ?_⟩
  have hread : (complete (effectOf (.wadd d a b) s) s).readW (wReg d) e =
      waddSample s s.w[(wReg a).val] s.w[(wReg b).val] (wOff (wReg d).val e.val) e.val := by
    rw [complete_readW s rfl e, Vector.getElem_ofFn]
  constructor
  · intro harith
    rw [valueW, hread]
    simp only [waddSample, harith, elemValue, blockAt_w s _ e rfl]
    exact ofBits_storedBits s _ (F64.canonical_add _ _)
  · intro harith
    rw [hread]
    simp only [waddSample, harith, blockAt_w s _ e rfl]

end Sys2Proof.Machine
end

section
/-! PROOF. The block transfers (43_block_indexer.md R182 to R188, 70_reset_and_hazards.md R277): what
they leave, and their laws, for either grid by one lemma about storing a block. -/

namespace Sys2Proof.Machine

open Sys2Proof.Claims

/-! ## Storing a block -/

theorem blockSample_rowMajor (s : State) {size k r c : Nat} (hc : c < size) :
    s.blockSample size k (r * size + c) = s.blkIndex size k r c := by
  rw [State.blockSample, Nat.mul_comm r, Nat.mul_add_div (by omega), Nat.div_eq_of_lt hc,
    Nat.mul_add_mod, Nat.mod_eq_of_lt hc, Nat.add_zero]

/-- An effect that stores a block of plane `p` and nothing else to memory. -/
def StoresBlock (f : Effect) (s : State) (size k p : Nat) (val : Nat → Sample) : Prop :=
  f.bits = [] ∧ f.cells = (List.range (size * size)).flatMap fun e =>
    leCells (planeOff p (s.blockSample size k e)) 8 (val e).toNat

theorem storesBlock_bst8 (r : Fin 8) (pl : Fin 4) (k : Nat) (s : State) :
    StoresBlock (effectOf (.bst8 r pl k) s) s 8 k pl.val (blockAt s.v[r.val]) := ⟨rfl, rfl⟩

theorem storesBlock_bst16 (r : Fin 8) (pl : Fin 4) (k : Nat) (s : State) :
    StoresBlock (effectOf (.bst16 r pl k) s) s 16 k pl.val (blockAt s.w[(wReg r).val]) := ⟨rfl, rfl⟩

section StoresBlock

variable {f : Effect} {s : State} {size k p : Nat} {val : Nat → Sample}
  (hf : StoresBlock f s size k p val) (hk : k < s.blockCount size)
include hf

theorem storesBlock_readByte_other {a : Nat}
    (h : ∀ r < size, ∀ c < size, ¬ inSample a (planeOff p (s.blkIndex size k r c))) :
    (complete f s).readByte a = s.readByte a := by
  obtain ⟨hb, hc⟩ := hf
  refine complete_readByte_not_stored hc hb fun e he => ?_
  have he := List.mem_range.mp he
  exact h _ (Nat.div_lt_of_lt_mul he)
    _ (Nat.mod_lt _ (Nat.pos_of_mul_pos_right (Nat.zero_lt_of_lt he)))

include hk

theorem storesBlock_readPlane {e : Nat} (he : e < size * size) :
    (complete f s).readPlane p (s.blockSample size k e) = val e := by
  obtain ⟨hb, hc⟩ := hf
  exact complete_readPlane_stored hc hb (fun e he e' he' => blockSample_inj hk
    (List.mem_range.mp he) (List.mem_range.mp he')) (List.mem_range.mpr he)

/-- Storing the samples a block already holds changes no byte. -/
theorem storesBlock_same (hv : ∀ e < size * size, val e = s.readPlane p (s.blockSample size k e))
    (a : Nat) : (complete f s).readByte a = s.readByte a := by
  by_cases h : ∃ r < size, ∃ c < size, inSample a (planeOff p (s.blkIndex size k r c))
  · obtain ⟨r, hr, c, hc, h1, h2⟩ := h
    have he : r * size + c < size * size :=
      calc r * size + c < (r + 1) * size := by rw [Nat.succ_mul]; omega
        _ ≤ size * size := Nat.mul_le_mul_right size hr
    have hread := storesBlock_readPlane hf hk he
    rw [hv _ he, blockSample_rowMajor s hc] at hread
    obtain ⟨i, hi, rfl⟩ : ∃ i < 8, a = planeOff p (s.blkIndex size k r c) + i :=
      ⟨a - planeOff p (s.blkIndex size k r c), by omega, by omega⟩
    rw [← State.readPlane_byte hi, hread, State.readPlane_byte hi]
  · push Not at h
    exact storesBlock_readByte_other hf h

/-- Storing another block keeps block 0 of the grid, in every plane. -/
theorem storesBlock_reference (hl : s.cfg.legal) (hk1 : 1 ≤ k) (q : Nat) {r c : Nat}
    (hr : r < size) (hc : c < size) :
    (complete f s).readPlane q (s.blkIndex size 0 r c) = s.readPlane q (s.blkIndex size 0 r c) := by
  have hk0 : 0 < s.blockCount size := Nat.zero_lt_of_lt hk
  have hN : s.pixels ≤ 2 ^ 24 :=
    (pixels_le_maxPix (blockCount_pos_geometry hk).1).trans (maxPix_legal hl).1
  have h0 := blkIndex_lt_pixels hk0 hr hc
  unfold State.readPlane
  rw [State.readLE_congr]
  intro i hi
  refine storesBlock_readByte_other hf fun r' hr' c' hc' hin => ?_
  have hlt := blkIndex_lt_pixels hk hr' hc'
  have hidx : s.blkIndex size k r' c' = s.blkIndex size 0 r c := by
    unfold planeOff at hin
    omega
  have := (blkIndex_inj hk hk0 hr' hc' hr hc hidx).1
  omega

end StoresBlock

/-! ## The completions -/

theorem bld8_readV (r : Fin 8) (pl : Fin 4) (k : Nat) (s : State) (e : Fin 64) :
    (complete (effectOf (.bld8 r pl k) s) s).readV r e = s.readPlane pl.val (s.blockSample 8 k e.val) := by
  rw [complete_readV s rfl e, Vector.getElem_ofFn]

theorem bld16_readW (r : Fin 8) (pl : Fin 4) (k : Nat) (s : State) (e : Fin 256) :
    (complete (effectOf (.bld16 r pl k) s) s).readW (wReg r) e =
      s.readPlane pl.val (s.blockSample 16 k e.val) := by
  rw [complete_readW s rfl e, Vector.getElem_ofFn]

section Grid

variable {r : Fin 8} {pl : Fin 4} {k : Nat} {s : State} (hpl : pl.val ≤ 2) (hg : geometryLegal s)
include hpl hg

theorem operandCause_block8 (hk : k < (s.imgW.toNat / 8) * (s.imgH.toNat / 8)) :
    k < s.blockCount 8 ∧ operandCause (.bld8 r pl k) s = none ∧
      operandCause (.bst8 r pl k) s = none := by
  rw [← blockCount_of_legal hg] at hk
  exact ⟨hk, operandCause_of_block rfl (by simp [wFields]) hpl hg hk,
    operandCause_of_block rfl (by simp [wFields]) hpl hg hk⟩

theorem operandCause_block16 (hr : r.val ≤ 1)
    (hk : k < (s.imgW.toNat / 16) * (s.imgH.toNat / 16)) :
    k < s.blockCount 16 ∧ operandCause (.bld16 r pl k) s = none ∧
      operandCause (.bst16 r pl k) s = none := by
  rw [← blockCount_of_legal hg] at hk
  exact ⟨hk, operandCause_of_block rfl (by simpa [wFields] using hr) hpl hg hk,
    operandCause_of_block rfl (by simpa [wFields] using hr) hpl hg hk⟩

end Grid

/-- Settles O22: the register takes the samples the index function names. -/
theorem bld8Completes : Obligations.Bld8Completes := by
  intro r pl k s hb hpl hg hk
  obtain ⟨-, hok, -⟩ := operandCause_block8 (r := r) hpl hg hk
  refine ⟨_, exec_inFlight hb hok, writesOnlyV_complete s rfl, fun rr cc => ?_⟩
  rw [bld8_readV, blockSample_rowMajor s cc.isLt]
  rfl

/-- Settles O23: as BLD8, on the 16-grid. -/
theorem bld16Completes : Obligations.Bld16Completes := by
  intro r j pl k s hb hr hpl hg hk
  obtain rfl := wReg_eq hr
  obtain ⟨-, hok, -⟩ := operandCause_block16 (r := r) hpl hg (by omega) hk
  refine ⟨_, exec_inFlight hb hok, writesOnlyW_complete s rfl, fun rr cc => ?_⟩
  rw [bld16_readW, blockSample_rowMajor s cc.isLt]
  rfl

/-- Settles O24: the samples of the block are distinct, so each takes its element. -/
theorem bst8Completes : Obligations.Bst8Completes := by
  intro r pl k s hb hpl hg hk
  obtain ⟨hk, -, hok⟩ := operandCause_block8 (r := r) hpl hg hk
  have hf := storesBlock_bst8 r pl k s
  refine ⟨_, exec_inFlight hb hok, writesOnlyMemory_complete s rfl rfl rfl rfl, fun rr cc => ?_,
    fun a ha => storesBlock_readByte_other hf fun rr hrr cc hcc => ha ⟨rr, hrr⟩ ⟨cc, hcc⟩⟩
  rw [← blockAt_v s r ⟨rr.val * 8 + cc.val, by omega⟩ rfl,
    ← storesBlock_readPlane hf hk (show rr.val * 8 + cc.val < 8 * 8 by omega),
    blockSample_rowMajor s cc.isLt]
  rfl

/-- Settles O25: as BST8, on the 16-grid. -/
theorem bst16Completes : Obligations.Bst16Completes := by
  intro r j pl k s hb hr hpl hg hk
  obtain rfl := wReg_eq hr
  obtain ⟨hk, -, hok⟩ := operandCause_block16 (r := r) hpl hg (by omega) hk
  have hf := storesBlock_bst16 r pl k s
  refine ⟨_, exec_inFlight hb hok, writesOnlyMemory_complete s rfl rfl rfl rfl, fun rr cc => ?_,
    fun a ha => storesBlock_readByte_other hf fun rr hrr cc hcc => ha ⟨rr, hrr⟩ ⟨cc, hcc⟩⟩
  rw [← blockAt_w s (wReg r) ⟨rr.val * 16 + cc.val, by omega⟩ rfl,
    ← storesBlock_readPlane hf hk (show rr.val * 16 + cc.val < 16 * 16 by omega),
    blockSample_rowMajor s cc.isLt]
  rfl

/-! ## The laws of the transfers -/

theorem readPlane_of_memoryKept {s t : State} (h : MemoryKept s t) (p n : Nat) :
    t.readPlane p n = s.readPlane p n := by
  unfold State.readPlane
  rw [State.readLE_congr fun i _ => h _]

theorem blockSample_congr {s t : State} (hw : t.imgW = s.imgW) (size k e : Nat) :
    t.blockSample size k e = s.blockSample size k e := by
  simp only [State.blockSample, State.blkIndex, State.cols, hw]

theorem blockCount_congr {s t : State} (hc : t.cfg = s.cfg) (hw : t.imgW = s.imgW)
    (hh : t.imgH = s.imgH) (size : Nat) : t.blockCount size = s.blockCount size := by
  have hg : t.geomOk = s.geomOk := by simp only [State.geomOk, hc, hw, hh]
  simp only [State.blockCount, State.cols, State.rows, hg, hw, hh]

section Laws

variable {f : Effect} {s t : State} {size k p : Nat} {val : Nat → Sample}

/-- Storing at `t` what `s` holds in the block changes no byte, when memory and geometry are the same. -/
theorem store_of_loaded (hf : StoresBlock f t size k p val) (hk : k < s.blockCount size)
    (hc : t.cfg = s.cfg) (hw : t.imgW = s.imgW) (hh : t.imgH = s.imgH) (hm : MemoryKept s t)
    (hv : ∀ e < size * size, val e = s.readPlane p (s.blockSample size k e)) :
    MemoryKept s (complete f t) := by
  intro a
  rw [← hm a]
  refine storesBlock_same hf (by rwa [blockCount_congr hc hw hh]) (fun e he => ?_) a
  rw [hv e he, readPlane_of_memoryKept hm, blockSample_congr hw]

end Laws

/-- Raising `BUSY` changes no byte of memory. -/
theorem memoryKept_busy (s : State) : MemoryKept s { s with busy := true } :=
  State.readByte_congr rfl rfl

/-- The command after a store finds the stored samples in the block. -/
theorem load_of_stored {f : Effect} {s : State} {size k p : Nat} {val : Nat → Sample}
    (hf : StoresBlock f s size k p val) (hk : k < s.blockCount size) {e : Nat}
    (he : e < size * size) :
    State.readPlane { complete f s with busy := true } p
      (State.blockSample { complete f s with busy := true } size k e) = val e := by
  rw [readPlane_of_memoryKept (memoryKept_busy _), ← storesBlock_readPlane hf hk he]
  rfl

/-- Settles O38: the load copies the samples into the register, and the store puts them back. -/
theorem loadThenStoreKeepsMemory : Obligations.LoadThenStoreKeepsMemory := by
  intro r pl k s t u hb h
  rcases h with ⟨ht, hu⟩ | ⟨ht, hu⟩
  · obtain ⟨ho, rfl⟩ := exec_busy hb ht
    obtain ⟨-, rfl⟩ := exec_busy rfl hu
    exact store_of_loaded (storesBlock_bst8 r pl k _) (blockOperand_valid rfl ho).2 rfl rfl rfl
      (fun a => (memoryKept_busy _ a).trans (complete_readByte_of_no_store s rfl rfl a))
      fun e he => (blockAt_v _ r ⟨e, he⟩ rfl).trans (bld8_readV r pl k s ⟨e, he⟩)
  · obtain ⟨ho, rfl⟩ := exec_busy hb ht
    obtain ⟨-, rfl⟩ := exec_busy rfl hu
    exact store_of_loaded (storesBlock_bst16 r pl k _) (blockOperand_valid rfl ho).2 rfl rfl rfl
      (fun a => (memoryKept_busy _ a).trans (complete_readByte_of_no_store s rfl rfl a))
      fun e he => (blockAt_w _ (wReg r) ⟨e, he⟩ rfl).trans (bld16_readW r pl k s ⟨e, he⟩)

/-- Settles O39: the load reads the samples the store wrote. -/
theorem storeThenLoadReturnsRegister : Obligations.StoreThenLoadReturnsRegister := by
  refine fun r r' pl k s t u hb => ⟨fun ht hu e => ?_, fun j j' hr hr' ht hu e => ?_⟩
  · obtain ⟨ho, rfl⟩ := exec_busy hb ht
    obtain ⟨-, rfl⟩ := exec_busy rfl hu
    have hk := (blockOperand_valid rfl ho).2
    rw [bld8_readV, load_of_stored (storesBlock_bst8 r pl k s) hk e.isLt, blockAt_v s r e rfl]
  · obtain rfl := wReg_eq hr
    obtain rfl := wReg_eq hr'
    obtain ⟨ho, rfl⟩ := exec_busy hb ht
    obtain ⟨-, rfl⟩ := exec_busy rfl hu
    have hk := (blockOperand_valid rfl ho).2
    rw [bld16_readW, load_of_stored (storesBlock_bst16 r pl k s) hk e.isLt,
      blockAt_w s (wReg r) e rfl]

/-- The samples of block 0 (43_block_indexer.md R182). -/
theorem blkIndex_zero (s : State) (size r c : Nat) :
    s.blkIndex size 0 r c = r * s.imgW.toNat + c := by
  simp [State.blkIndex]

/-- Settles O40: no sample of another block lies in block 0, and no sample of another plane. -/
theorem storesKeepReferenceBlock : Obligations.StoresKeepReferenceBlock := by
  refine fun r pl k s t hb hl hk1 => ⟨fun ht q _ rr hrr cc hcc => ?_,
    fun ht q _ rr hrr cc hcc => ?_⟩
  · obtain ⟨ho, rfl⟩ := exec_busy hb ht
    obtain ⟨-, hk⟩ := blockOperand_valid rfl ho
    have hkept := storesBlock_reference (storesBlock_bst8 r pl k s) hk hl hk1 q hrr hcc
    rwa [blkIndex_zero] at hkept
  · obtain ⟨ho, rfl⟩ := exec_busy hb ht
    obtain ⟨-, hk⟩ := blockOperand_valid rfl ho
    have hkept := storesBlock_reference (storesBlock_bst16 r pl k s) hk hl hk1 q hrr hcc
    rwa [blkIndex_zero] at hkept

end Sys2Proof.Machine
end

section
/-! PROOF. The completions of the commands on images: CSCF and CSCI (40_colorspace.md R121 to R123), LSBE
and LSBX (44_lsb.md R202, R203), and which memories the commands use (44_lsb.md R205). -/

namespace Sys2Proof.Machine

open Sys2Proof.Claims

/-! ## CSCF -/

theorem mem_effCscf_cells {s : State} {c : Host.Cell} : c ∈ (effCscf s).cells ↔
    ∃ n < s.pixels, ∃ p < 3, c ∈ leCells (planeOff p n) 8 (cscfSample s p n).toNat := by
  simp only [effCscf, List.mem_flatMap, List.mem_range]

/-- Two samples of the planes that share a byte are one. -/
theorem planeOff_inj {p q n m a : Nat} (hn : n < 2 ^ 24) (hm : m < 2 ^ 24)
    (h1 : inSample a (planeOff p n)) (h2 : inSample a (planeOff q m)) : p = q ∧ n = m := by
  unfold planeOff at *
  omega

theorem cscf_readByte (s : State) (a : Nat) :
    (complete (effCscf s) s).readByte a = (s.writeCells (effCscf s).cells).readByte a :=
  complete_readByte (effCscf s) s a

theorem cscf_readPlane {s : State} (hl : s.cfg.legal) (hg : geometryLegal s) {p n : Nat} (hp : p < 3)
    (hn : n < s.pixels) : (complete (effCscf s) s).readPlane p n = cscfSample s p n := by
  have hN : s.pixels ≤ 2 ^ 24 := (pixels_le_maxPix (geomOk_iff.mpr hg)).trans (maxPix_legal hl).1
  refine State.readPlane_of_bytes fun i hi => ?_
  rw [cscf_readByte]
  refine s.readByte_writeCells_mem
    (mem_effCscf_cells.mpr ⟨n, hn, p, hp, mem_leCells hi⟩) fun c hc hca => ?_
  obtain ⟨m, hm, q, hq, hc⟩ := mem_effCscf_cells.mp hc
  obtain ⟨rfl, rfl⟩ := planeOff_inj (by omega) (by omega) (mem_leCells_bounds hc)
    (show inSample c.1 (planeOff p n) by omega)
  rw [leCells_value hc, hca, Nat.add_sub_cancel_left]

theorem cscf_readByte_other {s : State} {a : Nat}
    (h : ∀ p < 3, ∀ n < s.pixels, ¬ inSample a (planeOff p n)) :
    (complete (effCscf s) s).readByte a = s.readByte a := by
  rw [cscf_readByte]
  refine s.readByte_writeCells_other fun c hc hca => ?_
  obtain ⟨n, hn, p, hp, hc⟩ := mem_effCscf_cells.mp hc
  exact h p hp n hn (hca ▸ mem_leCells_bounds hc)

/-- Settles O14: the samples written are distinct, and each is a stored sum. -/
theorem cscfCompletes : Obligations.CscfCompletes := by
  intro s hb hl hg
  refine ⟨_, exec_inFlight hb (operandCause_of_image rfl rfl hg),
    writesOnlyMemory_complete s rfl rfl rfl rfl, fun harith n hn => ?_, fun harith p hp n hn => ?_,
    fun a => cscf_readByte_other⟩
  · have hread : ∀ p < 3, (complete (effectOf .cscf s) s).readPlane p n = cscfSample s p n :=
      fun p hp => cscf_readPlane hl hg hp hn
    simp only [valuePlane, hread 0 (by decide), hread 1 (by decide), hread 2 (by decide), cscfSample,
      harith]
    exact ⟨ofBits_storedBits s _ (F64.canonical_add _ _), ofBits_storedBits s _ (F64.canonical_add _ _),
      ofBits_storedBits s _ (F64.canonical_sub _ _)⟩
  · rw [effectOf, cscf_readPlane hl hg hp hn]
    simp only [cscfSample, harith]

/-! ## CSCI -/

theorem csci_readPix {s : State} {n ch : Nat} (hn : n < s.pixels) (hch : ch < 3) :
    (complete (effCsci s) s).readPix (4 * n + ch) = (csciByte s ch n).1 := by
  rw [State.readPix, complete_readByte]
  refine s.readByte_writeCells_mem (mem_effCsci_cells.mpr ⟨n, hn, ch, hch, rfl⟩) fun c hc hca => ?_
  obtain ⟨m, -, dh, hdh, rfl⟩ := mem_effCsci_cells.mp hc
  rw [pixOff_inj] at hca
  obtain ⟨rfl, rfl⟩ : m = n ∧ dh = ch := by omega
  rfl

theorem csci_readByte_other {s : State} {a : Nat}
    (h : ∀ n < s.pixels, ∀ ch < 3, a ≠ pixOff (4 * n + ch)) :
    (complete (effCsci s) s).readByte a = s.readByte a := by
  rw [complete_readByte]
  refine s.readByte_writeCells_other fun c hc => ?_
  obtain ⟨n, hn, ch, hch, rfl⟩ := mem_effCsci_cells.mp hc
  exact (h n hn ch hch).symm

theorem csciEvent_iff {s : State} {event : Byte × Bool × Bool → Bool} : csciEvent s event = true ↔
    ∃ n < s.pixels, ∃ ch < 3, event (csciByte s ch n) = true := by
  simp only [csciEvent, List.any_eq_true, List.mem_range]

/-- Settles O15: the channel values are those of the pseudocode under either `ARITH`, the colour bytes
are their saturations, and the events of these set the flags. -/
theorem csciCompletes : Obligations.CsciCompletes := by
  intro s hb hg
  refine ⟨_, fun n ch => csciValue s ch n, exec_inFlight hb (operandCause_of_image rfl rfl hg),
    fun n _ => ⟨fun harith => ?_, fun harith ch _ => ?_⟩, fun n hn ch hch => csci_readPix hn hch, ?_, ?_,
    fun a => csci_readByte_other, completed_complete _ s, complete_readV_none s rfl,
    complete_readW_none s rfl⟩
  · simp only [csciValue, harith]
    exact ⟨rfl, rfl, rfl⟩
  · simp only [csciValue, harith]
  · rw [complete_nv, Bool.or_eq_true]
    exact or_congr_right (csciEvent_iff (event := fun x => x.2.1))
  · rw [complete_sat, Bool.or_eq_true]
    exact or_congr_right (csciEvent_iff (event := fun x => x.2.2))

/-! ## LSBE and LSBX -/

/-- Writing a bit keeps every bit of the byte but bit 0 (44_lsb.md R200). -/
theorem lsbWrite_getLsbD (v : Byte) (bit : Bool) {b : Nat} (hb : 1 ≤ b) :
    (lsbWrite v bit).getLsbD b = v.getLsbD b := by
  obtain ⟨b, rfl⟩ : ∃ b', b = b' + 1 := ⟨b - 1, by omega⟩
  have hbit := bit.toNat_lt
  have hdiv : (v.toNat / 2 * 2 + bit.toNat) / 2 = v.toNat / 2 := by omega
  simp only [BitVec.getLsbD, Nat.testBit_succ, lsbWrite_toNat, hdiv]

/-- Settles O26: every colour byte takes its bit in bit 0, and the command writes pixels below `N`
only. -/
theorem lsbeCompletes : Obligations.LsbeCompletes := by
  intro s hb hg
  have hexec : exec .lsbe s = _ := exec_inFlight hb (operandCause_of_image rfl rfl hg)
  refine ⟨_, hexec, writesOnlyMemory_complete s rfl rfl rfl rfl, fun n hn ch hch => ?_,
    fun n hn => lsbe_readPix_alpha hb hexec hn, fun a => lsbe_readByte_other hb hexec⟩
  rw [lsbe_readPix_color hb hexec hn hch]
  exact ⟨by rw [← lsbRead_eq_getLsbD_zero, lsbRead_lsbWrite], fun b => lsbWrite_getLsbD _ _⟩

/-- LSBX keeps every bit from `3N` up. -/
theorem lsbx_readBit_other {s : State} {x : Nat} (hx : 3 * s.pixels ≤ x) :
    (complete (effLsbx s) s).readBit x = s.readBit x := by
  rw [State.readBit, complete_readByte]
  refine s.readBit_writeBits_other fun y hy => ?_
  obtain ⟨n, hn, ch, hch, rfl⟩ := mem_effLsbx_bits.mp hy
  show 3 * n + ch ≠ x
  omega

/-- LSBX keeps every byte that holds none of the first `3N` bits. -/
theorem lsbx_readByte_other {s : State} {a : Nat} (ha : ∀ x < 3 * s.pixels, a ≠ bitOff (x / 8)) :
    (complete (effLsbx s) s).readByte a = s.readByte a := by
  rw [complete_readByte]
  refine s.readByte_writeBits_other fun y hy => ?_
  obtain ⟨n, hn, ch, hch, rfl⟩ := mem_effLsbx_bits.mp hy
  exact ha _ (by omega)

/-- Settles O27: the first `3N` bits take the parities, and the command writes no other bit. -/
theorem lsbxCompletes : Obligations.LsbxCompletes := by
  intro s hb hg
  have hexec : exec .lsbx s = _ := exec_inFlight hb (operandCause_of_image rfl rfl hg)
  exact ⟨_, hexec, writesOnlyMemory_complete s rfl rfl rfl rfl,
    fun n hn ch hch => lsbx_readBit hb hexec hn hch, fun x => lsbx_readBit_other,
    fun a => lsbx_readByte_other⟩

/-! ## Separate memories -/

/-- The planes lie above the pixel memory and the bit memory (20_memory.md R61). -/
theorem planeBase_le {p n : Nat} : 0x10000000 ≤ planeOff p n := by
  unfold planeOff
  omega

/-- A command that is neither an LSB nor a colour-space command writes no bit, and bytes of planes
only. -/
theorem effectOf_planes_only {i : Instr} (h1 : ¬ isLsb i) (h2 : ¬ isColor i) (s : State) :
    (effectOf i s).bits = [] ∧ ∀ c ∈ (effectOf i s).cells, 0x10000000 ≤ c.1 := by
  cases i with
  | lsbe => exact absurd (.inl rfl) h1
  | lsbx => exact absurd (.inr rfl) h1
  | cscf => exact absurd (.inl rfl) h2
  | csci => exact absurd (.inr rfl) h2
  | bst8 r pl k | bst16 r pl k =>
    refine ⟨rfl, fun c hc => ?_⟩
    obtain ⟨e, -, hc⟩ := List.mem_flatMap.mp hc
    exact planeBase_le.trans (mem_leCells_bounds hc).1
  | _ => exact ⟨rfl, fun c hc => absurd hc List.not_mem_nil⟩

/-- A command that is neither an LSB nor a colour-space command keeps every byte below the planes. -/
theorem readByte_below_planes {i : Instr} (h1 : ¬ isLsb i) (h2 : ¬ isColor i) (s : State) {a : Nat}
    (ha : a < 0x10000000) : (complete (effectOf i s) s).readByte a = s.readByte a := by
  obtain ⟨hbits, hcells⟩ := effectOf_planes_only h1 h2 s
  rw [complete_readByte, hbits]
  refine s.readByte_writeCells_other fun c hc hca => ?_
  have := hcells c hc
  omega

/-- An LSB command keeps every byte of the planes and writes no register. -/
theorem lsb_keeps_planes {i : Instr} (hi : isLsb i) {s : State} (hN : s.pixels ≤ 2 ^ 24) :
    (effectOf i s).v = none ∧ (effectOf i s).w = none ∧
      ∀ a, 0x10000000 ≤ a → (complete (effectOf i s) s).readByte a = s.readByte a := by
  rcases hi with rfl | rfl
  · refine ⟨rfl, rfl, fun a ha => ?_⟩
    rw [complete_readByte]
    refine s.readByte_writeCells_other fun c hc hca => ?_
    obtain ⟨n, hn, ⟨ch, hch, rfl⟩ | rfl⟩ := mem_effLsbe_cells.mp hc <;>
    · simp only [pixOff] at hca
      omega
  · refine ⟨rfl, rfl, fun a ha => lsbx_readByte_other fun x hx => ?_⟩
    unfold bitOff
    omega

theorem usesGeometry_of_isLsb {i : Instr} (hi : isLsb i) : usesGeometry i = true := by
  rcases hi with rfl | rfl <;> rfl

/-- Settles O35: the destinations of the commands, against the window map. -/
theorem lsbAndDctUseSeparateMemories : Obligations.LsbAndDctUseSeparateMemories := by
  intro i s t hb hl h
  obtain ⟨-, rfl⟩ := exec_busy hb h
  have hM := (maxPix_legal hl).1
  refine ⟨fun hi => ?_, fun h1 h2 => ⟨fun a ha => ?_, fun x hx => ?_⟩⟩
  · obtain ⟨hv, hw, hkept⟩ :=
      lsb_keeps_planes hi (pixels_le_of_exec hb hl (usesGeometry_of_isLsb hi) h)
    refine ⟨fun p _ n _ => ?_, complete_readV_none s hv, complete_readW_none s hw⟩
    unfold State.readPlane
    rw [State.readLE_congr fun j _ => hkept _ (planeBase_le.trans (Nat.le_add_right _ j))]
  · exact readByte_below_planes h1 h2 s (by unfold pixOff; omega)
  · unfold State.readBit
    rw [readByte_below_planes h1 h2 s (by unfold bitOff; omega)]

end Sys2Proof.Machine
end

section
/-! PROOF. Rounding to nearest, ties to even (00_scope.md R9): among the multiples of a power of two, then
among the numbers of at most 53 significant bits. -/

namespace Sys2Proof.Machine

open Sys2Proof.Claims

/-! ## Division by a power of two -/

/-- The quotient is within half a divisor of the exact one, and even at exactly a half. -/
theorem roundDiv_bounds (a t : Nat) :
    2 * a ≤ 2 * (roundDiv a t * 2 ^ t) + 2 ^ t ∧ 2 * (roundDiv a t * 2 ^ t) ≤ 2 * a + 2 ^ t ∧
    ((2 * a = 2 * (roundDiv a t * 2 ^ t) + 2 ^ t ∨ 2 * (roundDiv a t * 2 ^ t) = 2 * a + 2 ^ t) →
      roundDiv a t % 2 = 0) := by
  have hdiv := Nat.div_add_mod a (2 ^ t)
  have hlt := Nat.mod_lt a (Nat.two_pow_pos t)
  unfold roundDiv
  generalize a / 2 ^ t = q at *
  generalize a % 2 ^ t = r at *
  have hq := Nat.mul_comm (2 ^ t) q
  have hsucc := Nat.succ_mul q (2 ^ t)
  simp only
  split
  · next hup => rw [Nat.succ_eq_add_one] at hsucc; omega
  · next hdown => omega

/-- Settles O43: the bounds of `roundDiv_bounds` as integers. -/
theorem roundDivIsNearestEven : Obligations.RoundDivIsNearestEven := by
  intro a t
  have hpow : (2 : Int) ^ t = (2 ^ t : Nat) := by push_cast; rfl
  have hbounds := roundDiv_bounds a t
  rw [hpow]
  generalize roundDiv a t * 2 ^ t = x at *
  omega

/-- No multiple of the divisor is nearer, and another one is as near only when the quotient is even. -/
theorem roundDiv_nearest (a t n : Nat) :
    |(a : Int) - (roundDiv a t * 2 ^ t : Nat)| ≤ |(a : Int) - (n * 2 ^ t : Nat)| ∧
    (|(a : Int) - (n * 2 ^ t : Nat)| = |(a : Int) - (roundDiv a t * 2 ^ t : Nat)| →
      n * 2 ^ t ≠ roundDiv a t * 2 ^ t → roundDiv a t % 2 = 0) := by
  have hpos := Nat.two_pow_pos t
  have hapart : n * 2 ^ t + 2 ^ t ≤ roundDiv a t * 2 ^ t ∨ n = roundDiv a t ∨
      roundDiv a t * 2 ^ t + 2 ^ t ≤ n * 2 ^ t := by
    rcases Nat.lt_trichotomy n (roundDiv a t) with h | h | h
    · exact .inl (by simpa [Nat.succ_mul] using Nat.mul_le_mul_right (2 ^ t) (Nat.succ_le_of_lt h))
    · exact .inr (.inl h)
    · exact .inr (.inr
        (by simpa [Nat.succ_mul] using Nat.mul_le_mul_right (2 ^ t) (Nat.succ_le_of_lt h)))
  have hbounds := roundDiv_bounds a t
  rcases hapart with h | rfl | h
  · rw [Int.abs_eq_natAbs, Int.abs_eq_natAbs]; omega
  · exact ⟨le_rfl, fun _ hne => absurd rfl hne⟩
  · rw [Int.abs_eq_natAbs, Int.abs_eq_natAbs]; omega

/-! ## Rounding to 53 significant bits -/

/-- The number of low bits that rounding drops. -/
def roundShift (a j : Nat) : Nat := max (Nat.log2 a + 1 - 53) j

theorem le_roundShift (a j : Nat) : j ≤ roundShift a j := Nat.le_max_right _ _

theorem roundUnits_eq (a j : Nat) :
    roundUnits a j = roundDiv a (roundShift a j) * 2 ^ (roundShift a j - j) := rfl

theorem roundUnits_mul (a j : Nat) :
    roundUnits a j * 2 ^ j = roundDiv a (roundShift a j) * 2 ^ roundShift a j := by
  rw [roundUnits_eq, Nat.mul_assoc, ← Nat.pow_add, Nat.sub_add_cancel (le_roundShift a j)]

/-- The rounded quotient has at most 53 bits, or is the first number past them. -/
theorem roundDiv_roundShift_le (a j : Nat) : roundDiv a (roundShift a j) ≤ 2 ^ 53 := by
  have hlt : a < 2 ^ (53 + roundShift a j) :=
    lt_of_lt_of_le Nat.lt_log2_self (Nat.pow_le_pow_right (by decide) (by unfold roundShift; omega))
  have hq : a / 2 ^ roundShift a j < 2 ^ 53 := by
    rwa [Nat.div_lt_iff_lt_mul (Nat.two_pow_pos _), ← Nat.pow_add]
  simp only [roundDiv]
  split <;> omega

/-- When more bits are dropped than the units ask for, the value has exactly 53 bits. -/
theorem pow_log2_of_lt_roundShift {a j : Nat} (h : j < roundShift a j) :
    Nat.log2 a = 52 + roundShift a j ∧ 2 ^ (52 + roundShift a j) ≤ a := by
  have hlog : Nat.log2 a = 52 + roundShift a j := by unfold roundShift at *; omega
  refine ⟨hlog, ?_⟩
  rw [← hlog]
  refine Nat.log2_self_le ?_
  rintro rfl
  rw [Nat.log2_zero] at hlog
  omega

/-- The rounded quotient then has 53 bits: its significand is normal. -/
theorem le_roundDiv_of_lt_roundShift {a j : Nat} (h : j < roundShift a j) :
    2 ^ 52 ≤ roundDiv a (roundShift a j) := by
  have hq : 2 ^ 52 ≤ a / 2 ^ roundShift a j := by
    rw [Nat.le_div_iff_mul_le (Nat.two_pow_pos _), ← Nat.pow_add]
    exact (pow_log2_of_lt_roundShift h).2
  simp only [roundDiv]
  split <;> omega

/-- No number of at most 53 bits is nearer, and another one is as near only when the quotient is even: it
is a multiple of the dropped power of two, or below the leading bit of `a`. -/
theorem roundUnits_nearest (a j : Nat) {m : Nat} (e : Nat) (hm : m < 2 ^ 53) :
    |(a : Int) - (roundUnits a j * 2 ^ j : Nat)| ≤ |(a : Int) - (m * 2 ^ e * 2 ^ j : Nat)| ∧
    (|(a : Int) - (m * 2 ^ e * 2 ^ j : Nat)| = |(a : Int) - (roundUnits a j * 2 ^ j : Nat)| →
      m * 2 ^ e * 2 ^ j ≠ roundUnits a j * 2 ^ j → roundDiv a (roundShift a j) % 2 = 0) := by
  rw [roundUnits_mul, Nat.mul_assoc, ← Nat.pow_add]
  by_cases he : roundShift a j ≤ e + j
  · have hsplit : m * 2 ^ (e + j) = m * 2 ^ (e + j - roundShift a j) * 2 ^ roundShift a j := by
      rw [Nat.mul_assoc, ← Nat.pow_add, Nat.sub_add_cancel he]
    rw [hsplit]
    exact roundDiv_nearest a (roundShift a j) _
  · obtain ⟨-, hle⟩ := pow_log2_of_lt_roundShift (a := a) (j := j) (by omega)
    have hbelow : m * 2 ^ (e + j) < 2 ^ (52 + roundShift a j) :=
      calc m * 2 ^ (e + j) < 2 ^ 53 * 2 ^ (e + j) := Nat.mul_lt_mul_of_pos_right hm (Nat.two_pow_pos _)
        _ = 2 ^ (53 + (e + j)) := (Nat.pow_add ..).symm
        _ ≤ 2 ^ (52 + roundShift a j) := Nat.pow_le_pow_right (by decide) (by omega)
    obtain ⟨hnear, -⟩ := roundDiv_nearest a (roundShift a j) (2 ^ 52)
    rw [← Nat.pow_add] at hnear
    simp only [Int.abs_eq_natAbs] at *
    generalize 2 ^ (52 + roundShift a j) = top at *
    generalize m * 2 ^ (e + j) = y at *
    generalize roundDiv a (roundShift a j) * 2 ^ roundShift a j = x at *
    omega

/-- Settles O44: the rounded quotient and its shift, and `roundUnits_nearest`. -/
theorem roundUnitsIsNearest : Obligations.RoundUnitsIsNearest := fun a j =>
  ⟨⟨_, _, roundDiv_roundShift_le a j, roundUnits_eq a j⟩,
    fun _ e hm => (roundUnits_nearest a j e hm).1⟩

end Sys2Proof.Machine
end

section
/-! PROOF. Sums, differences and products as IEEE 754 has them (00_scope.md R9, 60_exceptions.md R255),
and the round trip of bit patterns (00_scope.md R8). -/

namespace Sys2Proof.Machine

open Sys2Proof.Claims

/-! ## The rounded result -/

theorem representable_roundUnits (a j : Nat) : Representable (roundUnits a j) := by
  rcases Nat.eq_or_lt_of_le (roundDiv_roundShift_le a j) with h | h
  · refine ⟨2 ^ 52, roundShift a j - j + 1, by decide, ?_⟩
    rw [roundUnits_eq, h, ← Nat.pow_add, ← Nat.pow_add]
    congr 1
    omega
  · exact ⟨_, _, h, roundUnits_eq a j⟩

/-- An even rounded quotient is an even significand with the least exponent. -/
theorem evenSignificand_roundUnits {a j : Nat} (h : roundDiv a (roundShift a j) % 2 = 0) :
    EvenSignificand (roundUnits a j) := by
  refine ⟨_, _, roundDiv_roundShift_le a j, ?_, h, roundUnits_eq a j⟩
  rcases Nat.eq_or_lt_of_le (le_roundShift a j) with hj | hj
  · exact .inr (by omega)
  · exact .inl (le_roundDiv_of_lt_roundShift hj)

theorem roundsTo_roundUnits (a j : Nat) : RoundsTo a j (roundUnits a j) := by
  refine ⟨representable_roundUnits a j, ?_, ?_⟩
  · rintro y ⟨m, e, hm, rfl⟩
    exact (roundUnits_nearest a j e hm).1
  · rintro y ⟨m, e, hm, rfl⟩ hne hdist
    refine evenSignificand_roundUnits ((roundUnits_nearest a j e hm).2 hdist fun heq => hne ?_)
    exact Nat.eq_of_mul_eq_mul_right (Nat.two_pow_pos j) heq

theorem overflowUnits_eq : overflowUnits = 2 ^ 2098 := by unfold overflowUnits; rfl

theorem roundedResult_rounded (neg : Bool) (a j : Nat) :
    RoundedResult neg a j (F64.rounded neg a j) := by
  refine ⟨roundUnits a j, roundsTo_roundUnits a j, fun h => ?_, fun h => ?_⟩
  · rw [← overflowUnits_eq] at h
    exact if_pos h
  · rw [← overflowUnits_eq] at h
    exact if_neg (Nat.not_lt.mpr h)

/-! ## NaNs and infinities -/

theorem nan_add (x : F64) : F64.nan.add x = .nan := by cases x <;> rfl

theorem add_nan (x : F64) : x.add .nan = .nan := by cases x <;> rfl

theorem nan_mul (x : F64) : F64.nan.mul x = .nan := by cases x <;> rfl

theorem mul_nan (x : F64) : x.mul .nan = .nan := by cases x <;> rfl

theorem inf_add_inf (p q : Bool) :
    (F64.inf p).add (.inf q) = if p = q then .inf p else .nan := rfl

theorem inf_sub_inf (p q : Bool) :
    (F64.inf p).sub (.inf q) = if p = !q then .inf p else .nan := rfl

theorem xor_eq_bne (p q : Bool) : xor p q = (p != q) := rfl

theorem inf_mul_fin (p q : Bool) (n : Nat) :
    (F64.inf p).mul (.fin q n) = if n = 0 then .nan else .inf (p != q) := rfl

theorem fin_mul_inf (p q : Bool) (n : Nat) :
    (F64.fin q n).mul (.inf p) = if n = 0 then .nan else .inf (p != q) := by
  rw [F64.mul, xor_eq_bne, bne_comm]

/-! ## Finite values -/

theorem fin_add_fin (p q : Bool) (m n : Nat) : (F64.fin p m).add (.fin q n) =
    if signedUnits p m + signedUnits q n = 0 then .fin (p && q) 0
    else F64.rounded (decide (signedUnits p m + signedUnits q n < 0))
      (signedUnits p m + signedUnits q n).natAbs 0 := rfl

theorem signedUnits_not (q : Bool) (n : Nat) : signedUnits (!q) n = -signedUnits q n := by
  cases q <;> simp [signedUnits]

theorem fin_sub_fin (p q : Bool) (m n : Nat) : (F64.fin p m).sub (.fin q n) =
    if signedUnits p m - signedUnits q n = 0 then .fin (p && !q) 0
    else F64.rounded (decide (signedUnits p m - signedUnits q n < 0))
      (signedUnits p m - signedUnits q n).natAbs 0 := by
  rw [F64.sub, F64.neg, fin_add_fin, signedUnits_not, ← sub_eq_add_neg]

/-- Settles O60: NaNs and infinities by the definitions, finite results by the rounding of the exact
sum, difference or product. -/
theorem arithmeticIsIeee : Obligations.ArithmeticIsIeee := by
  refine ⟨fun x => ⟨nan_add x, add_nan x, nan_add x.neg, add_nan x, nan_mul x, mul_nan x⟩,
    fun p q n => ⟨fun h => ?_, fun h => ?_, rfl, rfl, rfl, rfl, rfl, fun h => ?_, fun h => ?_⟩,
    fun p q m n => ⟨fun h => ?_, fun h => ?_, fun h => ?_, fun h => ?_, ?_⟩⟩
  · rw [inf_add_inf, inf_sub_inf, if_pos h, if_neg (by simp [h])]
    exact ⟨rfl, rfl⟩
  · rw [inf_add_inf, inf_sub_inf, if_neg h, if_pos (Bool.eq_not_of_ne h)]
    exact ⟨rfl, rfl⟩
  · rw [inf_mul_fin, fin_mul_inf, if_pos h]
    exact ⟨rfl, rfl⟩
  · rw [inf_mul_fin, fin_mul_inf, if_neg h]
    exact ⟨rfl, rfl⟩
  · rw [fin_add_fin, if_pos h]
  · rw [fin_add_fin, if_neg h]
    exact roundedResult_rounded _ _ _
  · rw [fin_sub_fin, if_pos h]
  · rw [fin_sub_fin, if_neg h]
    exact roundedResult_rounded _ _ _
  · exact roundedResult_rounded (p != q) (m * n) 1074

/-! ## Bit patterns -/

theorem toBits_fin_small (free : Sample) {neg : Bool} {mag : Nat} (h : mag < 2 ^ 52) :
    (F64.fin neg mag).toBits free = packBits neg 0 mag := if_pos h

/-- The pattern of a normal value: its exponent and its fraction. -/
theorem toBits_fin_normal (free : Sample) (neg : Bool) {frac : Nat} (k : Nat) (h : frac < 2 ^ 52) :
    (F64.fin neg ((2 ^ 52 + frac) * 2 ^ k)).toBits free = packBits neg (k + 1) frac := by
  have hpos := Nat.two_pow_pos k
  have hlow : 2 ^ 52 * 2 ^ k ≤ (2 ^ 52 + frac) * 2 ^ k := Nat.mul_le_mul_right _ (by omega)
  have hbig : ¬ (2 ^ 52 + frac) * 2 ^ k < 2 ^ 52 := by omega
  have hlog : Nat.log2 ((2 ^ 52 + frac) * 2 ^ k) = 52 + k := by
    rw [Nat.log2_eq_iff (by omega), Nat.pow_add, show 52 + k + 1 = 53 + k by omega, Nat.pow_add]
    exact ⟨hlow, Nat.mul_lt_mul_of_pos_right (by omega) hpos⟩
  simp only [F64.toBits, if_neg hbig, hlog, Nat.add_sub_cancel_left, Nat.mul_div_cancel _ hpos]

/-- A pattern that is no NaN comes back from its value: an infinity, a subnormal or a normal value. -/
theorem toBits_ofBits {x : Sample} (free : Sample) (h : isNaN x = false) :
    (F64.ofBits x).toBits free = x := by
  have hfrac := fracField_lt x
  unfold F64.ofBits
  conv_rhs => rw [← packBits_of_fields x]
  split
  · next he =>
    have hf : fracField x = 0 := by simpa [isNaN, he] using h
    rw [if_pos hf, hf, he]
    rfl
  · split
    · next he => rw [toBits_fin_small free hfrac, he]
    · next he => rw [toBits_fin_normal free _ _ hfrac, Nat.sub_add_cancel (by omega)]

theorem ofBits_of_isNaN {x : Sample} (h : isNaN x = true) : F64.ofBits x = .nan := by
  simp only [isNaN, Bool.and_eq_true, decide_eq_true_eq] at h
  rw [F64.ofBits, if_pos h.1, if_neg h.2]

/-- Settles O47: the fields of a pattern that is no NaN are packed again; a stored NaN is made from its
free bits. -/
theorem samplePatternsRoundTrip : Obligations.SamplePatternsRoundTrip :=
  ⟨fun _ free => toBits_ofBits free, isNaN_nanOf, fun _ h => ⟨ofBits_of_isNaN h, nanOf_of_isNaN h⟩⟩

end Sys2Proof.Machine
end

section
/-! PROOF. The resets (70_reset_and_hazards.md R270 to R272) and the registers: what each reads and what
a write to each does (10_state.md R27 to R43). -/

namespace Sys2Proof.Machine

open Sys2Proof.Claims

/-! ## Register writes -/

/-- A served 32-bit write reaches the register. -/
theorem serve_csr_write (s : State) (off : Offset) (x : Word) (h : off.toNat < 0x1000)
    (h4 : off.toNat % 4 = 0) (hg : s.busy = true → off.toNat ≠ 0x014 ∧ off.toNat ≠ 0x018) :
    serve (wr32 off x) s = writeCsr off.toNat x s := hostWrite_csr s off x h h4 hg

theorem setWidth_sixteen (x : Word) : x.setWidth 16 = x.extractLsb' 0 16 := by
  apply BitVec.eq_of_toNat_eq
  simp

/-- The registers that ignore a write (10_state.md R27, R43). -/
theorem writeCsr_ignored {off : Nat} (h : off ∉ [0x008, 0x00C, 0x010, 0x014, 0x018, 0x034])
    (x : Word) (s : State) : writeCsr off x s = .next s := by
  unfold writeCsr
  split
  case h_7 => rfl
  all_goals simp at h

/-- Settles O54: each offset's case of `writeCsr`. -/
theorem registerWrites : Obligations.RegisterWrites := by
  refine fun s x => ⟨fun h31 => ?_, ?_, ?_, fun hb => ⟨?_, ?_⟩, fun off hlt h4 hoff => ?_⟩
  · rw [serve_csr_write s _ x (by decide) (by decide) fun _ => by decide]
    exact congrArg _ ((writeCtrl_cases x s).resolve_left fun h =>
      Bool.noConfusion (h31.symm.trans h.1)).2
  · rw [serve_csr_write s _ x (by decide) (by decide) fun _ => by decide]
    exact congrArg _ (writeStatus_eq x s)
  · rw [serve_csr_write s _ x (by decide) (by decide) fun _ => by decide]
    rfl
  · rw [serve_csr_write s _ x (by decide) (by decide) (by simp [hb]), ← setWidth_sixteen]
    rfl
  · rw [serve_csr_write s _ x (by decide) (by decide) (by simp [hb]), ← setWidth_sixteen]
    rfl
  · rw [serve_csr_write s off x hlt h4 fun _ => ⟨by simp_all, by simp_all⟩]
    exact writeCsr_ignored hoff x s

/-! ## Resets -/

/-- A cancelled effect names the `V` register of its command. -/
theorem cancelled_v_some {f : Effect} {x : Fin 8 × Block8} (h : f.v = some x) (draw : Nat) :
    ∃ b, (f.cancelled draw).v = some (x.1, b) := ⟨_, congrArg (Option.map _) h⟩

/-- A cancelled effect names the `W` register of its command. -/
theorem cancelled_w_some {f : Effect} {x : Fin 2 × Block16} (h : f.w = some x) (draw : Nat) :
    ∃ b, (f.cancelled draw).w = some (x.1, b) := ⟨_, congrArg (Option.map _) h⟩

section Cancel

variable {s : State} {i : Instr} (hb : s.busy = true) (hd : decode s.pend = .instr i)
include hb hd

/-- A soft reset with a command in flight leaves in the memories what its cancelled effect writes. -/
theorem softReset_memories : (softReset s).v = (complete ((effectOf i s).cancelled s.fresh) s).v ∧
    (softReset s).w = (complete ((effectOf i s).cancelled s.fresh) s).w ∧
    ∀ a, (softReset s).readByte a = (complete ((effectOf i s).cancelled s.fresh) s).readByte a := by
  rw [softReset, if_pos hb, cancelPending_of_decode hd]
  exact ⟨rfl, rfl, State.readByte_congr rfl rfl⟩

theorem softReset_readV_other {v : Fin 8} {e : Fin 64} (h : ∀ b, (effectOf i s).v ≠ some (v, b)) :
    (softReset s).readV v e = s.readV v e := by
  obtain ⟨hv, -, -⟩ := softReset_memories hb hd
  rw [State.readV, hv]
  cases hf : (effectOf i s).v with
  | none => exact complete_readV_none s (by simp [Effect.cancelled, hf]) v e
  | some x =>
    obtain ⟨b, hcan⟩ := cancelled_v_some hf s.fresh
    exact complete_readV_other s hcan (fun hvx => h x.2 (by rw [hf, hvx])) e

theorem softReset_readW_other {w : Fin 2} {e : Fin 256} (h : ∀ b, (effectOf i s).w ≠ some (w, b)) :
    (softReset s).readW w e = s.readW w e := by
  obtain ⟨-, hw, -⟩ := softReset_memories hb hd
  rw [State.readW, hw]
  cases hf : (effectOf i s).w with
  | none => exact complete_readW_none s (by simp [Effect.cancelled, hf]) w e
  | some x =>
    obtain ⟨b, hcan⟩ := cancelled_w_some hf s.fresh
    exact complete_readW_other s hcan (fun hwx => h x.2 (by rw [hf, hwx])) e

theorem softReset_readByte_other {a : Nat} (hc : ∀ c ∈ (effectOf i s).cells, c.1 ≠ a)
    (hbits : ∀ y ∈ (effectOf i s).bits, bitOff (y.1 / 8) ≠ a) :
    (softReset s).readByte a = s.readByte a := by
  obtain ⟨-, -, hm⟩ := softReset_memories hb hd
  rw [hm, complete_readByte, State.readByte_writeBits_other, State.readByte_writeCells_other]
  · intro c h
    obtain ⟨c', hc', rfl⟩ := List.mem_map.mp h
    exact hc c' hc'
  · intro y h
    obtain ⟨y', hy', rfl⟩ := List.mem_map.mp h
    exact (hbits y' hy').symm

theorem softReset_readBit_other {y : Nat} (hc : (effectOf i s).cells = [])
    (hbits : ∀ z ∈ (effectOf i s).bits, z.1 ≠ y) : (softReset s).readBit y = s.readBit y := by
  obtain ⟨-, -, hm⟩ := softReset_memories hb hd
  have hcells : ((effectOf i s).cancelled s.fresh).cells = [] := by simp [Effect.cancelled, hc]
  rw [State.readBit, hm, complete_readByte, hcells]
  refine State.readBit_writeBits_other s fun z hz => ?_
  obtain ⟨z', hz', rfl⟩ := List.mem_map.mp hz
  exact hbits z' hz'

end Cancel

/-- A write of `SRST` to `CTRL` is a soft reset, `BUSY` or not. -/
theorem serve_softReset (s : State) {x : Word} (hx : x.getLsbD 31 = true) :
    serve (wr32 0x008#30 x) s = .next (softReset s) := by
  rw [serve_csr_write s _ x (by decide) (by decide) fun _ => by decide]
  exact congrArg _ (if_pos hx)

/-- Settles O57: each register of the reset state, by evaluation. -/
theorem resetRegisterReads : Obligations.ResetRegisterReads := by
  unfold Obligations.ResetRegisterReads
  decide

end Sys2Proof.Machine

/-! The two theorems named after the resets stand in a namespace of their own, since `Machine` holds the
functions of these names. -/
namespace Sys2Proof.Resets

open Sys2Proof.Machine

/-- Settles O55: the registers are reset last; the memories are kept when idle, and otherwise hold what
the cancelled effect writes. -/
theorem softReset : Obligations.SoftReset := by
  refine fun s x hx => ⟨Machine.softReset s, serve_softReset s hx,
    ⟨rfl, rfl, rfl, rfl, rfl, rfl, rfl, rfl, rfl, rfl, rfl, rfl, rfl, rfl, rfl, rfl, rfl⟩,
    fun hb => ?_, fun i hb hd => ⟨fun v e => softReset_readV_other hb hd,
      fun w e => softReset_readW_other hb hd, fun a => softReset_readByte_other hb hd,
      fun y => softReset_readBit_other hb hd⟩⟩
  rw [Machine.softReset, hb]
  exact ⟨rfl, rfl, State.readByte_congr rfl rfl⟩

/-- Settles O56: the registers as after a soft reset, and every memory by its free values. -/
theorem powerOnReset : Obligations.PowerOnReset := by
  refine fun s => ⟨Machine.powerOnReset s, rfl,
    ⟨rfl, rfl, rfl, rfl, rfl, rfl, rfl, rfl, rfl, rfl, rfl, rfl, rfl, rfl, rfl, rfl, rfl, rfl⟩,
    ⟨rfl, rfl, rfl, rfl, fun a => rfl, fun i e => ?_, fun j e => ?_⟩, rfl, rfl, rfl⟩
  · simp [State.readV, Machine.powerOnReset, powerOnV]
  · simp [State.readW, Machine.powerOnReset, powerOnW]

end Sys2Proof.Resets
end

section
/-! PROOF. The registers derived from the geometry (10_state.md R35 to R37, R42). -/

namespace Sys2Proof.Machine

open Sys2Proof.Claims

/-- A legal geometry has sides of at most 4096. -/
theorem geometry_le {s : State} (hg : geometryLegal s) (hl : s.cfg.legal) :
    s.imgW.toNat ≤ 4096 ∧ s.imgH.toNat ≤ 4096 := by
  obtain ⟨-, hw, -, hh⟩ := hg
  obtain ⟨⟨-, -, hmw⟩, -, -, hmh⟩ := hl
  omega

theorem gridWord_toNat {s : State} (hg : geometryLegal s) (hl : s.cfg.legal) (size : Nat) :
    (s.gridWord size).toNat = s.imgH.toNat / size * 2 ^ 16 + s.imgW.toNat / size := by
  obtain ⟨hw, hh⟩ := geometry_le hg hl
  have hrows := Nat.div_le_self s.imgH.toNat size
  have hcols := Nat.div_le_self s.imgW.toNat size
  rw [State.gridWord, if_pos (geomOk_iff.mpr hg), BitVec.toNat_ofNat]
  exact Nat.mod_eq_of_lt (by unfold State.rows State.cols; omega)

theorem blockCount_toNat {s : State} (hg : geometryLegal s) (hl : s.cfg.legal) (size : Nat) :
    (BitVec.ofNat 32 (s.blockCount size)).toNat =
      s.imgW.toNat / size * (s.imgH.toNat / size) := by
  obtain ⟨hw, hh⟩ := geometry_le hg hl
  have hle : s.imgW.toNat / size * (s.imgH.toNat / size) ≤ 4096 * 4096 :=
    Nat.mul_le_mul ((Nat.div_le_self _ _).trans hw) ((Nat.div_le_self _ _).trans hh)
  rw [blockCount_of_legal hg, BitVec.toNat_ofNat]
  exact Nat.mod_eq_of_lt (by omega)

theorem lsbcapWord_toNat {s : State} (hg : geometryLegal s) (hl : s.cfg.legal) :
    s.lsbcapWord.toNat = 3 * (s.imgW.toNat * s.imgH.toNat) := by
  obtain ⟨hw, hh⟩ := geometry_le hg hl
  have hle : s.imgW.toNat * s.imgH.toNat ≤ 4096 * 4096 := Nat.mul_le_mul hw hh
  rw [State.lsbcapWord, if_pos (geomOk_iff.mpr hg), BitVec.toNat_ofNat]
  exact Nat.mod_eq_of_lt (by unfold State.pixels; omega)

/-- Settles O59: the formulas fit 32 bits for a legal geometry, and every register is 0 without one. -/
theorem derivedGeometryRegisters : Obligations.DerivedGeometryRegisters := by
  refine fun s => ⟨fun hg hl => ⟨gridWord_toNat hg hl 8, gridWord_toNat hg hl 16,
    blockCount_toNat hg hl 8, blockCount_toNat hg hl 16, lsbcapWord_toNat hg hl⟩, fun hg => ?_⟩
  rw [← geomOk_iff] at hg
  simp [State.readCsr, State.gridWord, State.blockCount, State.lsbcapWord, hg]

end Sys2Proof.Machine
end

section
/-! PROOF. Which host accesses are served (20_memory.md R61, R63 to R69), all that a rejected one does
(R68), and what a served read replies (R71, 10_state.md R27 to R43). -/

namespace Sys2Proof.Machine

open Sys2Proof.Claims

/-! ## Served and rejected accesses -/

theorem placeOf_eq_csr_iff (c : Config.Params) (off : Nat) : placeOf c off = .csr ↔ off < 0x1000 :=
  ⟨fun h => not_le.mp fun hle => placeOf_ne_csr c hle h, placeOf_csr c⟩

theorem inBit_iff (c : Config.Params) (off : Nat) :
    inBit c off = true ↔ 0x01000000 ≤ off ∧ off < 0x01000000 + 3 * c.maxPix / 8 := by
  simp only [inBit, Bool.and_eq_true, decide_eq_true_eq]
  exact Iff.rfl

theorem inPix_iff (c : Config.Params) (off : Nat) :
    inPix c off = true ↔ 0x04000000 ≤ off ∧ off < 0x04000000 + 4 * c.maxPix := by
  simp only [inPix, Bool.and_eq_true, decide_eq_true_eq]
  exact Iff.rfl

theorem inPlanes_iff (c : Config.Params) (off : Nat) :
    (inPlane c off 0 || inPlane c off 1 || inPlane c off 2) = true ↔
      (0x10000000 ≤ off ∧ off < 0x10000000 + 8 * c.maxPix) ∨
      (0x18000000 ≤ off ∧ off < 0x18000000 + 8 * c.maxPix) ∨
      (0x20000000 ≤ off ∧ off < 0x20000000 + 8 * c.maxPix) := by
  simp only [inPlane, Bool.or_eq_true, Bool.and_eq_true, decide_eq_true_eq, or_assoc]
  exact Iff.rfl

/-- The window map with the widths each region takes, and the alignment. -/
theorem placeAllows_iff {c : Config.Params} (hl : c.legal) (off n : Nat) :
    placeAllows c off n ↔ widthAllowed (placeOf c off) n = true ∧ off % n = 0 := by
  have hM := (maxPix_legal hl).1
  rw [placeAllows, and_comm]
  refine and_congr_left' ?_
  unfold placeOf
  simp only [inBit_iff, inPix_iff, inPlanes_iff]
  split_ifs <;>
    simp only [widthAllowed, Bool.or_eq_true, decide_eq_true_eq, Bool.false_eq_true, iff_false] <;>
    omega

theorem rejects_eq_false_iff {s : State} (hl : s.cfg.legal) (off n : Nat) :
    rejects s off n = false ↔ readServed s off n := by
  rw [readServed, placeAllows_iff hl]
  simp [rejects, placeOf_eq_csr_iff, imp_iff_not_or]

theorem rejectsWrite_eq_false_iff {s : State} (hl : s.cfg.legal) (off n : Nat) :
    rejectsWrite s off n = false ↔ writeServed s off n := by
  rw [writeServed, ← rejects_eq_false_iff hl]
  simp [rejectsWrite, imp_iff_not_or]

theorem rejects_of_not_served {s : State} (hl : s.cfg.legal) {off n : Nat}
    (h : ¬ readServed s off n) : rejects s off n = true := by
  rwa [← rejects_eq_false_iff hl, Bool.not_eq_false] at h

theorem rejectsWrite_of_not_served {s : State} (hl : s.cfg.legal) {off n : Nat}
    (h : ¬ writeServed s off n) : rejectsWrite s off n = true := by
  rwa [← rejectsWrite_eq_false_iff hl, Bool.not_eq_false] at h

/-- A step serves its oldest event (20_memory.md R73). -/
theorem step_event {s : State} {e : Event} {rest : List Event} (hi : s.inbox = e :: rest) :
    step s = serve e { s with inbox := rest } := by rw [step, hi]

/-- Settles O48: an access that is not served is rejected, and a rejected one is recorded. -/
theorem rejectedAccesses : Obligations.RejectedAccesses := by
  refine fun s off w data rest hl => ⟨fun hi hn => ?_, fun hi hn => ?_⟩
  · have hr : rejects { s with inbox := rest } off.toNat w.bytes = true :=
      rejects_of_not_served hl hn
    rw [step_event hi]
    simp only [serve, hostRead, hr, if_true]
    rfl
  · have hr : rejectsWrite { s with inbox := rest } off.toNat w.bytes = true :=
      rejectsWrite_of_not_served hl hn
    rw [step_event hi]
    simp only [serve, hostWrite, hr, if_true]
    rfl

/-! ## Registers made of single bits -/

/-- The number whose bits are listed, bit 0 first. -/
def bitsNat (l : List Bool) : Nat :=
  match l with
  | [] => 0
  | b :: rest => b.toNat + 2 * bitsNat rest

theorem testBit_bitsNat (l : List Bool) (i : Nat) : (bitsNat l).testBit i = l.getD i false := by
  induction l generalizing i with
  | nil => simp [bitsNat]
  | cons b rest ih =>
    have hb := b.toNat_lt
    cases i with
    | zero =>
      rw [bitsNat, Nat.testBit_zero, Nat.add_mul_mod_self_left]
      cases b <;> rfl
    | succ i =>
      have hdiv : (b.toNat + 2 * bitsNat rest) / 2 = bitsNat rest := by omega
      rw [bitsNat, Nat.testBit_succ, hdiv, ih]
      rfl

theorem bitAt_eq (b : Bool) (n : Nat) : bitAt b n = b.toNat * 2 ^ n := by
  cases b <;> simp [bitAt]

/-- A register of at most 32 single bits reads as these bits. -/
theorem bitsAre_of_bitsNat {l : List Bool} (h : l.length ≤ 32) :
    BitsAre ((BitVec.ofNat 32 (bitsNat l)).setWidth 64) l := by
  intro b
  rw [BitVec.getLsbD_setWidth, BitVec.getLsbD_ofNat, testBit_bitsNat]
  by_cases hb : b < 32
  · simp [hb, show b < 64 by omega]
  · rw [List.getD_eq_default _ _ (by omega), Bool.and_false, Bool.and_false]

theorem ctrlWord_eq (s : State) :
    s.ctrlWord = BitVec.ofNat 32 (bitsNat [s.ieDone, s.ieErr, s.refprot]) := by
  simp only [State.ctrlWord, bitAt_eq, bitsNat]
  congr 1
  omega

theorem statusWord_eq (s : State) : s.statusWord =
    BitVec.ofNat 32 (bitsNat [s.busy, s.done, s.err, s.ovr, s.accerr, s.irq]) := by
  simp only [State.statusWord, bitAt_eq, bitsNat]
  congr 1
  omega

theorem flagsWord_eq (s : State) : s.flagsWord = BitVec.ofNat 32 (bitsNat [s.nv, s.sat]) := by
  simp only [State.flagsWord, bitAt_eq, bitsNat]
  congr 1
  omega

/-! ## What each register reads -/

theorem capsWord_toNat {s : State} (hl : s.cfg.legal) :
    (s.capsWord.setWidth 64).toNat = s.cfg.maxH * 2 ^ 16 + s.cfg.maxW := by
  obtain ⟨⟨-, -, hw⟩, -, -, hh⟩ := hl
  simp only [State.capsWord, BitVec.toNat_setWidth, BitVec.toNat_ofNat]
  omega

theorem setWidth_setWidth_of_le {n : Nat} (hn : n ≤ 32) (x : BitVec n) :
    (x.setWidth 32).setWidth 64 = x.setWidth 64 := by
  have hx : x.toNat < 2 ^ 32 := lt_of_lt_of_le x.isLt (Nat.pow_le_pow_right (by decide) hn)
  apply BitVec.eq_of_toNat_eq
  rw [BitVec.toNat_setWidth, BitVec.toNat_setWidth, BitVec.toNat_setWidth, Nat.mod_eq_of_lt hx]

/-- The offsets that hold no register read 0 (10_state.md R43). -/
theorem readCsr_reserved (s : State) {off : Nat} (h : 0x040 ≤ off) : s.readCsr off = 0#32 := by
  unfold State.readCsr
  split
  case h_17 => rfl
  all_goals omega

/-- The reply of every register is its fields. -/
theorem registerReads_readCsr {s : State} (hl : s.cfg.legal) (off : Nat) :
    RegisterReads s off ((s.readCsr off).setWidth 64) := by
  refine ⟨?_, ?_, ?_, ?_, ?_, ?_, ?_, fun _ => rfl, ?_, ?_, ?_, ?_, fun h => ?_⟩
  · rintro rfl; rfl
  · rintro rfl; exact capsWord_toNat hl
  · rintro rfl
    rw [State.readCsr, ctrlWord_eq]
    exact bitsAre_of_bitsNat (by simp)
  · rintro rfl
    rw [State.readCsr, statusWord_eq]
    exact bitsAre_of_bitsNat (by simp)
  · rintro rfl; rfl
  · rintro rfl; exact setWidth_setWidth_of_le (by decide) s.imgW
  · rintro rfl; exact setWidth_setWidth_of_le (by decide) s.imgH
  · rintro rfl
    refine ⟨?_, ?_, ?_, ?_, ?_, ?_, ?_, ?_⟩ <;> intro h <;> rw [State.readCsr, h] <;> rfl
  · rintro rfl; rfl
  · rintro rfl
    rw [State.readCsr, flagsWord_eq]
    exact bitsAre_of_bitsNat (by simp)
  · rintro rfl; exact setWidth_setWidth_of_le (by decide) s.accAddr
  · rw [readCsr_reserved s h]; rfl

/-- Settles O49: a served read replies its value, for a register its word. -/
theorem servedReadHasNoSideEffect : Obligations.ServedReadHasNoSideEffect := by
  intro s off w rest hl hi hserved
  have hr : rejects { s with inbox := rest } off.toNat w.bytes = false :=
    (rejects_eq_false_iff hl _ _).mpr hserved
  refine ⟨readValue { s with inbox := rest } off.toNat w.bytes, ?_, fun hlt => ?_⟩
  · rw [step_event hi]
    exact serve_read hr
  · rw [readValue, placeOf_csr _ hlt]
    exact registerReads_readCsr hl off.toNat

end Sys2Proof.Machine
end

section
/-! PROOF. The samples of the block registers and the planes as the host sees them (20_memory.md R61,
R63, R71): reads, whole writes and half writes, once for every kind of sample. -/

namespace Sys2Proof.Machine

open Sys2Proof.Claims

/-! ## The whole of a sample and its halves -/

/-- The accesses to a sample: all 8 bytes, or the low or the high 4 bytes. -/
def SampleAccess (o n : Nat) : Prop := (o = 0 ∧ n = 8) ∨ (o = 0 ∧ n = 4) ∨ (o = 4 ∧ n = 4)

theorem toNat_append_eq {m n : Nat} (x : BitVec m) (y : BitVec n) :
    (x ++ y).toNat = x.toNat * 2 ^ n + y.toNat := by
  rw [BitVec.toNat_append, ← Nat.shiftLeft_add_eq_or_of_lt y.isLt, Nat.shiftLeft_eq]

theorem half_toNat (x : BitVec 64) :
    (x.extractLsb' 0 32).toNat = x.toNat % 2 ^ 32 ∧ (x.extractLsb' 32 32).toNat = x.toNat / 2 ^ 32 := by
  have hx := x.isLt
  simp only [BitVec.extractLsb'_toNat, Nat.shiftRight_eq_div_pow]
  omega

theorem mergeSample_whole (x data : BitVec 64) (a : Nat) : mergeSample x data a 8 = data := rfl

section Parts

variable {a : Nat} (ha : a % 8 = 0) (x data : BitVec 64)
include ha

theorem samplePart_low : samplePart x a 4 = (x.extractLsb' 0 32).setWidth 64 := by
  simp [samplePart, ha]

theorem samplePart_high : samplePart x (a + 4) 4 = (x.extractLsb' 32 32).setWidth 64 := by
  have h : ¬ (a + 4) % 8 = 0 := by omega
  simp [samplePart, h]

theorem mergeSample_low :
    mergeSample x data a 4 = x.extractLsb' 32 32 ++ data.extractLsb' 0 32 := by
  simp [mergeSample, ha]

theorem mergeSample_high :
    mergeSample x data (a + 4) 4 = data.extractLsb' 0 32 ++ x.extractLsb' 0 32 := by
  have h : ¬ (a + 4) % 8 = 0 := by omega
  simp [mergeSample, h]

end Parts

/-! ## Samples held as bytes -/

/-- The 8 bytes at an offset as a sample. -/
def State.byteSample (s : State) (a : Nat) : Sample := BitVec.ofNat 64 (s.readLE a 8)

theorem State.byteSample_toNat (s : State) (a : Nat) :
    (s.byteSample a).toNat = s.readLE a 4 + 2 ^ 32 * s.readLE (a + 4) 4 := by
  have hlt : s.readLE a 8 < 2 ^ 64 := s.readLE_lt a 8
  rw [State.byteSample, BitVec.toNat_ofNat, Nat.mod_eq_of_lt hlt]
  exact s.readLE_split a 4 4

/-- A read of a sample's bytes gives the part of the sample. -/
theorem State.readLE_samplePart (s : State) {a o n : Nat} (ha : a % 8 = 0) (h : SampleAccess o n) :
    BitVec.ofNat 64 (s.readLE (a + o) n) = samplePart (s.byteSample a) (a + o) n := by
  have hlow := s.readLE_lt a 4
  have hhigh := s.readLE_lt (a + 4) 4
  have hval := s.byteSample_toNat a
  obtain ⟨hlo, hhi⟩ := half_toNat (s.byteSample a)
  obtain ⟨rfl, rfl⟩ | ⟨rfl, rfl⟩ | ⟨rfl, rfl⟩ := h
  · rfl
  · rw [Nat.add_zero, samplePart_low ha]
    apply BitVec.eq_of_toNat_eq
    rw [BitVec.toNat_setWidth, BitVec.toNat_ofNat, hlo]
    omega
  · rw [samplePart_high ha]
    apply BitVec.eq_of_toNat_eq
    rw [BitVec.toNat_setWidth, BitVec.toNat_ofNat, hhi]
    omega

theorem State.readLE_store_other (s : State) {a b m n : Nat} (x : Nat) (h : b + m ≤ a ∨ a + n ≤ b) :
    (s.writeCells (leCells a n x)).readLE b m = s.readLE b m :=
  State.readLE_congr fun i hi => s.readByte_store_other x (by omega)

/-- A write of a sample's bytes replaces the part of the sample. -/
theorem State.byteSample_store (s : State) {a o n : Nat} (ha : a % 8 = 0) (h : SampleAccess o n)
    (data : BitVec 64) : (s.writeCells (leCells (a + o) n data.toNat)).byteSample a =
      mergeSample (s.byteSample a) data (a + o) n := by
  have hd := data.isLt
  have hlow := s.readLE_lt a 4
  have hhigh := s.readLE_lt (a + 4) 4
  have hval := s.byteSample_toNat a
  obtain ⟨hlo, hhi⟩ := half_toNat (s.byteSample a)
  obtain ⟨hdlo, -⟩ := half_toNat data
  apply BitVec.eq_of_toNat_eq
  obtain ⟨rfl, rfl⟩ | ⟨rfl, rfl⟩ | ⟨rfl, rfl⟩ := h
  · rw [Nat.add_zero, mergeSample_whole, State.byteSample, State.readLE_store, BitVec.toNat_ofNat]
    omega
  · rw [Nat.add_zero, mergeSample_low ha, toNat_append_eq, State.byteSample_toNat,
      State.readLE_store, State.readLE_store_other s _ (by omega), hdlo, hhi]
    omega
  · rw [mergeSample_high ha, toNat_append_eq, State.byteSample_toNat, State.readLE_store,
      State.readLE_store_other s _ (by omega), hdlo, hlo]
    omega

/-! ## Where samples lie -/

theorem placeOf_v (c : Config.Params) (i : Fin 8) (e : Fin 64) {o : Nat} (ho : o < 8) :
    placeOf c (vOff i.val e.val + o) = .v i e := by
  unfold vOff placeOf
  rw [if_neg (by omega), if_pos (by omega)]
  congr 1 <;> ext <;> simp only <;> omega

theorem placeOf_w (c : Config.Params) (j : Fin 2) (e : Fin 256) {o : Nat} (ho : o < 8) :
    placeOf c (wOff j.val e.val + o) = .w j e := by
  unfold wOff placeOf
  rw [if_neg (by omega), if_neg (by omega), if_pos (by omega)]
  congr 1 <;> ext <;> simp only <;> omega

theorem placeOf_plane {c : Config.Params} (hl : c.legal) {p n o : Nat} (hp : p < 3) (hn : n < c.maxPix)
    (ho : o < 8) : placeOf c (planeOff p n + o) = .plane := by
  have hM := (maxPix_legal hl).1
  have hbit : ¬ inBit c (planeOff p n + o) = true := by
    simp only [inBit, Bool.and_eq_true, decide_eq_true_eq]; unfold planeOff bitOff; omega
  have hpix : ¬ inPix c (planeOff p n + o) = true := by
    simp only [inPix, Bool.and_eq_true, decide_eq_true_eq]; unfold planeOff pixOff; omega
  have hplane : (inPlane c (planeOff p n + o) 0 || inPlane c (planeOff p n + o) 1 ||
      inPlane c (planeOff p n + o) 2) = true := by
    simp only [inPlane, Bool.or_eq_true, Bool.and_eq_true, decide_eq_true_eq]; unfold planeOff; omega
  unfold placeOf
  rw [if_neg (by unfold planeOff; omega), if_neg (by unfold planeOff; omega),
    if_neg (by unfold planeOff; omega), if_neg hbit, if_neg hpix, if_pos hplane]

/-- A sample the host can reach is an element of a block register or of a plane. -/
theorem sampleOffset_cases {c : Config.Params} {off : Nat} (h : sampleOffset c off) :
    (∃ (i : Fin 8) (e : Fin 64), off = vOff i.val e.val) ∨
    (∃ (j : Fin 2) (e : Fin 256), off = wOff j.val e.val) ∨
    ∃ p < 3, ∃ n < c.maxPix, off = planeOff p n := by
  obtain ⟨h8, h⟩ := h
  unfold vOff wOff planeOff
  rcases h with h | h | h | h
  · by_cases hv : off < 0x2000
    · refine .inl ⟨⟨(off - 0x1000) / 0x200, by omega⟩, ⟨(off - 0x1000) % 0x200 / 8, by omega⟩, ?_⟩
      simp only
      omega
    · refine .inr (.inl ⟨⟨(off - 0x2000) / 0x800, by omega⟩,
        ⟨(off - 0x2000) % 0x800 / 8, by omega⟩, ?_⟩)
      simp only
      omega
  · exact .inr (.inr ⟨0, by omega, (off - 0x10000000) / 8, by omega, by omega⟩)
  · exact .inr (.inr ⟨1, by omega, (off - 0x18000000) / 8, by omega, by omega⟩)
  · exact .inr (.inr ⟨2, by omega, (off - 0x20000000) / 8, by omega, by omega⟩)

theorem sampleIs_v {s : State} {i : Fin 8} {e : Fin 64} {x : Sample} :
    SampleIs s (vOff i.val e.val) x ↔ s.readV i e = x := by
  unfold vOff
  refine ⟨fun h => h.1 i e rfl, fun h => ⟨fun i' e' ho => ?_, fun j e' ho => ?_, fun p hp n hn ho => ?_⟩⟩
  · obtain ⟨rfl, rfl⟩ : i' = i ∧ e' = e := ⟨by ext; omega, by ext; omega⟩
    exact h
  · omega
  · omega

theorem sampleIs_w {s : State} {j : Fin 2} {e : Fin 256} {x : Sample} :
    SampleIs s (wOff j.val e.val) x ↔ s.readW j e = x := by
  unfold wOff
  refine ⟨fun h => h.2.1 j e rfl, fun h => ⟨fun i e' ho => ?_, fun j' e' ho => ?_, fun p hp n hn ho => ?_⟩⟩
  · omega
  · obtain ⟨rfl, rfl⟩ : j' = j ∧ e' = e := ⟨by ext; omega, by ext; omega⟩
    exact h
  · omega

theorem sampleIs_plane {s : State} (hl : s.cfg.legal) {p n : Nat} (hp : p < 3) (hn : n < s.cfg.maxPix)
    {x : Sample} : SampleIs s (planeOff p n) x ↔ s.byteSample (planeOff p n) = x := by
  have hM := (maxPix_legal hl).1
  refine ⟨fun h => h.2.2 p hp n hn rfl, fun h =>
    ⟨fun i e ho => ?_, fun j e ho => ?_, fun q hq m hm ho => ?_⟩⟩
  · unfold planeOff at ho; omega
  · unfold planeOff at ho; omega
  · obtain ⟨rfl, rfl⟩ : q = p ∧ m = n := by unfold planeOff at ho; omega
    exact h

/-! ## Accesses to a sample -/

/-- A store to bytes of memory does nothing else (20_memory.md R71). -/
theorem storesOnly_store (s : State) (off n x : Nat) :
    StoresOnly off n s (s.writeCells (leCells off n x)) :=
  ⟨rfl, fun _ _ _ => rfl, fun _ _ _ => rfl, fun _ h => s.readByte_store_other x h⟩

theorem storesOnly_writeV (s : State) (i : Fin 8) (e : Fin 64) {o n : Nat} (h : SampleAccess o n)
    (x : Sample) : StoresOnly (vOff i.val e.val + o) n s (s.writeV i e x) := by
  refine ⟨rfl, fun i' e' hout => ?_, fun _ _ _ => rfl, fun _ _ => rfl⟩
  refine s.readV_writeV_other x ?_
  rintro ⟨rfl, rfl⟩
  unfold SampleAccess at h
  omega

theorem storesOnly_writeW (s : State) (j : Fin 2) (e : Fin 256) {o n : Nat} (h : SampleAccess o n)
    (x : Sample) : StoresOnly (wOff j.val e.val + o) n s (s.writeW j e x) := by
  refine ⟨rfl, fun _ _ _ => rfl, fun j' e' hout => ?_, fun _ _ => rfl⟩
  refine s.readW_writeW_other x ?_
  rintro ⟨rfl, rfl⟩
  unfold SampleAccess at h
  omega

theorem planeOff_mod_eight (p n : Nat) : planeOff p n % 8 = 0 := by
  unfold planeOff
  omega

theorem SampleAccess.lt_eight {o n : Nat} (h : SampleAccess o n) : o < 8 := by
  unfold SampleAccess at h
  omega

/-- Every sample the host can reach has a value, and every read of it gives its part. -/
theorem sample_read {s : State} (hl : s.cfg.legal) {off : Nat} (h : sampleOffset s.cfg off) :
    ∃ y, SampleIs s off y ∧ ∀ o n, SampleAccess o n →
      readValue s (off + o) n = samplePart y (off + o) n := by
  obtain ⟨i, e, rfl⟩ | ⟨j, e, rfl⟩ | ⟨p, hp, m, hm, rfl⟩ := sampleOffset_cases h
  · exact ⟨_, sampleIs_v.mpr rfl, fun o n ha => by rw [readValue, placeOf_v _ i e ha.lt_eight]⟩
  · exact ⟨_, sampleIs_w.mpr rfl, fun o n ha => by rw [readValue, placeOf_w _ j e ha.lt_eight]⟩
  · refine ⟨_, (sampleIs_plane hl hp hm).mpr rfl, fun o n ha => ?_⟩
    rw [readValue, placeOf_plane hl hp hm ha.lt_eight]
    exact s.readLE_samplePart (planeOff_mod_eight p m) ha

/-- A sample has one value. -/
theorem sampleIs_unique {s : State} (hl : s.cfg.legal) {off : Nat} (h : sampleOffset s.cfg off)
    {x y : Sample} (hx : SampleIs s off x) (hy : SampleIs s off y) : x = y := by
  obtain ⟨i, e, rfl⟩ | ⟨j, e, rfl⟩ | ⟨p, hp, m, hm, rfl⟩ := sampleOffset_cases h
  · exact (sampleIs_v.mp hx).symm.trans (sampleIs_v.mp hy)
  · exact (sampleIs_w.mp hx).symm.trans (sampleIs_w.mp hy)
  · exact ((sampleIs_plane hl hp hm).mp hx).symm.trans ((sampleIs_plane hl hp hm).mp hy)

/-- Every write to a sample replaces its part and does nothing else. -/
theorem sample_write {s : State} (hl : s.cfg.legal) {off : Nat} (h : sampleOffset s.cfg off)
    {y : Sample} (hy : SampleIs s off y) {o n : Nat} (ha : SampleAccess o n) (data : BitVec 64) :
    ∃ t, writeValue (off + o) n data s = .next t ∧ StoresOnly (off + o) n s t ∧
      SampleIs t off (mergeSample y data (off + o) n) := by
  obtain ⟨i, e, rfl⟩ | ⟨j, e, rfl⟩ | ⟨p, hp, m, hm, rfl⟩ := sampleOffset_cases h
  · obtain rfl := sampleIs_v.mp hy
    rw [writeValue, placeOf_v _ i e ha.lt_eight]
    exact ⟨_, rfl, storesOnly_writeV s i e ha _, sampleIs_v.mpr (s.readV_writeV_same i e _)⟩
  · obtain rfl := sampleIs_w.mp hy
    rw [writeValue, placeOf_w _ j e ha.lt_eight]
    exact ⟨_, rfl, storesOnly_writeW s j e ha _, sampleIs_w.mpr (s.readW_writeW_same j e _)⟩
  · obtain rfl := (sampleIs_plane hl hp hm).mp hy
    rw [writeValue, placeOf_plane hl hp hm ha.lt_eight]
    refine ⟨_, rfl, storesOnly_store s _ n _, ?_⟩
    exact (sampleIs_plane (s := s.writeCells _) hl hp hm).mpr
      (s.byteSample_store (planeOff_mod_eight p m) ha data)

end Sys2Proof.Machine
end

section
/-! PROOF. Whole and half accesses to a sample (20_memory.md R61, R63, R71), from the rules for any part
of it. -/

namespace Sys2Proof.Machine

open Sys2Proof.Claims

section Sample

variable {s : State} (hb : s.busy = false) (hl : s.cfg.legal) {off : Nat}
  (h : sampleOffset s.cfg off) {y : Sample} (hy : SampleIs s off y) {o : Nat} {w : Width}
  (ha : SampleAccess o w.bytes) {off' : Offset} (ho : off'.toNat = off + o)

include h in
theorem sampleAccess_allowed {n : Nat} (ha : SampleAccess o n) : placeAllows s.cfg (off + o) n := by
  obtain ⟨h8, h⟩ := h
  obtain ⟨rfl, rfl⟩ | ⟨rfl, rfl⟩ | ⟨rfl, rfl⟩ := ha <;> refine ⟨by omega, ?_⟩ <;> omega

include hb hl h ho

theorem serve_sample_read (hy : SampleIs s off y) (ha : SampleAccess o w.bytes) :
    serve (.read off' w) s =
      .next { s with replies := samplePart y (off + o) w.bytes :: s.replies } := by
  have hr : rejects s off'.toNat w.bytes = false := by
    rw [rejects_eq_false_iff hl, ho]
    exact ⟨sampleAccess_allowed h ha, by simp [hb]⟩
  obtain ⟨z, hz, hread⟩ := sample_read hl h
  rw [serve_read hr, ho, hread o _ ha, sampleIs_unique hl h hz hy]

theorem serve_sample_write (hy : SampleIs s off y) (ha : SampleAccess o w.bytes)
    (data : BitVec 64) : ∃ t, serve (.write off' w data) s = .next t ∧
      StoresOnly (off + o) w.bytes s t ∧ SampleIs t off (mergeSample y data (off + o) w.bytes) := by
  have hr : rejectsWrite s off'.toNat w.bytes = false := by
    rw [rejectsWrite_eq_false_iff hl, ho]
    exact ⟨⟨sampleAccess_allowed h ha, by simp [hb]⟩, by simp [hb]⟩
  rw [serve_write hr, ho]
  exact sample_write hl h hy ha data

end Sample

/-- A store keeps the parameters, `BUSY` and the replies. -/
theorem storesOnly_keeps {off n : Nat} {s t : State} (h : StoresOnly off n s t) :
    t.cfg = s.cfg ∧ t.busy = s.busy ∧ t.replies = s.replies := by
  rw [h.1]
  exact ⟨rfl, rfl, rfl⟩

/-- The high half of a sample lies in the window. -/
theorem offset_add_four {c : Config.Params} (hl : c.legal) {off : Offset}
    (h : sampleOffset c off.toNat) : (off + 4).toNat = off.toNat + 4 := by
  have hM := (maxPix_legal hl).1
  have hlt : off.toNat + 4 < 2 ^ 30 := by
    obtain ⟨-, h⟩ := h
    omega
  exact Nat.mod_eq_of_lt hlt

theorem sampleAccess_whole : SampleAccess 0 Width.b8.bytes := .inl ⟨rfl, rfl⟩

theorem sampleAccess_low : SampleAccess 0 Width.b4.bytes := .inr (.inl ⟨rfl, rfl⟩)

theorem sampleAccess_high : SampleAccess 4 Width.b4.bytes := .inr (.inr ⟨rfl, rfl⟩)

/-- Settles O50: a whole write replaces the sample, and each read gives its part of it. -/
theorem sampleWriteThenRead : Obligations.SampleWriteThenRead := by
  intro s off x hb hl h
  obtain ⟨y, hy, -⟩ := sample_read hl h
  obtain ⟨t, ht, hst, hx⟩ := serve_sample_write hb hl h (o := 0) (off' := off) rfl hy
    sampleAccess_whole x
  obtain ⟨hc, hbt, hrep⟩ := storesOnly_keeps hst
  rw [← hc] at hl h
  rw [← hbt] at hb
  have h4 := offset_add_four hl h
  refine ⟨⟨y, serve_sample_read (hbt ▸ hb) (hc ▸ hl) (hc ▸ h) (o := 0) rfl hy sampleAccess_whole, hy⟩,
    t, _, _, _, ht, hst, hx, serve_sample_read hb hl h (o := 0) rfl hx sampleAccess_whole, ?_,
    serve_sample_read hb hl h (o := 0) rfl hx sampleAccess_low, ?_,
    serve_sample_read hb hl h h4 hx sampleAccess_high, ?_⟩
  · exact congrArg (x :: ·) hrep
  · exact congrArg₂ List.cons (samplePart_low h.1 x) hrep
  · exact congrArg₂ List.cons (samplePart_high h.1 x) hrep

theorem extractLsb'_setWidth (y : Word) : (y.setWidth 64).extractLsb' 0 32 = y := by
  apply BitVec.eq_of_toNat_eq
  rw [(half_toNat _).1, BitVec.toNat_setWidth]
  omega

/-- Settles O51: a half write replaces its half, and the whole read gives both. -/
theorem halfWriteKeepsOtherHalf : Obligations.HalfWriteKeepsOtherHalf := by
  intro s off x y hb hl h
  obtain ⟨z, hz, -⟩ := sample_read hl h
  obtain ⟨t, ht, hst, hx⟩ := serve_sample_write hb hl h (o := 0) (off' := off) rfl hz
    sampleAccess_whole x
  obtain ⟨hc, hbt, hrep⟩ := storesOnly_keeps hst
  rw [← hc] at hl h
  rw [← hbt] at hb
  obtain ⟨lo, hlo, hstlo, hxlo⟩ := serve_sample_write hb hl h (o := 0) (off' := off) rfl hx
    sampleAccess_low (y.setWidth 64)
  obtain ⟨hi, hhi, hsthi, hxhi⟩ := serve_sample_write hb hl h (offset_add_four hl h) hx
    sampleAccess_high (y.setWidth 64)
  obtain ⟨hclo, hblo, hreplo⟩ := storesOnly_keeps hstlo
  obtain ⟨hchi, hbhi, hrephi⟩ := storesOnly_keeps hsthi
  have hmlo : SampleIs lo off.toNat (x.extractLsb' 32 32 ++ y) := by
    have hm := mergeSample_low h.1 x (y.setWidth 64)
    rw [extractLsb'_setWidth] at hm
    exact hm ▸ hxlo
  have hmhi : SampleIs hi off.toNat (y ++ x.extractLsb' 0 32) := by
    have hm := mergeSample_high h.1 x (y.setWidth 64)
    rw [extractLsb'_setWidth] at hm
    exact hm ▸ hxhi
  refine ⟨t, lo, hi, _, _, ht, hlo, hstlo, hmlo,
    serve_sample_read (hblo.trans hb) (hclo ▸ hl) (hclo ▸ h) (o := 0) rfl hmlo sampleAccess_whole, ?_,
    hhi, hsthi, hmhi,
    serve_sample_read (hbhi.trans hb) (hchi ▸ hl) (hchi ▸ h) (o := 0) rfl hmhi sampleAccess_whole, ?_⟩
  · exact congrArg (_ :: ·) (hreplo.trans hrep)
  · exact congrArg (_ :: ·) (hrephi.trans hrep)

end Sys2Proof.Machine
end

section
/-! PROOF. The pixel memory and the bit memory as the host sees them (20_memory.md R62, R65, R66, R71):
bytes, lowest first. -/

namespace Sys2Proof.Machine

open Sys2Proof.Claims

/-! ## Accesses to bytes -/

/-- The widths of the byte apertures (20_memory.md R65, R66). -/
theorem bytes_of_ne_b8 {w : Width} (h : w ≠ .b8) : w.bytes = 1 ∨ w.bytes = 2 ∨ w.bytes = 4 := by
  cases w with
  | b1 => exact .inl rfl
  | b2 => exact .inr (.inl rfl)
  | b4 => exact .inr (.inr rfl)
  | b8 => exact absurd rfl h

section Bytes

variable {s : State} (hl : s.cfg.legal) {off : Offset} {w : Width}
  (hserved : writeServed s off.toNat w.bytes)
  (hp : placeOf s.cfg off.toNat = .pix ∨ placeOf s.cfg off.toNat = .bit)
include hl hserved hp

theorem serve_bytes_read : serve (.read off w) s =
    .next { s with replies := BitVec.ofNat 64 (s.readLE off.toNat w.bytes) :: s.replies } := by
  rw [serve_read ((rejects_eq_false_iff hl _ _).mpr hserved.1), readValue]
  rcases hp with hp | hp <;> rw [hp]

theorem serve_bytes_write (data : BitVec 64) : serve (.write off w data) s =
    .next (s.writeCells (leCells off.toNat w.bytes data.toNat)) := by
  rw [serve_write ((rejectsWrite_eq_false_iff hl _ _).mpr hserved), writeValue]
  rcases hp with hp | hp <;> rw [hp]

end Bytes

section Served

variable {s : State} (hb : s.busy = false) {w : Width} (hw : w ≠ .b8)
include hb hw

theorem pix_served {a : Nat} (hal : a % w.bytes = 0) (ha : a < 4 * s.cfg.maxPix) :
    writeServed s (pixOff a) w.bytes := by
  refine ⟨⟨?_, by simp [hb]⟩, by simp [hb]⟩
  unfold pixOff
  rcases bytes_of_ne_b8 hw with hn | hn | hn <;> rw [hn] at hal ⊢ <;>
    exact ⟨by omega, by omega⟩

theorem bit_served (hl : s.cfg.legal) {y : Nat} (hal : y % w.bytes = 0)
    (hy : 8 * y < 3 * s.cfg.maxPix) : writeServed s (bitOff y) w.bytes := by
  have hdvd := (maxPix_legal hl).2
  refine ⟨⟨?_, by simp [hb]⟩, by simp [hb]⟩
  unfold bitOff
  rcases bytes_of_ne_b8 hw with hn | hn | hn <;> rw [hn] at hal ⊢ <;>
    exact ⟨by omega, by omega⟩

end Served

/-! ## The pixel memory -/

theorem pixOff_add (a i : Nat) : pixOff a + i = pixOff (a + i) := Nat.add_assoc _ _ _

theorem readLE_pixel_toNat (s : State) (a : Nat) : s.readLE (pixOff a) 4 =
    (s.readPix a).toNat + 256 * ((s.readPix (a + 1)).toNat + 256 * ((s.readPix (a + 2)).toNat +
      256 * (s.readPix (a + 3)).toNat)) := by
  simp only [State.readLE, State.readPix, pixOff_add, Nat.add_assoc, Nat.reduceAdd, Nat.mul_zero,
    Nat.add_zero]

/-- The four bytes of a pixel word, lowest first (20_memory.md R62). -/
theorem readLE_pixel (s : State) (a : Nat) : BitVec.ofNat 64 (s.readLE (pixOff a) 4) =
    (s.readPix (a + 3) ++ s.readPix (a + 2) ++ s.readPix (a + 1) ++ s.readPix a).setWidth 64 := by
  apply BitVec.eq_of_toNat_eq
  rw [readLE_pixel_toNat, BitVec.toNat_ofNat, BitVec.toNat_setWidth, toNat_append_eq,
    toNat_append_eq, toNat_append_eq]
  congr 1
  omega

/-- A byte of a stored value. -/
theorem ofNat_div_pow (data : BitVec 64) (i : Nat) :
    BitVec.ofNat 8 (data.toNat / 256 ^ i) = data.extractLsb' (8 * i) 8 := by
  apply BitVec.eq_of_toNat_eq
  rw [BitVec.toNat_ofNat, BitVec.extractLsb'_toNat, Nat.shiftRight_eq_div_pow, Nat.pow_mul]

/-- Settles O52: the accesses move the bytes at their offsets, and a pixel word is four of them. -/
theorem pixelWordIsLittleEndian : Obligations.PixelWordIsLittleEndian := by
  refine ⟨fun s n off hb hl hn hoff => ?_, fun s a off w data hb hl hw hal ha hoff => ?_⟩
  · have hoff : off.toNat = pixOff (4 * n) := hoff
    have hserved : writeServed s off.toNat Width.b4.bytes :=
      hoff ▸ pix_served hb (by decide) (Nat.mul_mod_right 4 n) (by omega)
    have hp : placeOf s.cfg off.toNat = .pix := hoff ▸ placeOf_pix hl (by omega)
    refine ⟨_, serve_bytes_read hl hserved (.inl hp), ?_⟩
    rw [hoff]
    exact congrArg (· :: s.replies) (readLE_pixel s (4 * n))
  · have hoff : off.toNat = pixOff a := hoff
    have hserved : writeServed s off.toNat w.bytes := hoff ▸ pix_served hb hw hal ha
    have hp : placeOf s.cfg off.toNat = .pix := hoff ▸ placeOf_pix hl ha
    have h8 : w.bytes ≤ 8 := by
      rcases bytes_of_ne_b8 hw with hn | hn | hn <;> omega
    refine ⟨⟨_, serve_bytes_read hl hserved (.inl hp), fun i _ => ?_⟩,
      _, serve_bytes_write hl hserved (.inl hp) data, storesOnly_store s _ _ _, fun i hi => ?_⟩
    · rw [State.extractLsb'_readLE s h8, hoff, pixOff_add]
      rfl
    · rw [State.readPix, hoff, ← pixOff_add, s.readByte_store _ hi, ofNat_div_pow]

/-! ## The bit memory -/

/-- Bit `b` of a value read from memory is bit `b mod 8` of its byte `b div 8`. -/
theorem State.testBit_readLE (s : State) (a n b : Nat) : (s.readLE a n).testBit b =
    (decide (b < 8 * n) && (s.readByte (a + b / 8)).getLsbD (b % 8)) := by
  induction n generalizing a b with
  | zero => simp [State.readLE]
  | succ n ih =>
    have hcomm : (s.readByte a).toNat + 256 * s.readLE (a + 1) n =
        2 ^ 8 * s.readLE (a + 1) n + (s.readByte a).toNat := Nat.add_comm _ _
    rw [State.readLE, hcomm, Nat.testBit_two_pow_mul_add _ (s.readByte a).isLt]
    by_cases hlt : b < 8
    · rw [if_pos hlt, Nat.div_eq_of_lt hlt, Nat.mod_eq_of_lt hlt,
        decide_eq_true (show b < 8 * (n + 1) by omega)]
      rfl
    · obtain ⟨c, rfl⟩ : ∃ c, b = c + 8 := ⟨b - 8, by omega⟩
      have hbyte : a + 1 + c / 8 = a + (c + 8) / 8 := by omega
      have hiff : c < 8 * n ↔ c + 8 < 8 * (n + 1) := by omega
      rw [if_neg hlt, Nat.add_sub_cancel, ih, hbyte, decide_eq_decide.mpr hiff, Nat.add_mod_right]

/-- The bits of the bit memory from a byte up (10_state.md R25). -/
theorem State.readBit_byte (s : State) (y b : Nat) :
    s.readBit (8 * y + b) = (s.readByte (bitOff y + b / 8)).getLsbD (b % 8) := by
  have hdiv : (8 * y + b) / 8 = y + b / 8 := by omega
  have hmod : (8 * y + b) % 8 = b % 8 := by omega
  have hoff : bitOff (y + b / 8) = bitOff y + b / 8 := (Nat.add_assoc _ _ _).symm
  rw [State.readBit, hdiv, hmod, hoff]

/-- A read of the bit memory, bit for bit. -/
theorem readLE_bits (s : State) (y : Nat) {n b : Nat} (hb : b < 64) :
    (BitVec.ofNat 64 (s.readLE (bitOff y) n)).getLsbD b =
      (decide (b < 8 * n) && s.readBit (8 * y + b)) := by
  rw [BitVec.getLsbD_ofNat, State.testBit_readLE, State.readBit_byte, decide_eq_true hb, Bool.true_and]

/-- A write to the bit memory, bit for bit. -/
theorem readBit_store (s : State) (y : Nat) {n b : Nat} (data : BitVec 64) (hb : b < 8 * n) :
    (s.writeCells (leCells (bitOff y) n data.toNat)).readBit (8 * y + b) = data.getLsbD b := by
  have hbit : b % 8 + 8 * (b / 8) = b := Nat.mod_add_div b 8
  rw [State.readBit_byte, s.readByte_store _ (show b / 8 < n by omega), BitVec.getLsbD_ofNat,
    decide_eq_true (Nat.mod_lt b (by decide)), Bool.true_and,
    show 256 ^ (b / 8) = 2 ^ (8 * (b / 8)) from (Nat.pow_mul 2 8 _).symm, Nat.testBit_div_two_pow,
    hbit]
  rfl

/-- Settles O53: the accesses move the bits of the bytes at their offsets. -/
theorem bitWordLayout : Obligations.BitWordLayout := by
  refine ⟨fun s n off hb hl hn hoff => ?_, fun s y off w data hb hl hw hal hy hoff => ?_⟩
  · have hoff : off.toNat = bitOff (4 * n) := hoff
    have hserved : writeServed s off.toNat Width.b4.bytes :=
      hoff ▸ bit_served hb (by decide) hl (Nat.mul_mod_right 4 n) (by omega)
    have hp : placeOf s.cfg off.toNat = .bit := hoff ▸ placeOf_bit (by omega) hl
    refine ⟨_, _, serve_bytes_read hl hserved (.inr hp), rfl, fun b hb => ?_⟩
    rw [hoff, readLE_bits s _ (by omega), decide_eq_true (show b < 8 * Width.b4.bytes from hb),
      Bool.true_and, ← Nat.mul_assoc]
  · have hoff : off.toNat = bitOff y := hoff
    have hserved : writeServed s off.toNat w.bytes := hoff ▸ bit_served hb hw hl hal hy
    have hp : placeOf s.cfg off.toNat = .bit := hoff ▸ placeOf_bit hy hl
    refine ⟨⟨_, serve_bytes_read hl hserved (.inr hp), fun b hb => ?_⟩,
      _, serve_bytes_write hl hserved (.inr hp) data, storesOnly_store s _ _ _, fun b hb => ?_⟩
    · rw [hoff, readLE_bits s y hb]
    · rw [hoff, readBit_store s y data hb]

end Sys2Proof.Machine
end
